-- ==== Sys2Proof/Word.lean ====
section
/-! DEFINITION. The word types of PCC and the four tag bytes as one value (spec/00_scope.md section 6, R91, R22).
Everything is unsigned and every quantity of a fixed width is a bit vector. -/

namespace Sys2Proof

/-- An 8-bit byte, the unit of every space and stream (20_memory.md R50). -/
abbrev Byte := BitVec 8

/-- A 32-bit value: a checksum, a length, `arg`, `RES`. -/
abbrev Word := BitVec 32

/-- A 40-bit command word (30_encoding.md R90). -/
abbrev CmdWord := BitVec 40

/-- Four tag bytes, `b0` first on the wire (10_state.md R22, 20_memory.md R54). -/
structure Tag where
  b0 : Byte
  b1 : Byte
  b2 : Byte
  b3 : Byte
  deriving DecidableEq, Repr

end Sys2Proof
end

