-- ==== Sys2Proof/Syntax.lean ====
section
/-! DEFINITION. The 26 commands of the command set PCC-1, one constructor per row of spec/opcode_table.json
(30_encoding.md R92). The three operands that `arg` carries (R91) appear as what they mean: an expected checksum, four tag
bytes, a zero-based list index. -/

namespace Sys2Proof

/-- A PCC-1 command with its operand (30_encoding.md R91, R92). -/
inductive Instr
  | crcGen
  | crcVfy (expected : Word)
  | ttParse
  | ttParseb (tag : Tag)
  | ttBytes
  | ttValid
  | ttCrit
  | ttPub
  | ttRsvd
  | ttSafe
  | ttDisp
  | chNew
  | chLen
  | chType
  | chData
  | chCrc
  | chStr
  | chSer
  | chDes
  | ctFrom
  | ctAppend
  | ctRemove
  | ctFind
  | ctChunks (index : Nat)
  | ctSer
  | ctDes
  deriving DecidableEq, Repr

end Sys2Proof
end

