-- ==== Sys2Proof/WellFormed.lean ====
section
/-! DEFINITION. Which commands have a command word. The types already bound every operand but the list index of
`CT.CHUNKS`, which is the 32-bit `arg` read as an unsigned number (30_encoding.md R91). -/

namespace Sys2Proof

/-- The command fits the format `C40` (30_encoding.md R90, R91). -/
def Instr.wf : Instr → Bool
  | .crcGen => true
  | .crcVfy _ => true
  | .ttParse => true
  | .ttParseb _ => true
  | .ttBytes => true
  | .ttValid => true
  | .ttCrit => true
  | .ttPub => true
  | .ttRsvd => true
  | .ttSafe => true
  | .ttDisp => true
  | .chNew => true
  | .chLen => true
  | .chType => true
  | .chData => true
  | .chCrc => true
  | .chStr => true
  | .chSer => true
  | .chDes => true
  | .ctFrom => true
  | .ctAppend => true
  | .ctRemove => true
  | .ctFind => true
  | .ctChunks index => decide (index < 2 ^ 32)
  | .ctSer => true
  | .ctDes => true

end Sys2Proof
end

