-- ==== Sys2Proof/Decode.lean ====
section
/-! DEFINITION. Command words: the decoder of 30_encoding.md R92 and R93, total on every 40-bit word, and the encoder written
from the same table. A command word written as bytes is five bytes, `op` first, then `arg` big-endian (R90). -/

namespace Sys2Proof

/-- The four bytes in wire order (20_memory.md R54). -/
def Tag.toList (t : Tag) : List Byte := [t.b0, t.b1, t.b2, t.b3]

/-- Four tag bytes packed into 32 bits, `tag[0]` in bits 31 to 24 (30_encoding.md R91). -/
def Tag.toWord (t : Tag) : Word := t.b0 ++ t.b1 ++ t.b2 ++ t.b3

/-- The four tag bytes that `arg` carries (30_encoding.md R91). -/
def Tag.ofWord (v : Word) : Tag where
  b0 := v.extractLsb' 24 8
  b1 := v.extractLsb' 16 8
  b2 := v.extractLsb' 8 8
  b3 := v.extractLsb' 0 8

/-- `tagr[idx] <- b` (42_chunk.md R165). -/
def Tag.set (t : Tag) (idx : Nat) (b : Byte) : Tag :=
  match idx with
  | 0 => { t with b0 := b }
  | 1 => { t with b1 := b }
  | 2 => { t with b2 := b }
  | 3 => { t with b3 := b }
  | _ => t

/-- Why a command word is illegal (30_encoding.md R93). -/
inductive Illegal
  | unknownOp (op : Byte)
  | argNotZero (op : Byte) (arg : Word)
  deriving DecidableEq, Repr

/-- The field `op`, bits 39 to 32 (R90). -/
def opOf (w : CmdWord) : Byte := w.extractLsb' 32 8

/-- The field `arg`, bits 31 to 0 (R90). -/
def argOf (w : CmdWord) : Word := w.extractLsb' 0 32

/-- A command whose `arg` must be zero (R93). -/
def zeroArg (op : Byte) (arg : Word) (i : Instr) : Except Illegal Instr :=
  if arg = 0 then .ok i else .error (.argNotZero op arg)

/-- The command a word stands for, or why it is illegal (R92, R93). -/
def decode (w : CmdWord) : Except Illegal Instr :=
  let op := opOf w
  let arg := argOf w
  match op.toNat with
  | 0x10 => zeroArg op arg .crcGen
  | 0x11 => .ok (.crcVfy arg)
  | 0x20 => zeroArg op arg .ttParse
  | 0x21 => .ok (.ttParseb (Tag.ofWord arg))
  | 0x22 => zeroArg op arg .ttBytes
  | 0x23 => zeroArg op arg .ttValid
  | 0x24 => zeroArg op arg .ttCrit
  | 0x25 => zeroArg op arg .ttPub
  | 0x26 => zeroArg op arg .ttRsvd
  | 0x27 => zeroArg op arg .ttSafe
  | 0x28 => zeroArg op arg .ttDisp
  | 0x30 => zeroArg op arg .chNew
  | 0x31 => zeroArg op arg .chLen
  | 0x32 => zeroArg op arg .chType
  | 0x33 => zeroArg op arg .chData
  | 0x34 => zeroArg op arg .chCrc
  | 0x35 => zeroArg op arg .chStr
  | 0x36 => zeroArg op arg .chSer
  | 0x37 => zeroArg op arg .chDes
  | 0x40 => zeroArg op arg .ctFrom
  | 0x41 => zeroArg op arg .ctAppend
  | 0x42 => zeroArg op arg .ctRemove
  | 0x43 => zeroArg op arg .ctFind
  | 0x44 => .ok (.ctChunks arg.toNat)
  | 0x45 => zeroArg op arg .ctSer
  | 0x46 => zeroArg op arg .ctDes
  | _ => .error (.unknownOp op)

/-- The `op` column of R92. -/
def opcode : Instr → Byte
  | .crcGen => 0x10
  | .crcVfy _ => 0x11
  | .ttParse => 0x20
  | .ttParseb _ => 0x21
  | .ttBytes => 0x22
  | .ttValid => 0x23
  | .ttCrit => 0x24
  | .ttPub => 0x25
  | .ttRsvd => 0x26
  | .ttSafe => 0x27
  | .ttDisp => 0x28
  | .chNew => 0x30
  | .chLen => 0x31
  | .chType => 0x32
  | .chData => 0x33
  | .chCrc => 0x34
  | .chStr => 0x35
  | .chSer => 0x36
  | .chDes => 0x37
  | .ctFrom => 0x40
  | .ctAppend => 0x41
  | .ctRemove => 0x42
  | .ctFind => 0x43
  | .ctChunks _ => 0x44
  | .ctSer => 0x45
  | .ctDes => 0x46

/-- The `arg` column of R92: three commands carry an operand, the other 23 carry zero (R91). -/
def argument : Instr → Word
  | .crcVfy expected => expected
  | .ttParseb tag => tag.toWord
  | .ctChunks index => BitVec.ofNat 32 index
  | .crcGen | .ttParse | .ttBytes | .ttValid | .ttCrit | .ttPub | .ttRsvd | .ttSafe | .ttDisp
  | .chNew | .chLen | .chType | .chData | .chCrc | .chStr | .chSer | .chDes
  | .ctFrom | .ctAppend | .ctRemove | .ctFind | .ctSer | .ctDes => 0

/-- The command word of a command (R90). -/
def encode (i : Instr) : CmdWord := opcode i ++ argument i

/-- A command word written as bytes, `op` first, then `arg` big-endian (R90). -/
def encodeBytes (i : Instr) : List Byte := opcode i :: (Tag.ofWord (argument i)).toList

/-- Why a byte string is no command. -/
inductive BytesRejected
  | notFiveBytes (count : Nat)
  | illegal (why : Illegal)
  deriving DecidableEq, Repr

/-- The command that a byte string writes out, total on any bytes (R90, R93). -/
def decodeBytes : List Byte → Except BytesRejected Instr
  | [op, a0, a1, a2, a3] =>
    match decode (op ++ (Tag.mk a0 a1 a2 a3).toWord) with
    | .ok i => .ok i
    | .error e => .error (.illegal e)
  | bytes => .error (.notFiveBytes bytes.length)

/-- The command word whose low `nbits` bits are those of `w`, numbered as spec/opcode_table.json numbers them: bit 0 is bit 0
of `arg`, bit 39 the top bit of `op`. -/
def tableWord (nbits w : Nat) : CmdWord := BitVec.ofNat 40 (w % 2 ^ nbits)

/-- What the decoder reads from an instruction of `nbits` bits `w`. -/
def decodeTableWord (nbits w : Nat) : Option Instr := (decode (tableWord nbits w)).toOption

end Sys2Proof
end

