-- ==== Sys2Proof/Config.lean ====
section
/-! DEFINITION. The parameters of PCC (00_scope.md R8), passed as a configuration (10_state.md R32), and the one value the
spec leaves free. Log entries 5, 6, 12, 13. -/

namespace Sys2Proof

/-- The parameter `ERR_ORDER` (R8): which of ChecksumMismatch and InvalidTypeTagEncoding a complete record reports when both
apply. -/
inductive ErrOrder
  | crcFirst
  | tagFirst
  deriving DecidableEq, Repr

/-- The parameter `RSVD_EXPECT` (R8): the letter case the position-2 flag expects. -/
inductive RsvdExpect
  | lower
  | upper
  deriving DecidableEq, Repr

/-- The parameters of one instance of PCC (R8). Both capacities range over `0 .. 2^32 - 1`, which is what 32 bits hold.
`CURSOR_BITS` is unbounded here (log 6); no rule depends on `CSR_BINDING` (log 13). `magic` is the ROM (20_memory.md R51). -/
structure Config where
  payloadMax : Word
  chunksMax : Word
  errOrder : ErrOrder
  rsvdExpect : RsvdExpect
  magic : Vector Byte 8
  crcPolyR : Word
  crcInit : Word
  crcXorout : Word
  deriving DecidableEq, Repr

/-- The values of R8: the fixed ones as the spec fixes them, the two OPEN capacities at the value every test vector takes
(DESIGN CHOICE, log 5). -/
def Config.standard : Config where
  payloadMax := 0xFFFFFFFF#32
  chunksMax := 0xFFFFFFFF#32
  errOrder := .crcFirst
  rsvdExpect := .lower
  magic := #v[0x89#8, 0x50#8, 0x4E#8, 0x47#8, 0x0D#8, 0x0A#8, 0x1A#8, 0x0A#8]
  crcPolyR := 0xEDB88320#32
  crcInit := 0xFFFFFFFF#32
  crcXorout := 0xFFFFFFFF#32

/-- FREE VALUE (93_implementation_defined.md U21, 20_memory.md R62 (d); log 12): "they change at some point before the `RSP`
beat". From which read of `CSR` during the `command`-th command the bit `bit` of `STATUS` shows its new value. It has no body,
so no proof can see it. -/
opaque Config.statusPoint (command bit : Nat) : Nat

end Sys2Proof
end

