-- ==== Sys2Proof/Machine/State.lean ====
section
/-! DEFINITION. The state of PCC as plain data (10_state.md R20 to R33): object registers, status registers, sequencer
registers, and the host's ports. INVENTORY.md lists every field with its rule and its reset value. -/

namespace Sys2Proof.Machine

/-- The error codes of `ERR` and of the `RSP` beat (60_exceptions.md R241). Reserved codes have no constructor (U15). -/
inductive ErrCode
  | ok
  | checksumMismatch
  | malformedHeader
  | truncatedStream
  | invalidTypeTagEncoding
  | notFound
  | payloadNotText
  | noSuchIndex
  | faulted
  deriving DecidableEq, Repr

/-- The fault codes of `FAULT` (60_exceptions.md R251); code `0x00` is the absence of one. -/
inductive FaultCode
  | illegal
  | unwritten
  | tagLen
  | capacity
  deriving DecidableEq, Repr

/-- The contents of the type tag register while `TT.w = 1` (10_state.md R21), one constructor per value of `TT.n`: exactly the
bytes that hold a value are there. `long` is `TT.n = 5`, a text of five or more bytes of which the first four are kept. -/
inductive TypeTag
  | len0
  | len1 (b0 : Byte)
  | len2 (b0 b1 : Byte)
  | len3 (b0 b1 b2 : Byte)
  | len4 (tag : Tag)
  | long (tag : Tag)
  deriving DecidableEq, Repr

/-- A chunk value `(len, tag, data, crc)` (10_state.md R22). -/
structure Chunk where
  len : Word
  tag : Tag
  data : List Byte
  crc : Word
  deriving DecidableEq, Repr

/-- The sequencer phases (10_state.md R27), input side and output side. -/
inductive Phase
  | idle
  | hdr
  | len
  | tag
  | pay
  | crc
  | drain
  | sMagic
  | sLen
  | sTag
  | sPay
  | sCrc
  deriving DecidableEq, Repr

/-- One beat on `DIN` or `DOUT` (00_scope.md R6): `byte = none` is a null beat, which carries no byte (log 14). -/
structure Beat where
  byte : Option Byte
  last : Bool
  deriving DecidableEq, Repr

/-- One beat that PCC has put out (R6): on `DOUT`, or on `RSP`. -/
inductive PortOut
  | dout (beat : Beat)
  | rsp (err : ErrCode) (res : Word)
  deriving DecidableEq, Repr

/-- A command that takes a `DIN` packet (30_encoding.md R92), with the operands it has read from the command word and from
`TT` when it started; held while the command waits for the rest of its packet (log 9). -/
inductive Consumer
  | crcGen
  | crcVfy (expected : Word)
  | ttParse
  | chNew (tag : Tag)
  | chDes
  | ctRemove
  | ctFind
  | ctDes
  deriving DecidableEq, Repr

/-- Where the output sequencer stands while it offers one `DOUT` beat (42_chunk.md R167, 43_container.md R213): the phase, the
index inside a field, the length latch. The tag latch `tagr` is not among them: output leaves it as it was (log 19). -/
structure Mark where
  ph : Phase
  idx : Nat
  lenr : Word
  deriving DecidableEq, Repr

/-- The sequencer registers (10_state.md R27 to R29, R31), dead between commands (R20). `txt` is the model's own latch for the
text of `TT.PARSE`, `CT.REMOVE` and `CT.FIND` (log 7); `plan` is the model's own, where the sequencer will stand for each `DOUT`
beat after the one it offers (log 19). Counters are naturals (40_crc.md R119). -/
structure Seq where
  ph : Phase
  idx : Nat
  rem : Nat
  pos : Nat
  crcR : Word
  crcX : Word
  lenr : Word
  tagr : Tag
  perr : ErrCode
  stage : List Byte
  sl : List Chunk
  txt : TypeTag
  plan : List Mark
  deriving DecidableEq, Repr

/-- The contents of an `RSP` beat that is owed: it has not moved yet (00_scope.md R6, R7). -/
structure Response where
  err : ErrCode
  res : Word
  deriving DecidableEq, Repr

/-- The bits `TTW`, `CKV`, `CLV` of `STATUS` (10_state.md R26). -/
structure HeldBits where
  ttw : Bool
  ckv : Bool
  clv : Bool
  deriving DecidableEq, Repr

/-- The whole machine. An object register is `none` while its `w` or `v` bit is 0: it then holds no value (R25, U10; log 2). `dout` and
`rsp` are the output beats of the command in progress that have not moved (R6, R7; log 8), `doutRoom` and `rspRoom` how many
beats the host is willing to take on the two ports (R285; log 8). `was` and `issued` are the model's own: the bits of `STATUS`
when the command in progress was taken, and how many commands have been taken (log 12). -/
structure State where
  cfg : Config
  tt : Option TypeTag
  ck : Option Chunk
  cl : Option (List Chunk)
  busy : Bool
  flt : Bool
  err : ErrCode
  res : Word
  fault : Option FaultCode
  seq : Seq
  cur : Option Consumer
  dout : List Beat
  rsp : Option Response
  was : HeldBits
  issued : Nat
  cmd : List CmdWord
  din : List Beat
  out : List PortOut
  doutRoom : Nat
  rspRoom : Nat
  deriving DecidableEq, Repr

/-- Why there is no next state. These are the stuck states of 93_implementation_defined.md U19 and U22 ("the model has no
step; the run does not go on"); none is an effect of a command. All are safe: the machine stops where the hardware only
waits. -/
inductive Fault
  /-- Raised by `step` after a fault: the block takes no beat until reset (60_exceptions.md R250, U22). Safe. -/
  | halted
  /-- Raised by `step` when PCC is idle and the host has sent no command word (00_scope.md R7). Safe. -/
  | waitingForCmd
  /-- Raised by `step` when a command waits for `DIN` beats that the host has not sent (70_reset_and_hazards.md R285, U19).
  Safe. -/
  | waitingForDin
  /-- Raised by `step` when a `DOUT` beat is offered that the host does not take (R285, U19). Safe. -/
  | waitingForDout
  /-- Raised by `step` when an `RSP` beat is offered that the host does not take (R285, U19). Safe. -/
  | waitingForRsp
  deriving DecidableEq, Repr

/-- Why an instruction has no meaning here. -/
inductive Refusal
  /-- Raised by `exec` for an instruction that is not modelled yet. Safe. No arm raises it. -/
  | notModelled (mnemonic : String)
  deriving DecidableEq, Repr

/-- The outcome of one step. -/
abbrev Out := Host.Outcome State Fault Refusal

/-- The sequencer at reset: `ph` is `IDLE` (R33); the others are unspecified, each is written before it is read (R29), and the
zeros here are a DESIGN CHOICE (log 1). -/
def Seq.reset : Seq where
  ph := .idle
  idx := 0
  rem := 0
  pos := 0
  crcR := 0
  crcX := 0
  lenr := 0
  tagr := ⟨0, 0, 0, 0⟩
  perr := .ok
  stage := []
  sl := []
  txt := .len0
  plan := []

/-- An instance with the parameters `cfg`, right after reset (10_state.md R33), with nothing on its ports. -/
def State.resetWith (cfg : Config) : State where
  cfg := cfg
  tt := none
  ck := none
  cl := none
  busy := false
  flt := false
  err := .ok
  res := 0
  fault := none
  seq := Seq.reset
  cur := none
  dout := []
  rsp := none
  was := ⟨false, false, false⟩
  issued := 0
  cmd := []
  din := []
  out := []
  doutRoom := 0
  rspRoom := 0

/-- The machine right after reset, with the parameters of 00_scope.md R8 (log 5). -/
def State.reset : State := State.resetWith Config.standard

end Sys2Proof.Machine
end

