-- ==== Sys2Proof/Machine/Operands.lean ====
section
/-! DEFINITION. Operand forms: packets of beats (00_scope.md R6), the big-endian fields (section 6, R54, R57), slices, the text
that `TT` keeps (10_state.md R21), well-formed text (41_typetag.md R132), and the numbers of the codes (60_exceptions.md R241,
R251). -/

namespace Sys2Proof.Machine

/-! ## Packets -/

/-- The byte a beat carries, if any (R6). -/
def Beat.bytes (b : Beat) : List Byte := b.byte.toList

/-- `take_packet()`: the byte string of the first packet of a run of beats and the beats after it, or none when the packet's
`last` beat is not there. The packet ends at the first beat with `last = 1`; null beats carry nothing (R6). -/
def firstPacket : List Beat → Option (List Byte × List Beat)
  | [] => none
  | b :: bs =>
    if b.last then some (b.bytes, bs)
    else
      match firstPacket bs with
      | none => none
      | some (p, rest) => some (b.bytes ++ p, rest)

/-- The beats that PCC emits for a non-empty packet: one byte each, `last` on the final one (R6). -/
def byteBeats : List Byte → List Beat
  | [] => []
  | [b] => [⟨some b, true⟩]
  | b :: bs => ⟨some b, false⟩ :: byteBeats bs

/-- The beats of a packet (R6): the empty packet is one beat with `null = 1, last = 1`. -/
def packetBeats (p : List Byte) : List Beat :=
  match p with
  | [] => [⟨none, true⟩]
  | _ => byteBeats p

/-! ## Fields -/

/-- `v <- (v << 8) | b` on 32 bits (20_memory.md R57). -/
def shiftIn (v : Word) (b : Byte) : Word := (v <<< 8) ||| b.setWidth 32

/-- `BE32(v)`, the first byte most significant (00_scope.md section 6). -/
def be32Bytes (v : Word) : List Byte := (Tag.ofWord v).toList

/-- The value of a byte string read as a big-endian number (00_scope.md section 6, `be32` for four bytes). -/
def beNat : List Byte → Nat
  | [] => 0
  | b :: bs => b.toNat * 256 ^ bs.length + beNat bs

/-- `be32(s)` for a 4-byte string (00_scope.md section 6). -/
def be32 (s : List Byte) : Word := BitVec.ofNat 32 (beNat s)

/-- `s[i..j)` (00_scope.md section 6). -/
def slice (s : List Byte) (i j : Nat) : List Byte := (s.drop i).take (j - i)

/-! ## The text of a tag -/

/-- `TT.n`: the length of the text, saturated at 5 (10_state.md R21). -/
def TypeTag.n : TypeTag → Nat
  | .len0 => 0
  | .len1 _ => 1
  | .len2 _ _ => 2
  | .len3 _ _ _ => 3
  | .len4 _ => 4
  | .long _ => 5

/-- The bytes `TT.b[i]` that hold a value, those with `i < TT.n` and `i < 4` (10_state.md R21). -/
def TypeTag.b : TypeTag → List Byte
  | .len0 => []
  | .len1 b0 => [b0]
  | .len2 b0 b1 => [b0, b1]
  | .len3 b0 b1 b2 => [b0, b1, b2]
  | .len4 t => t.toList
  | .long t => t.toList

/-- The text with one byte more: the fifth byte and those after it only saturate the length (R21). -/
def TypeTag.push (x : TypeTag) (b : Byte) : TypeTag :=
  match x with
  | .len0 => .len1 b
  | .len1 b0 => .len2 b0 b
  | .len2 b0 b1 => .len3 b0 b1 b
  | .len3 b0 b1 b2 => .len4 ⟨b0, b1, b2, b⟩
  | .len4 t => .long t
  | .long t => .long t

/-- What `TT` keeps of a text (10_state.md R21). -/
def TypeTag.ofText : List Byte → TypeTag
  | [] => .len0
  | [b0] => .len1 b0
  | [b0, b1] => .len2 b0 b1
  | [b0, b1, b2] => .len3 b0 b1 b2
  | [b0, b1, b2, b3] => .len4 ⟨b0, b1, b2, b3⟩
  | b0 :: b1 :: b2 :: b3 :: _ :: _ => .long ⟨b0, b1, b2, b3⟩

/-- The four tag bytes, there only when `TT.n = 4` (41_typetag.md R144). -/
def TypeTag.four : TypeTag → Option Tag
  | .len4 t => some t
  | .len0 => none
  | .len1 _ => none
  | .len2 _ _ => none
  | .len3 _ _ _ => none
  | .long _ => none

/-! ## Well-formed text -/

/-- `lo <= b <= hi`, unsigned. -/
def inRange (lo hi b : Byte) : Bool := decide (lo.toNat ≤ b.toNat) && decide (b.toNat ≤ hi.toNat)

/-- A continuation byte, `80` to `BF` (41_typetag.md R132). -/
def isCont (b : Byte) : Bool := inRange 0x80 0xBF b

/-- The two-byte rows of R132. -/
def utf8Two (b0 b1 : Byte) : Bool := inRange 0xC2 0xDF b0 && isCont b1

/-- The three-byte rows of R132. -/
def utf8Three (b0 b1 b2 : Byte) : Bool :=
  (inRange 0xE0 0xE0 b0 && inRange 0xA0 0xBF b1 && isCont b2) ||
  (inRange 0xE1 0xEC b0 && isCont b1 && isCont b2) ||
  (inRange 0xED 0xED b0 && inRange 0x80 0x9F b1 && isCont b2) ||
  (inRange 0xEE 0xEF b0 && isCont b1 && isCont b2)

/-- The four-byte rows of R132. -/
def utf8Four (b0 b1 b2 b3 : Byte) : Bool :=
  (inRange 0xF0 0xF0 b0 && inRange 0x90 0xBF b1 && isCont b2 && isCont b3) ||
  (inRange 0xF1 0xF3 b0 && isCont b1 && isCont b2 && isCont b3) ||
  (inRange 0xF4 0xF4 b0 && inRange 0x80 0x8F b1 && isCont b2 && isCont b3)

/-- `utf8_ok(s)` (41_typetag.md R132): each sequence of the table complete inside `s`. -/
def utf8Ok : List Byte → Bool
  | [] => true
  | b0 :: r0 =>
    if inRange 0x00 0x7F b0 then utf8Ok r0
    else
      match r0 with
      | [] => false
      | b1 :: r1 =>
        if utf8Two b0 b1 then utf8Ok r1
        else
          match r1 with
          | [] => false
          | b2 :: r2 =>
            if utf8Three b0 b1 b2 then utf8Ok r2
            else
              match r2 with
              | [] => false
              | b3 :: r3 => utf8Four b0 b1 b2 b3 && utf8Ok r3

/-! ## Codes -/

/-- The number of an error code (60_exceptions.md R241). -/
def ErrCode.code : ErrCode → Byte
  | .ok => 0x00
  | .checksumMismatch => 0x01
  | .malformedHeader => 0x02
  | .truncatedStream => 0x03
  | .invalidTypeTagEncoding => 0x04
  | .notFound => 0x05
  | .payloadNotText => 0x06
  | .noSuchIndex => 0x07
  | .faulted => 0xFF

/-- The number of a fault code (60_exceptions.md R251). -/
def FaultCode.code : FaultCode → Byte
  | .illegal => 0x01
  | .unwritten => 0x02
  | .tagLen => 0x03
  | .capacity => 0x04

/-- The 40 bits of an `RSP` beat, `err` in bits 39 to 32 (30_encoding.md R94). -/
def rspWord (e : ErrCode) (res : Word) : CmdWord := e.code ++ res

/-- A truth value in `res`: 1 for true, 0 for false (30_encoding.md R91). -/
def truth (b : Bool) : Word := if b then 1 else 0

end Sys2Proof.Machine
end

