-- ==== Sys2Proof/Machine/Flags.lean ====
section
/-! DEFINITION. The flags: byte classes, the four selectors and the validity predicate of the TypeTag unit (41_typetag.md R131,
R133, R134), and the bits of `STATUS` (10_state.md R26). PCC has no flags register (R30). -/

namespace Sys2Proof.Machine

/-- 'A' to 'Z' (R131). -/
def isUpper (b : Byte) : Bool := inRange 0x41 0x5A b

/-- 'a' to 'z' (R131). -/
def isLower (b : Byte) : Bool := inRange 0x61 0x7A b

/-- An ASCII letter (R131). -/
def isAlpha (b : Byte) : Bool := isUpper b || isLower b

/-- The position-0 selector (R133). -/
def critical (t : Tag) : Bool := isUpper t.b0

/-- The position-1 selector (R133). -/
def publicFlag (t : Tag) : Bool := isUpper t.b1

/-- The position-2 selector, by the polarity `RSVD_EXPECT` (R133). -/
def reservedOk (expect : RsvdExpect) (t : Tag) : Bool :=
  match expect with
  | .lower => isLower t.b2
  | .upper => isUpper t.b2

/-- The position-3 selector (R133). -/
def safeToCopy (t : Tag) : Bool := isLower t.b3

/-- `tag_valid(TT)` (R134): length 4 and four ASCII letters. When `TT.n != 4` the bytes are not looked at. -/
def tagValid (x : TypeTag) : Bool :=
  match x.four with
  | none => false
  | some t => isAlpha t.b0 && isAlpha t.b1 && isAlpha t.b2 && isAlpha t.b3

/-- `STATUS` with given bits `TTW`, `CKV`, `CLV` (10_state.md R26): bits 7 to 5 read as 0. -/
def statusWith (s : State) (ttw ckv clv : Bool) : Byte :=
  0#3 ++ BitVec.ofBool s.flt ++ BitVec.ofBool clv ++ BitVec.ofBool ckv ++ BitVec.ofBool ttw ++ BitVec.ofBool s.busy

/-- `STATUS` (10_state.md R26) with the object registers as they are. -/
def statusByte (s : State) : Byte := statusWith s s.tt.isSome s.ck.isSome s.cl.isSome

end Sys2Proof.Machine
end

