-- ==== Sys2Proof/Machine/Ops.lean ====
section
/-! DEFINITION. The shared operations of every command: the start, the response, raising an error, taking a fault and the
reset that ends it, the checks on the object registers, the packet a command takes and the packet it emits. -/

namespace Sys2Proof.Machine

/-! ## The ends of a command -/

/-- The bits `TTW`, `CKV`, `CLV` of the object registers as they are (10_state.md R26). -/
def State.held (s : State) : HeldBits := ⟨s.tt.isSome, s.ck.isSome, s.cl.isSome⟩

/-- The `CMD` beat has moved: `BUSY` is 1 until the `RSP` beat moves (10_state.md R26). -/
def cmdTaken (s : State) : State := { s with busy := true, was := s.held, issued := s.issued + 1 }

/-- `respond(err, res)` (00_scope.md section 6): the `RSP` beat is owed. `ERR` and `RES` show it, and `BUSY` falls, when it moves
(20_memory.md R62 (d); `moveRsp`). -/
def respond (e : ErrCode) (r : Word) (s : State) : State := { s with cur := none, rsp := some ⟨e, r⟩ }

/-- `raise Error(code)` (60_exceptions.md R244) once the packet has been consumed: no object register changes and `RES` is 0. -/
def raiseError (e : ErrCode) (s : State) : State := respond e 0 s

/-- `fault Fault(code)` (60_exceptions.md R250): `FAULT` is sticky, `STATUS.FLT` is set, the beat `(0xFF, code)` is owed, no
object register changes, and `BUSY` stays as it is, 1. -/
def takeFault (c : FaultCode) (s : State) : State :=
  respond .faulted (c.code.setWidth 32) { s with fault := some (s.fault.getD c), flt := true }

/-- The reset input `rst` (70_reset_and_hazards.md R280, R281), at any time: every register at its value of 10_state.md R33;
the parameters and the ROM stay. The command in progress is abandoned: the `DOUT` and `RSP` beats it owes never move. What is on
the host's side of the ports stays: beats not yet taken are the host's (R31 (c)), beats that have moved cannot be taken back
(20_memory.md R53; log 10). The model's command counter goes on (log 12). -/
def State.rst (s : State) : State :=
  { State.resetWith s.cfg with
    issued := s.issued
    cmd := s.cmd
    din := s.din
    out := s.out
    doutRoom := s.doutRoom
    rspRoom := s.rspRoom }

/-! ## Object registers -/

/-- A read of `TT` (10_state.md R25): `F_UNWRITTEN` while `TT.w = 0`. -/
def needTag (s : State) (k : TypeTag → State) : State :=
  match s.tt with
  | none => takeFault .unwritten s
  | some x => k x

/-- A read of the four bytes of `TT` (41_typetag.md R144): then `F_TAGLEN` unless `TT.n = 4`. -/
def needFour (s : State) (k : Tag → State) : State :=
  needTag s fun x =>
    match x.four with
    | none => takeFault .tagLen s
    | some t => k t

/-- A read of `CK` (42_chunk.md R169): `F_UNWRITTEN` while `CK.v = 0`. -/
def needChunk (s : State) (k : Chunk → State) : State :=
  match s.ck with
  | none => takeFault .unwritten s
  | some c => k c

/-- A read of `CL` (43_container.md R219): `F_UNWRITTEN` while `CL.v = 0`. -/
def needList (s : State) (k : List Chunk → State) : State :=
  match s.cl with
  | none => takeFault .unwritten s
  | some l => k l

/-! ## Packets in -/

/-- What one `DIN` byte does to the sequencer: it goes on, or the block faults at this beat. -/
abbrev ByteStep := Byte → Seq → Except FaultCode Seq

/-- How far a command has come with its packet: the beats ran out before `last`, the packet ended, or a fault. -/
inductive Taken
  | waiting (q : Seq)
  | ended (q : Seq) (rest : List Beat)
  | faulted (code : FaultCode) (q : Seq) (rest : List Beat)
  deriving DecidableEq, Repr

/-- The cursor `pos` counts the bytes consumed; a null beat carries none (00_scope.md R6, 10_state.md R27). -/
def countBeat (b : Beat) (q : Seq) : Seq :=
  match b.byte with
  | none => q
  | some _ => { q with pos := q.pos + 1 }

/-- One beat: it is counted, and its byte, if it has one, is handed to the command (R6). -/
def beatStep (f : ByteStep) (b : Beat) (q : Seq) : Except FaultCode Seq :=
  match b.byte with
  | none => .ok q
  | some x => f x (countBeat b q)

/-- The beats of a packet, in order, up to and including the `last` one (20_memory.md R58); a fault takes no further beat
(60_exceptions.md R250). -/
def takeBeats (f : ByteStep) : List Beat → Seq → Taken
  | [], q => .waiting q
  | b :: bs, q =>
    match beatStep f b q with
    | .error c => .faulted c (countBeat b q) bs
    | .ok q' => if b.last then .ended q' bs else takeBeats f bs q'

/-- A consuming command with the beats that are there (00_scope.md R7, 70_reset_and_hazards.md R285): it ends by `finish` when
its packet has ended, and waits, still busy, when the host has not sent the `last` beat. -/
def runPacket (c : Consumer) (f : ByteStep) (finish : State → State) (s : State) : State :=
  match takeBeats f s.din s.seq with
  | .waiting q => { s with din := [], seq := q, cur := some c }
  | .ended q rest => finish { s with din := rest, seq := q }
  | .faulted code q rest => takeFault code { s with din := rest, seq := q }

/-! ## Packets out -/

/-- `emit_packet(s)` (00_scope.md section 6): one `DOUT` packet is owed. The phases of R34 are not used. -/
def emitPacket (p : List Byte) (s : State) : State :=
  { s with dout := s.dout ++ packetBeats p, seq := { s.seq with plan := [] } }

/-- One `DOUT` beat of a phase (42_chunk.md R167, 43_container.md R213), with where the sequencer stands while it is offered. -/
def emitByte (m : Mark) (b : Byte) (last : Bool) (s : State) : State :=
  { s with dout := s.dout ++ [⟨some b, last⟩], seq := { s.seq with plan := s.seq.plan ++ [m] } }

/-- `for idx from i: emit bytes[idx]`, with `last = final` on the last one (R167, R213): a field of fixed size. -/
def emitField (ph : Phase) (lenr : Word) (final : Bool) : Nat → List Byte → State → State
  | _, [], s => s
  | i, b :: bs, s => emitField ph lenr final (i + 1) bs (emitByte ⟨ph, i, lenr⟩ b (final && bs.isEmpty) s)

/-- `for i from 0 to c.len - 1: emit c.data[i]`, skipped when the payload is empty (R167). `idx` is not used in `S_PAY`. -/
def emitPayload (lenr : Word) : List Byte → State → State
  | [], s => s
  | b :: bs, s => emitPayload lenr bs (emitByte ⟨.sPay, 0, lenr⟩ b false s)

/-- The sequencer moves to its next place, if it has one (10_state.md R34). `lenr` is loaded with the length of the record that is
emitted; `tagr` stays as it was, in `CH.SER` and in `CT.SER` (10_state.md R29 calls it a latch of parser and framer, 42_chunk.md
R167 and 43_container.md R213 do not load it: DESIGN CHOICE, log 19). -/
def Seq.advance (q : Seq) : Seq :=
  match q.plan with
  | [] => q
  | m :: ms => { q with ph := m.ph, idx := m.idx, lenr := m.lenr, plan := ms }

/-- An output by phases: `emit` lays out its beats, and the sequencer stands at the first of them. -/
def emitPhases (emit : State → State) (s : State) : State :=
  let t := emit { s with seq := { s.seq with plan := [] } }
  { t with seq := t.seq.advance }

/-! ## Output beats move -/

/-- A `DOUT` beat moves (00_scope.md R6), and the sequencer goes on. -/
def moveDout (b : Beat) (bs : List Beat) (s : State) : State :=
  { s with dout := bs, out := s.out ++ [.dout b], doutRoom := s.doutRoom - 1, seq := s.seq.advance }

/-- The `RSP` beat moves and the command has ended (70_reset_and_hazards.md R292): `ERR` and `RES` show it (20_memory.md
R62 (d)), `BUSY` falls unless the block has faulted (10_state.md R26), and `ph` is `IDLE` (R34). -/
def moveRsp (y : Response) (s : State) : State :=
  { s with
    rsp := none
    out := s.out ++ [.rsp y.err y.res]
    rspRoom := s.rspRoom - 1
    err := y.err
    res := y.res
    busy := s.fault.isSome
    seq := { s.seq with ph := .idle, plan := [] } }

end Sys2Proof.Machine
end

