-- ==== Sys2Proof/Machine/CrcUnit.lean ====
section
/-! DEFINITION. The CRC unit (40_crc.md R110 to R114): the register step, the checksum of a byte string, the comparison. The
three parameters come from the configuration (R111). -/

namespace Sys2Proof.Machine

/-- One of the eight inner steps of `crc_byte` (R112): a logical right shift, with the polynomial xored in when the bit shifted
out is 1. -/
def crcShift (poly c : Word) : Word := if c.getLsbD 0 then (c >>> 1) ^^^ poly else c >>> 1

/-- `n` inner steps (R112). -/
def crcShifts (poly : Word) : Nat → Word → Word
  | 0, c => c
  | n + 1, c => crcShifts poly n (crcShift poly c)

/-- `crc_byte(c, b)` (R112): `b` enters at bits 7 to 0, least significant bit first. -/
def crcByte (cfg : Config) (c : Word) (b : Byte) : Word := crcShifts cfg.crcPolyR 8 (c ^^^ b.setWidth 32)

/-- The register after the bytes of `s`, from the value `c` (R113). -/
def crcFold (cfg : Config) (c : Word) (s : List Byte) : Word := s.foldl (crcByte cfg) c

/-- `crc_fin(c)` (R112). -/
def crcFin (cfg : Config) (c : Word) : Word := c ^^^ cfg.crcXorout

/-- `CRC32(s)` (R113). -/
def crc32 (cfg : Config) (s : List Byte) : Word := crcFin cfg (crcFold cfg cfg.crcInit s)

/-- `crc_match(c, crc_x)` (R114): all 32 bits equal. -/
def crcMatch (cfg : Config) (c x : Word) : Bool := crcFin cfg c == x

end Sys2Proof.Machine
end

