-- ==== Sys2Proof/Machine/Chunk.lean ====
section
/-! DEFINITION. The chunk unit (42_chunk.md): the functions of whole byte strings (R161 to R163), the record parser and the
framer per beat (R165 to R167), and the commands (R170 to R178). The commands run the sequencers; the functions say what they
compute (R168). -/

namespace Sys2Proof.Machine

/-! ## The functions -/

/-- `new_chunk(t, d)` (R161). -/
def newChunk (cfg : Config) (t : Tag) (d : List Byte) : Chunk where
  len := BitVec.ofNat 32 d.length
  tag := t
  data := d
  crc := crc32 cfg (t.toList ++ d)

/-- `ser_chunk(c)` (R162): the stored checksum is emitted. -/
def serChunk (c : Chunk) : List Byte := be32Bytes c.len ++ c.tag.toList ++ c.data ++ be32Bytes c.crc

/-- Which of the two errors of a complete record is reported, in the order `ERR_ORDER` gives (R163, 60_exceptions.md R246). -/
def recordError (order : ErrOrder) (badCrc badTag : Bool) : Option ErrCode :=
  match order with
  | .crcFirst =>
    if badCrc then some .checksumMismatch else if badTag then some .invalidTypeTagEncoding else none
  | .tagFirst =>
    if badTag then some .invalidTypeTagEncoding else if badCrc then some .checksumMismatch else none

/-- `parse_record(s, off)` (R163), with `12 + L` over the naturals: an error, or the chunk and the offset just past it. -/
def parseRecord (cfg : Config) (s : List Byte) (off : Nat) : Except ErrCode (Chunk × Nat) :=
  if s.length - off < 4 then .error .truncatedStream
  else
    let len := be32 (slice s off (off + 4))
    if s.length - off < 12 + len.toNat then .error .truncatedStream
    else
      match slice s (off + 4) (off + 8) with
      | [t0, t1, t2, t3] =>
        let t : Tag := ⟨t0, t1, t2, t3⟩
        let d := slice s (off + 8) (off + 8 + len.toNat)
        let cx := be32 (slice s (off + 8 + len.toNat) (off + 12 + len.toNat))
        match recordError cfg.errOrder (crc32 cfg (t.toList ++ d) != cx) (!utf8Ok t.toList) with
        | some e => .error e
        | none => .ok (⟨len, t, d, cx⟩, off + 12 + len.toNat)
      | _ => .error .truncatedStream

/-! ## The record parser, per beat -/

/-- `record_complete()` (R165): the tests on a record that is all there. -/
def recordComplete (cfg : Config) (accept : Chunk → Seq → Except FaultCode Seq) (q : Seq) : Except FaultCode Seq :=
  match recordError cfg.errOrder (!crcMatch cfg q.crcR q.crcX) (!utf8Ok q.tagr.toList) with
  | some e => .ok { q with perr := e, ph := .drain }
  | none => accept ⟨q.lenr, q.tagr, q.stage, q.crcX⟩ q

/-- The arm `LEN` of R165. -/
def lenByte (cfg : Config) (b : Byte) (q : Seq) : Seq :=
  let lenr := shiftIn (if q.idx = 0 then 0 else q.lenr) b
  if q.idx + 1 = 4 then { q with lenr := lenr, ph := .tag, idx := 0, crcR := cfg.crcInit }
  else { q with lenr := lenr, idx := q.idx + 1 }

/-- The arm `TAG` of R165. -/
def tagByte (cfg : Config) (b : Byte) (q : Seq) : Seq :=
  let q1 := { q with tagr := q.tagr.set q.idx b, crcR := crcByte cfg q.crcR b, idx := q.idx + 1 }
  if q1.idx = 4 then
    { q1 with idx := 0, rem := q1.lenr.toNat, stage := [], ph := if q1.lenr = 0 then .crc else .pay }
  else q1

/-- The arm `PAY` of R165: the capacity is tested before the payload grows. -/
def payByte (cfg : Config) (b : Byte) (q : Seq) : Except FaultCode Seq :=
  if q.stage.length = cfg.payloadMax.toNat then .error .capacity
  else
    let q1 := { q with stage := q.stage ++ [b], crcR := crcByte cfg q.crcR b, rem := q.rem - 1 }
    .ok (if q1.rem = 0 then { q1 with ph := .crc, idx := 0 } else q1)

/-- The arm `CRC` of R165. -/
def crcFieldByte (cfg : Config) (accept : Chunk → Seq → Except FaultCode Seq) (b : Byte) (q : Seq) :
    Except FaultCode Seq :=
  let q1 := { q with crcX := shiftIn (if q.idx = 0 then 0 else q.crcX) b, idx := q.idx + 1 }
  if q1.idx = 4 then recordComplete cfg accept q1 else .ok q1

/-- The record parser for a beat that carries the byte `b` (R165). In `DRAIN` the byte is dropped; the other phases are not the
parser's and change nothing. -/
def recordByte (cfg : Config) (accept : Chunk → Seq → Except FaultCode Seq) : ByteStep := fun b q =>
  match q.ph with
  | .len => .ok (lenByte cfg b q)
  | .tag => .ok (tagByte cfg b q)
  | .pay => payByte cfg b q
  | .crc => crcFieldByte cfg accept b q
  | .drain => .ok q
  | .idle => .ok q
  | .hdr => .ok q
  | .sMagic => .ok q
  | .sLen => .ok q
  | .sTag => .ok q
  | .sPay => .ok q
  | .sCrc => .ok q

/-! ## The framer, per beat -/

/-- The four phases of the framer (R167); `final` says whether this record ends the packet. `lenr` holds the length being
emitted (10_state.md R29); `tagr` is not loaded: the tag bytes are selected from the chunk (DESIGN CHOICE, log 19). The CRC unit is
idle. -/
def emitRecord (final : Bool) (c : Chunk) (s : State) : State :=
  let s1 := emitField .sLen c.len false 0 (be32Bytes c.len) s
  let s2 := emitField .sTag c.len false 0 c.tag.toList s1
  let s3 := emitPayload c.len c.data s2
  emitField .sCrc c.len final 0 (be32Bytes c.crc) s3

/-! ## The commands -/

/-- One payload byte of `CH.NEW` (R170): a byte past `PAYLOAD_MAX` faults. -/
def chNewByte (cfg : Config) : ByteStep := fun b q =>
  if q.stage.length = cfg.payloadMax.toNat then .error .capacity
  else .ok { q with stage := q.stage ++ [b], crcR := crcByte cfg q.crcR b }

/-- The end of the packet of `CH.NEW` (R170): `CK.crc <- crc_fin(crc_r)`, `CK.len <- |d|`. -/
def chNewDone (t : Tag) (s : State) : State :=
  respond .ok 0
    { s with ck := some ⟨BitVec.ofNat 32 s.seq.stage.length, t, s.seq.stage, crcFin s.cfg s.seq.crcR⟩ }

/-- `CH.NEW` from where it stands. -/
def chNewRun (t : Tag) (s : State) : State := runPacket (.chNew t) (chNewByte s.cfg) (chNewDone t) s

/-- `CH.NEW` (R170): the checks of R169 come before any beat; the tag bytes are fed to the CRC unit first. -/
def execChNew (s : State) : Out :=
  .next (needFour (cmdTaken s) fun t =>
    chNewRun t { cmdTaken s with
      seq := { s.seq with pos := 0, stage := [], crcR := crcFold s.cfg s.cfg.crcInit t.toList } })

/-- `CH.LEN` (R171). -/
def execChLen (s : State) : Out := .next (needChunk (cmdTaken s) fun c => respond .ok c.len (cmdTaken s))

/-- `CH.TYPE` (R172): the tag in `RES` and as a TypeTag in `TT`. -/
def execChType (s : State) : Out :=
  .next (needChunk (cmdTaken s) fun c =>
    respond .ok c.tag.toWord { cmdTaken s with tt := some (.len4 c.tag) })

/-- `CH.DATA` (R173). -/
def execChData (s : State) : Out :=
  .next (needChunk (cmdTaken s) fun c => respond .ok 0 (emitPacket c.data (cmdTaken s)))

/-- `CH.CRC` (R174): the CRC unit runs over the tag and the payload; `CK.crc` is not read. -/
def execChCrc (s : State) : Out :=
  .next (needChunk (cmdTaken s) fun c =>
    let r := crcFold s.cfg s.cfg.crcInit (c.tag.toList ++ c.data)
    respond .ok (crcFin s.cfg r) { cmdTaken s with seq := { s.seq with crcR := r } })

/-- `CH.STR` (R176): the whole payload is tested (R175) before the first byte is emitted. -/
def execChStr (s : State) : Out :=
  .next (needChunk (cmdTaken s) fun c =>
    if utf8Ok c.data then respond .ok 0 (emitPacket c.data (cmdTaken s))
    else raiseError .payloadNotText (cmdTaken s))

/-- `CH.SER` (R177), by the framer with `final = 1`. -/
def execChSer (s : State) : Out :=
  .next (needChunk (cmdTaken s) fun c => respond .ok 0 (emitPhases (emitRecord true c) (cmdTaken s)))

/-- `accept` of `CH.DES` (R165, R166): the latches keep the value, and what follows in the packet is dropped. -/
def chDesAccept (_ : Chunk) (q : Seq) : Except FaultCode Seq := .ok { q with ph := .drain }

/-- The sequencer registers when `CH.DES` starts (R166). -/
def chDesStart (q : Seq) : Seq := { q with ph := .len, idx := 0, perr := .ok, pos := 0 }

/-- What the sequencer registers say when the packet of `CH.DES` has ended (R166). -/
def chDesResult (q : Seq) : Except ErrCode Chunk :=
  if q.ph = .drain then
    if q.perr = .ok then .ok ⟨q.lenr, q.tagr, q.stage, q.crcX⟩ else .error q.perr
  else .error .truncatedStream

/-- The end of the packet of `CH.DES` (R166, R178). -/
def chDesDone (s : State) : State :=
  match chDesResult s.seq with
  | .error e => raiseError e s
  | .ok c => respond .ok 0 { s with ck := some c }

/-- `CH.DES` from where it stands. -/
def chDesRun (s : State) : State := runPacket .chDes (recordByte s.cfg chDesAccept) chDesDone s

/-- `CH.DES` (R178, R166). -/
def execChDes (s : State) : Out :=
  .next (chDesRun { cmdTaken s with seq := chDesStart s.seq })

end Sys2Proof.Machine
end

