-- ==== Sys2Proof/Machine/TypeTag.lean ====
section
/-! DEFINITION. The commands of the TypeTag unit (41_typetag.md R135 to R143). -/

namespace Sys2Proof.Machine

/-- One byte of a text packet: `TT.PARSE`, `CT.REMOVE`, `CT.FIND` (log 7). -/
def textFeed : ByteStep := fun b q => .ok { q with txt := q.txt.push b }

/-- The end of the packet of `TT.PARSE` (R135): all of `TT` is written, with no test of any kind. -/
def ttParseDone (s : State) : State := respond .ok 0 { s with tt := some s.seq.txt }

/-- `TT.PARSE` from where it stands. -/
def ttParseRun (s : State) : State := runPacket .ttParse textFeed ttParseDone s

/-- `TT.PARSE` (R135). -/
def execTtParse (s : State) : Out :=
  .next (ttParseRun { cmdTaken s with seq := { s.seq with pos := 0, txt := .len0 } })

/-- `TT.PARSEB` (R136): four raw bytes, which must be well-formed text. -/
def execTtParseb (tag : Tag) (s : State) : Out :=
  .next (if utf8Ok tag.toList then respond .ok 0 { cmdTaken s with tt := some (.len4 tag) }
    else raiseError .invalidTypeTagEncoding (cmdTaken s))

/-- `TT.BYTES` (R137). -/
def execTtBytes (s : State) : Out :=
  .next (needFour (cmdTaken s) fun t => respond .ok t.toWord (cmdTaken s))

/-- `TT.VALID` (R138): `TT.n` may be anything. -/
def execTtValid (s : State) : Out :=
  .next (needTag (cmdTaken s) fun x => respond .ok (truth (tagValid x)) (cmdTaken s))

/-- A command that delivers one flag of the four tag bytes in `RES` (R144). -/
def answerFlag (flag : Tag → Bool) (s : State) : State :=
  needFour (cmdTaken s) fun t => respond .ok (truth (flag t)) (cmdTaken s)

/-- `TT.CRIT` (R139). -/
def execTtCrit (s : State) : Out := .next (answerFlag critical s)

/-- `TT.PUB` (R140). -/
def execTtPub (s : State) : Out := .next (answerFlag publicFlag s)

/-- `TT.RSVD` (R141): a result, not an error, in both cases. -/
def execTtRsvd (s : State) : Out := .next (answerFlag (reservedOk s.cfg.rsvdExpect) s)

/-- `TT.SAFE` (R142). -/
def execTtSafe (s : State) : Out := .next (answerFlag safeToCopy s)

/-- `TT.DISP` (R143): the four bytes as one `DOUT` packet. -/
def execTtDisp (s : State) : Out :=
  .next (needFour (cmdTaken s) fun t => respond .ok 0 (emitPacket t.toList (cmdTaken s)))

end Sys2Proof.Machine
end

