-- ==== Sys2Proof/Machine/Container.lean ====
section
/-! DEFINITION. The container unit (43_container.md): the functions (R201, R202, R210), the header validator, the parse loop and
the serialization multiplexer per beat (R211 to R213), and the commands (R203 to R209). -/

namespace Sys2Proof.Machine

/-! ## The functions -/

/-- `ct_ser(l)` (R201). -/
def ctSer (cfg : Config) (l : List Chunk) : List Byte := cfg.magic.toList ++ l.flatMap serChunk

/-- The loop of `ct_des` (R202). It ends because `off` grows by at least 12 on each pass; the first argument bounds the passes,
and `|s|` of them are always enough. -/
def ctDesLoop (cfg : Config) (s : List Byte) : Nat → Nat → List Chunk → Except ErrCode (List Chunk)
  | 0, _, acc => .ok acc
  | passes + 1, off, acc =>
    if off < s.length then
      match parseRecord cfg s off with
      | .error e => .error e
      | .ok (c, off') => ctDesLoop cfg s passes off' (acc ++ [c])
    else .ok acc

/-- `ct_des(s)` (R202). -/
def ctDes (cfg : Config) (s : List Byte) : Except ErrCode (List Chunk) :=
  if s.length < 8 ∨ slice s 0 8 ≠ cfg.magic.toList then .error .malformedHeader
  else ctDesLoop cfg s s.length 8 []

/-- `tag_matches(c, x)` (R210) for the text `x` of a packet: byte for byte, and only a text of length 4. -/
def tagMatches (c : Chunk) (x : List Byte) : Bool := x == c.tag.toList

/-- `tag_matches` on what the text latch keeps of the packet (R210, log 7). -/
def latchMatches (x : TypeTag) (c : Chunk) : Bool := x == .len4 c.tag

/-- `first_match(l, x)` (R210) on the text latch: the least index that matches. -/
def firstMatch (x : TypeTag) (l : List Chunk) : Option Nat := l.findIdx? (latchMatches x)

/-! ## The sequencers -/

/-- The header validator for a byte `b` while `ph = HDR` (R211). -/
def headerByte (cfg : Config) (b : Byte) (q : Seq) : Seq :=
  if cfg.magic.toList[q.idx]? = some b then
    if q.idx + 1 = 8 then { q with ph := .len, idx := 0 } else { q with idx := q.idx + 1 }
  else { q with perr := .malformedHeader, ph := .drain }

/-- `accept(c)` of the container parse loop (R212): the capacity is tested before the shadow list grows. -/
def ctDesAccept (cfg : Config) (c : Chunk) (q : Seq) : Except FaultCode Seq :=
  if q.sl.length = cfg.chunksMax.toNat then .error .capacity
  else .ok { q with sl := q.sl ++ [c], ph := .len, idx := 0 }

/-- One byte of the packet of `CT.DES` (R211, R212). -/
def ctDesByte (cfg : Config) : ByteStep := fun b q =>
  if q.ph = .hdr then .ok (headerByte cfg b q) else recordByte cfg (ctDesAccept cfg) b q

/-- The records of a list, the last one ending the packet (R213). -/
def emitRecords : List Chunk → State → State
  | [], s => s
  | c :: cs, s => emitRecords cs (emitRecord cs.isEmpty c s)

/-- The serialization multiplexer (R213): the ROM, then each chunk's record. -/
def emitContainer (l : List Chunk) (s : State) : State :=
  emitRecords l (emitField .sMagic s.seq.lenr l.isEmpty 0 s.cfg.magic.toList s)

/-! ## The commands -/

/-- `CT.FROM` (R203): the container of the empty list. -/
def execCtFrom (s : State) : Out := .next (respond .ok 0 { cmdTaken s with cl := some [] })

/-- `CT.APPEND` (R204): the chunk moves from `CK` to the end of the list. -/
def execCtAppend (s : State) : Out :=
  .next (needList (cmdTaken s) fun l =>
    needChunk (cmdTaken s) fun c =>
      if l.length = s.cfg.chunksMax.toNat then takeFault .capacity (cmdTaken s)
      else respond .ok 0 { cmdTaken s with cl := some (l ++ [c]), ck := none })

/-- The end of the packet of `CT.REMOVE` (R205). -/
def ctRemoveDone (s : State) : State :=
  needList s fun l =>
    match firstMatch s.seq.txt l with
    | none => raiseError .notFound s
    | some k => respond .ok 0 { s with ck := l[k]?, cl := some (l.take k ++ l.drop (k + 1)) }

/-- `CT.REMOVE` from where it stands. -/
def ctRemoveRun (s : State) : State := runPacket .ctRemove textFeed ctRemoveDone s

/-- `CT.REMOVE` (R205): the check of R219 comes before any beat. -/
def execCtRemove (s : State) : Out :=
  .next (needList (cmdTaken s) fun _ =>
    ctRemoveRun { cmdTaken s with seq := { s.seq with pos := 0, txt := .len0 } })

/-- The end of the packet of `CT.FIND` (R206): absence is no error. -/
def ctFindDone (s : State) : State :=
  needList s fun l =>
    match firstMatch s.seq.txt l with
    | none => respond .ok 0 s
    | some k => respond .ok 1 { s with ck := l[k]? }

/-- `CT.FIND` from where it stands. -/
def ctFindRun (s : State) : State := runPacket .ctFind textFeed ctFindDone s

/-- `CT.FIND` (R206): the check of R219 comes before any beat. -/
def execCtFind (s : State) : Out :=
  .next (needList (cmdTaken s) fun _ =>
    ctFindRun { cmdTaken s with seq := { s.seq with pos := 0, txt := .len0 } })

/-- `CT.CHUNKS` (R207): `RES` is the number of chunks in both cases. -/
def execCtChunks (index : Nat) (s : State) : Out :=
  .next (needList (cmdTaken s) fun l =>
    if index < l.length then
      respond .ok (BitVec.ofNat 32 l.length) { cmdTaken s with ck := l[index]? }
    else respond .noSuchIndex (BitVec.ofNat 32 l.length) (cmdTaken s))

/-- `CT.SER` (R208), by the multiplexer. -/
def execCtSer (s : State) : Out :=
  .next (needList (cmdTaken s) fun l => respond .ok 0 (emitPhases (emitContainer l) (cmdTaken s)))

/-- The sequencer registers when `CT.DES` starts (R211). -/
def ctDesStart (q : Seq) : Seq := { q with ph := .hdr, idx := 0, perr := .ok, sl := [], pos := 0 }

/-- What the sequencer registers say when the packet of `CT.DES` has ended (R212). -/
def ctDesResult (q : Seq) : Except ErrCode (List Chunk) :=
  if q.ph = .hdr then .error .malformedHeader
  else if q.ph = .drain then .error q.perr
  else if q.ph = .len ∧ q.idx = 0 then .ok q.sl
  else .error .truncatedStream

/-- The end of the packet of `CT.DES` (R209): all or nothing (R218). -/
def ctDesDone (s : State) : State :=
  match ctDesResult s.seq with
  | .error e => raiseError e s
  | .ok l => respond .ok 0 { s with cl := some l }

/-- `CT.DES` from where it stands. -/
def ctDesRun (s : State) : State := runPacket .ctDes (ctDesByte s.cfg) ctDesDone s

/-- `CT.DES` (R209, R211). -/
def execCtDes (s : State) : Out :=
  .next (ctDesRun { cmdTaken s with seq := ctDesStart s.seq })

end Sys2Proof.Machine
end

