-- ==== Sys2Proof/Machine/Crc.lean ====
section
/-! DEFINITION. The commands of the CRC unit (40_crc.md R117, R118). The register `crc_r` is fed as the bytes go by (R113). -/

namespace Sys2Proof.Machine

/-- One byte of the packet of `CRC.GEN` and `CRC.VFY` (R113). -/
def crcFeed (cfg : Config) : ByteStep := fun b q => .ok { q with crcR := crcByte cfg q.crcR b }

/-- The end of the packet of `CRC.GEN` (R117). -/
def crcGenDone (s : State) : State := respond .ok (crcFin s.cfg s.seq.crcR) s

/-- `CRC.GEN` from where it stands. -/
def crcGenRun (s : State) : State := runPacket .crcGen (crcFeed s.cfg) crcGenDone s

/-- `CRC.GEN` (R117). -/
def execCrcGen (s : State) : Out :=
  .next (crcGenRun { cmdTaken s with seq := { s.seq with pos := 0, crcR := s.cfg.crcInit } })

/-- The end of the packet of `CRC.VFY` (R118): `crc_x` takes `arg`, and `RES` holds the computed value in both cases. -/
def crcVfyDone (expected : Word) (s : State) : State :=
  respond (if crcMatch s.cfg s.seq.crcR expected then .ok else .checksumMismatch) (crcFin s.cfg s.seq.crcR)
    { s with seq := { s.seq with crcX := expected } }

/-- `CRC.VFY` from where it stands. -/
def crcVfyRun (expected : Word) (s : State) : State :=
  runPacket (.crcVfy expected) (crcFeed s.cfg) (crcVfyDone expected) s

/-- `CRC.VFY` (R118). -/
def execCrcVfy (expected : Word) (s : State) : Out :=
  .next (crcVfyRun expected { cmdTaken s with seq := { s.seq with pos := 0, crcR := s.cfg.crcInit } })

end Sys2Proof.Machine
end

