-- ==== Sys2Proof/Machine/Dispatch.lean ====
section
/-! DEFINITION. The meaning of every command, one arm per constructor (30_encoding.md R92). -/

namespace Sys2Proof.Machine

def exec (i : Instr) (s : State) : Host.Outcome State Fault Refusal :=
  match i with
  | .crcGen => Sys2Proof.Machine.execCrcGen s
  | .crcVfy expected => Sys2Proof.Machine.execCrcVfy expected s
  | .ttParse => Sys2Proof.Machine.execTtParse s
  | .ttParseb tag => Sys2Proof.Machine.execTtParseb tag s
  | .ttBytes => Sys2Proof.Machine.execTtBytes s
  | .ttValid => Sys2Proof.Machine.execTtValid s
  | .ttCrit => Sys2Proof.Machine.execTtCrit s
  | .ttPub => Sys2Proof.Machine.execTtPub s
  | .ttRsvd => Sys2Proof.Machine.execTtRsvd s
  | .ttSafe => Sys2Proof.Machine.execTtSafe s
  | .ttDisp => Sys2Proof.Machine.execTtDisp s
  | .chNew => Sys2Proof.Machine.execChNew s
  | .chLen => Sys2Proof.Machine.execChLen s
  | .chType => Sys2Proof.Machine.execChType s
  | .chData => Sys2Proof.Machine.execChData s
  | .chCrc => Sys2Proof.Machine.execChCrc s
  | .chStr => Sys2Proof.Machine.execChStr s
  | .chSer => Sys2Proof.Machine.execChSer s
  | .chDes => Sys2Proof.Machine.execChDes s
  | .ctFrom => Sys2Proof.Machine.execCtFrom s
  | .ctAppend => Sys2Proof.Machine.execCtAppend s
  | .ctRemove => Sys2Proof.Machine.execCtRemove s
  | .ctFind => Sys2Proof.Machine.execCtFind s
  | .ctChunks index => Sys2Proof.Machine.execCtChunks index s
  | .ctSer => Sys2Proof.Machine.execCtSer s
  | .ctDes => Sys2Proof.Machine.execCtDes s

end Sys2Proof.Machine
end

