-- ==== Sys2Proof/Machine/Resume.lean ====
section
/-! DEFINITION. The other moves of the codec than starting a command: going on with a command that waited for the rest of its
packet, and taking an illegal command word. -/

namespace Sys2Proof.Machine

/-- The command in progress takes the `DIN` beats that have come since (00_scope.md R7, 70_reset_and_hazards.md R284, R285). -/
def resume (c : Consumer) (s : State) : State :=
  match c with
  | .crcGen => crcGenRun s
  | .crcVfy expected => crcVfyRun expected s
  | .ttParse => ttParseRun s
  | .chNew tag => chNewRun tag s
  | .chDes => chDesRun s
  | .ctRemove => ctRemoveRun s
  | .ctFind => ctFindRun s
  | .ctDes => ctDesRun s

/-- A `CMD` beat with an illegal word (30_encoding.md R93): `F_ILLEGAL`, and nothing is executed. -/
def illegalWord (s : State) : State := takeFault .illegal (cmdTaken s)

/-- With no output beat owed: a command in progress takes the beats that are there; after a fault there is no move
(60_exceptions.md R250); else the next command word is taken and its command runs (00_scope.md R7). `run` is the meaning of a
command. -/
def inputStep (run : Instr → State → Out) (s : State) : Out :=
  match s.cur with
  | some c =>
    match s.din with
    | [] => .fault .waitingForDin
    | _ :: _ => .next (resume c s)
  | none =>
    if s.busy then .fault .halted
    else
      match s.cmd with
      | [] => .fault .waitingForCmd
      | w :: rest =>
        match decode w with
        | .ok i => run i { s with cmd := rest }
        | .error _ => .next (illegalWord { s with cmd := rest })

/-- One move of the codec. A beat that is owed goes first, the `DOUT` packet before the `RSP` beat (20_memory.md R62 (c)), and
moves only when the host is willing (00_scope.md R6). -/
def codecStep (run : Instr → State → Out) (s : State) : Out :=
  match s.dout with
  | b :: bs => if s.doutRoom = 0 then .fault .waitingForDout else .next (moveDout b bs s)
  | [] =>
    match s.rsp with
    | some y => if s.rspRoom = 0 then .fault .waitingForRsp else .next (moveRsp y s)
    | none => inputStep run s

end Sys2Proof.Machine
end

