-- ==== Sys2Proof/Machine/Step.lean ====
section
/-! DEFINITION. One step of PCC, and the host's act of handing it a command word. PCC fetches nothing (10_state.md R27): its
next command is the first word on `CMD`. -/

namespace Sys2Proof.Machine

/-- One step: `codecStep` with the meanings of Machine/Dispatch.lean. -/
def step (s : State) : Host.Outcome State Fault Refusal := codecStep exec s

/-- The word `w` as the first `CMD` beat, so that the next step of an idle PCC runs it (log 15). -/
def State.withFetchWord (s : State) (nbits w : Nat) : State :=
  { s with cmd := tableWord nbits w :: s.cmd }

end Sys2Proof.Machine
end

