-- ==== Sys2Proof/Machine/Capacity.lean ====
section
/-! DEFINITION. When a packet passes a capacity (42_chunk.md R165, 43_container.md R212, 60_exceptions.md R246 point (5)), as
functions of the bytes that are there. -/

namespace Sys2Proof.Machine

/-- The bytes of the beats on `DIN` that belong to the first packet: up to and including the first `last` beat, or all of them
when that beat has not come. -/
def availBytes : List Beat → List Byte
  | [] => []
  | b :: bs => if b.last then b.bytes else b.bytes ++ availBytes bs

/-- The record of `s` that starts at `off` has a payload byte numbered `PAYLOAD_MAX + 1`, and that byte is there: the beat at
which `F_CAPACITY` is raised (R165, R246). -/
def recordOver (cfg : Config) (s : List Byte) (off : Nat) : Bool :=
  decide (8 + cfg.payloadMax.toNat < s.length - off ∧ cfg.payloadMax.toNat < (be32 (slice s off (off + 4))).toNat)

/-- The loop of `ct_des` (R202) passes a capacity: a payload in the record at `off`, or the list with one more record (R212).
An earlier error ends it without a fault (R246). -/
def loopOver (cfg : Config) (s : List Byte) : Nat → Nat → Nat → Bool
  | 0, _, _ => false
  | passes + 1, off, count =>
    decide (off < s.length) &&
      (recordOver cfg s off ||
        match parseRecord cfg s off with
        | .error _ => false
        | .ok (_, off') => decide (count = cfg.chunksMax.toNat) || loopOver cfg s passes off' (count + 1))

/-- `CT.DES` passes a capacity on the bytes `s`; a bad or short header comes first (R246). -/
def containerOver (cfg : Config) (s : List Byte) : Bool :=
  decide (8 ≤ s.length ∧ slice s 0 8 = cfg.magic.toList) && loopOver cfg s s.length 8 0

end Sys2Proof.Machine
end

