-- ==== Sys2Proof/Machine/HostPort.lean ====
section
/-! DEFINITION. What the host does at the ports (00_scope.md R6): sending command words and packets, taking output
beats, reading `CSR`; and reading one byte of a memory space (20_memory.md R50). -/

namespace Sys2Proof.Machine

/-! ## Sending -/

/-- The host sends one command word (R7). -/
def sendCmd (w : CmdWord) (s : State) : State := { s with cmd := s.cmd ++ [w] }

/-- The host sends beats on `DIN` (R284). -/
def sendBeats (bs : List Beat) (s : State) : State := { s with din := s.din ++ bs }

/-- A command with the packet the host sends for it, if it takes one (30_encoding.md R95, 70_reset_and_hazards.md R284). -/
structure Issue where
  instr : Instr
  packet : Option (List Byte)
  deriving DecidableEq, Repr

/-- The host issues commands in order, each with its packet. -/
def issue : List Issue → State → State
  | [], s => s
  | x :: xs, s =>
    issue xs (sendBeats (match x.packet with
      | none => []
      | some p => packetBeats p) (sendCmd (encode x.instr) s))

/-- The pseudo-instruction `CH.MAKE` (30_encoding.md R96). -/
def chMake (t : Tag) (p : List Byte) : List Issue := [⟨.ttParseb t, none⟩, ⟨.chNew, some p⟩]

/-- The pseudo-instruction `CT.FROMLIST` (30_encoding.md R96). -/
def ctFromList (l : List (Tag × List Byte)) : List Issue :=
  ⟨.ctFrom, none⟩ :: l.flatMap fun x => chMake x.1 x.2 ++ [⟨.ctAppend, none⟩]

/-- The host is willing to take that many more beats on `DOUT` and on `RSP` (R285; log 8). -/
def willTake (dout rsp : Nat) (s : State) : State :=
  { s with doutRoom := s.doutRoom + dout, rspRoom := s.rspRoom + rsp }

/-! ## Reading -/

/-- Does every end of the packet of a command that waits write `TT`? Only `TT.PARSE` does, which cannot fail (41_typetag.md
R135). -/
def surelyWritesTT : Consumer → Bool
  | .ttParse => true
  | .crcGen => false
  | .crcVfy _ => false
  | .chNew _ => false
  | .chDes => false
  | .ctRemove => false
  | .ctFind => false
  | .ctDes => false

/-- Does every end of the packet of a command that waits write `CK`? Only that of a `CH.DES` that has accepted its record
(42_chunk.md R166): any other can still end in an error, in a fault, or without a match. None surely writes `CL`. -/
def surelyWritesCK (q : Seq) : Consumer → Bool
  | .chDes => q.ph = .drain && q.perr = .ok
  | .crcGen => false
  | .crcVfy _ => false
  | .ttParse => false
  | .chNew _ => false
  | .ctRemove => false
  | .ctFind => false
  | .ctDes => false

/-- A bit of `STATUS` that goes from `old` to `new` at a free point of the command in progress (20_memory.md R62 (d), U21). -/
def changing (s : State) (reading bit : Nat) (old new : Bool) : Bool :=
  if Config.statusPoint s.issued bit ≤ reading then new else old

/-- `STATUS` as the `reading`-th read since the command in progress was taken sees it (20_memory.md R62 (d), U21; log 12). While
output is owed, the bits are between those before the command and those after it. While a command waits for its packet, a bit
can show a new value only when the beats taken have settled that the command will write it (DEDUCED, log 21). -/
def statusRead (reading : Nat) (s : State) : Byte :=
  match s.rsp with
  | some _ =>
    statusWith s
      (changing s reading 1 s.was.ttw s.tt.isSome)
      (changing s reading 2 s.was.ckv s.ck.isSome)
      (changing s reading 3 s.was.clv s.cl.isSome)
  | none =>
    match s.cur with
    | none => statusByte s
    | some c =>
      statusWith s
        (changing s reading 1 s.tt.isSome (s.tt.isSome || surelyWritesTT c))
        (changing s reading 2 s.ck.isSome (s.ck.isSome || surelyWritesCK s.seq c))
        s.cl.isSome

/-- A read of the `CSR` port (10_state.md R26): no side effect, at any time; numbers 4 to 7 read as 0. The widths are DESIGN
CHOICE (log 20): R26 has the numbers 0 to 7, so a number is 3 bits; the value is 32 bits, the width of the widest register, and
the 8-bit registers `STATUS`, `ERR`, `FAULT` are widened with zeros. `reading` counts the reads since the command in progress was
taken and matters only to `STATUS` while `BUSY` is 1. -/
def csrRead (reading : Nat) (number : BitVec 3) (s : State) : Word :=
  match number.toNat with
  | 0 => (statusRead reading s).setWidth 32
  | 1 => s.err.code.setWidth 32
  | 2 => s.res
  | 3 =>
    match s.fault with
    | none => 0
    | some c => c.code.setWidth 32
  | _ => 0

/-- The byte spaces that are not streams (20_memory.md R50). -/
inductive Space
  | rom
  | pb
  deriving DecidableEq, Repr

/-- `MemRead(space, addr, 1)` (R50 to R52), or none at an address that holds no value: `PB` at and above `CK.len`, or any
address of `PB` while `CK.v = 0`. -/
def memRead (space : Space) (addr : Nat) (s : State) : Option Byte :=
  match space with
  | .rom => s.cfg.magic.toList[addr]?
  | .pb =>
    match s.ck with
    | none => none
    | some c => c.data[addr]?

/-- `PB` as cells of address and byte, lowest address first (R52). -/
def pbCells (s : State) : List Host.Cell :=
  match s.ck with
  | none => []
  | some c => (List.range c.data.length).zip c.data

/-- The canonical form of a list of cells: addresses strictly rising. -/
def Memory.wf (m : List Host.Cell) : Bool := decide (m.Pairwise fun x y => x.1 < y.1)

end Sys2Proof.Machine
end

