-- ==== Sys2Proof/Safety.lean ====
section
/-! DEFINITION. The terms in which claims are stated: how a command ends, the invariant of the machine, and what a safe run is
(70_reset_and_hazards.md R292). The ends of a command are written out field by field here, apart from the operations of
Machine/Ops.lean that the meanings use. -/

namespace Sys2Proof.Machine

/-! ## The ends of a command -/

/-- `s` once the `CMD` beat of a command has moved (10_state.md R26): `BUSY` is 1; the bits of the object registers as they are
now are kept for the reads of `STATUS`, and the command is counted (log 12). -/
def State.taken (s : State) : State :=
  { s with
    busy := true
    was := ⟨s.tt.isSome, s.ck.isSome, s.cl.isSome⟩
    issued := s.issued + 1 }

/-- `s` after a command has done its work: the response `(e, r)` and, where it emits one, the packet `p` are owed (00_scope.md
R6, R7). `ERR`, `RES` and `BUSY` show it only when the `RSP` beat has moved (20_memory.md R62 (d); `State.delivered`). -/
def State.replying (s : State) (q : Seq) (e : ErrCode) (r : Word) (p : Option (List Byte)) : State :=
  { s with
    seq := q
    cur := none
    dout := match p with
      | none => s.dout
      | some bytes => s.dout ++ packetBeats bytes
    rsp := some ⟨e, r⟩ }

/-- `s` after a command that faulted with the code `c` (60_exceptions.md R250): the beat `(0xFF, code)` is owed. -/
def State.haltedBy (s : State) (q : Seq) (c : FaultCode) : State :=
  { s with
    flt := true
    fault := match s.fault with
      | none => some c
      | some d => some d
    seq := q
    cur := none
    rsp := some ⟨.faulted, BitVec.ofNat 32 c.code.toNat⟩ }

/-- `s` with the command `c` waiting for the rest of its packet, all the beats there taken (70_reset_and_hazards.md R285). -/
def State.awaiting (s : State) (q : Seq) (c : Consumer) : State :=
  { s with din := [], seq := q, cur := some c }

/-- `s` once the host has taken every output beat that was owed, the `RSP` beat `y` the last (20_memory.md R62): the command has
ended (70_reset_and_hazards.md R292). `BUSY` falls unless the block has faulted (10_state.md R26). -/
def State.delivered (s : State) (q : Seq) (y : Response) : State :=
  { s with
    busy := s.fault.isSome
    err := y.err
    res := y.res
    seq := { q with ph := .idle }
    dout := []
    rsp := none
    out := s.out ++ s.dout.map .dout ++ [.rsp y.err y.res]
    doutRoom := s.doutRoom - s.dout.length
    rspRoom := s.rspRoom - 1 }

/-- The response that `s` owes has the error code `e`. -/
def State.Answers (s : State) (e : ErrCode) : Prop := ∃ y, s.rsp = some y ∧ y.err = e

/-- PCC can take a `CMD` beat (00_scope.md R7): no command in progress, no output owed, `BUSY = 0`. -/
structure State.Idle (s : State) : Prop where
  cur_eq : s.cur = none
  dout_eq : s.dout = []
  rsp_eq : s.rsp = none
  busy_eq : s.busy = false

/-- The command `i` has the word `op`, `arg = 0`, and the same `op` with another `arg` is illegal (30_encoding.md R92, R93). -/
def HasOpcode (i : Instr) (op : Byte) : Prop :=
  encode i = op ++ 0#32 ∧ decode (op ++ 0#32) = .ok i ∧
    ∀ arg : Word, arg ≠ 0 → decode (op ++ arg) = .error (.argNotZero op arg)

/-! ## The checksum -/

/-- What the verifier guarantees (40_crc.md R116): two byte strings of equal length that differ in exactly one bit have different
checksums. It is no axiom here: Laws/CrcStep.lean proves from R112 what it follows from. -/
def DetectsSingleBit (cfg : Config) : Prop :=
  ∀ (a b : List Byte) (x : Byte) (bit : Nat), bit < 8 →
    crc32 cfg (a ++ (x ^^^ BitVec.twoPow 8 bit) :: b) ≠ crc32 cfg (a ++ x :: b)

/-! ## The sequencers compute the functions -/

/-- 42_chunk.md R168: the sequencers of `CH.DES` and `CH.SER` compute the functions. R165 and R166 over the beats of a packet `s`
fault, which they do exactly when a capacity is passed, or end with what `parse_record(s, 0)` gives; the framer (R167) emits
`ser_chunk(c)` as one packet. No axiom: Laws/Sequencers.lean proves it (`chunkSequencers_compute`). -/
structure ChunkSequencersCompute (cfg : Config) : Prop where
  parser : ∀ (beats : List Beat) (s : List Byte) (rest : List Beat) (q : Seq), firstPacket beats = some (s, rest) →
    match takeBeats (recordByte cfg chDesAccept) beats (chDesStart q) with
    | .waiting _ => False
    | .ended q' rest' =>
      recordOver cfg s 0 = false ∧ rest' = rest ∧ chDesResult q' = (parseRecord cfg s 0).map Prod.fst
    | .faulted code _ _ => recordOver cfg s 0 = true ∧ code = .capacity
  framer : ∀ (c : Chunk) (t : State), t.cfg = cfg →
    (emitPhases (emitRecord true c) t).dout = t.dout ++ packetBeats (serChunk c)

/-- 43_container.md R214: the sequencers of `CT.DES` and `CT.SER` compute the functions. The header validator and the parse loop
(R211, R212) over the beats of a packet `s` fault, which they do exactly when a capacity is passed, or end with the result of
`ct_des(s)`; the multiplexer (R213) emits `ct_ser(l)` as one packet. No axiom: Laws/Sequencers.lean proves it
(`containerSequencers_compute`). -/
structure ContainerSequencersCompute (cfg : Config) : Prop where
  parser : ∀ (beats : List Beat) (s : List Byte) (rest : List Beat) (q : Seq), firstPacket beats = some (s, rest) →
    match takeBeats (ctDesByte cfg) beats (ctDesStart q) with
    | .waiting _ => False
    | .ended q' rest' => containerOver cfg s = false ∧ rest' = rest ∧ ctDesResult q' = ctDes cfg s
    | .faulted code _ _ => containerOver cfg s = true ∧ code = .capacity
  multiplexer : ∀ (l : List Chunk) (t : State), t.cfg = cfg →
    (emitPhases (emitContainer l) t).dout = t.dout ++ packetBeats (ctSer cfg l)

/-! ## The invariant -/

/-- The chunk invariant (10_state.md R23) and the bound of `CK.data` (R22). -/
def Chunk.Valid (cfg : Config) (c : Chunk) : Prop :=
  c.len.toNat = c.data.length ∧ c.crc = crc32 cfg (c.tag.toList ++ c.data) ∧ c.data.length ≤ cfg.payloadMax.toNat

/-- A list of chunk values as `CL.list` and `SL` hold them (R23, R24). -/
def ListValid (cfg : Config) (l : List Chunk) : Prop :=
  l.length ≤ cfg.chunksMax.toNat ∧ ∀ c ∈ l, c.Valid cfg

/-- The sequencer inside a record (42_chunk.md R165): what the latches hold in each phase. -/
def Seq.InRecord (cfg : Config) (q : Seq) : Prop :=
  match q.ph with
  | .len => q.idx < 4
  | .tag => q.idx < 4 ∧ q.crcR = crcFold cfg cfg.crcInit (q.tagr.toList.take q.idx)
  | .pay =>
    q.stage.length + q.rem = q.lenr.toNat ∧ 0 < q.rem ∧ q.stage.length ≤ cfg.payloadMax.toNat ∧
      q.crcR = crcFold cfg cfg.crcInit (q.tagr.toList ++ q.stage)
  | .crc =>
    q.idx < 4 ∧ q.stage.length = q.lenr.toNat ∧ q.stage.length ≤ cfg.payloadMax.toNat ∧
      q.crcR = crcFold cfg cfg.crcInit (q.tagr.toList ++ q.stage)
  | .idle => False
  | .hdr => False
  | .drain => False
  | .sMagic => False
  | .sLen => False
  | .sTag => False
  | .sPay => False
  | .sCrc => False

/-- The registers while the command `c` waits for the rest of its packet (R34, R165, R211). -/
def Consumer.Waiting (s : State) : Consumer → Prop
  | .crcGen => s.seq.ph = .idle
  | .crcVfy _ => s.seq.ph = .idle
  | .ttParse => s.seq.ph = .idle
  | .chNew t =>
    s.seq.ph = .idle ∧ s.seq.stage.length ≤ s.cfg.payloadMax.toNat ∧
      s.seq.crcR = crcFold s.cfg s.cfg.crcInit (t.toList ++ s.seq.stage)
  | .chDes =>
    s.seq.perr ≠ .faulted ∧
      (s.seq.InRecord s.cfg ∨
        (s.seq.ph = .drain ∧
          (s.seq.perr = .ok → Chunk.Valid s.cfg ⟨s.seq.lenr, s.seq.tagr, s.seq.stage, s.seq.crcX⟩)))
  | .ctRemove => s.seq.ph = .idle ∧ s.cl ≠ none
  | .ctFind => s.seq.ph = .idle ∧ s.cl ≠ none
  | .ctDes =>
    (s.seq.ph = .hdr ∧ s.seq.idx < 8) ∨ s.seq.InRecord s.cfg ∨ (s.seq.ph = .drain ∧ s.seq.perr ≠ .ok ∧ s.seq.perr ≠ .faulted)

/-- The invariant of the machine: every chunk value that is held is valid (10_state.md R23), the lists are within
`CHUNKS_MAX` (R24), `FLT` and `BUSY` say what R26 says, a command in progress waits or owes output but not both (R7), a `DOUT`
packet is owed only before the `RSP` beat of a command that succeeded (R7, 20_memory.md R62 (c)), a faulted block owes at most its
`RSP` beat (60_exceptions.md R250), `ph` is `IDLE` between commands (R34), the sequencer is consistent inside one, and a command
that waits or fails has changed no bit of the object registers (60_exceptions.md R248). -/
structure State.Inv (s : State) : Prop where
  ck_valid : ∀ c, s.ck = some c → c.Valid s.cfg
  cl_valid : ∀ l, s.cl = some l → ListValid s.cfg l
  sl_valid : ListValid s.cfg s.seq.sl
  flt_eq : s.flt = s.fault.isSome
  busy_eq : s.busy = (s.cur.isSome || s.rsp.isSome || s.fault.isSome)
  one_end : s.cur ≠ none → s.rsp = none ∧ s.fault = none
  dout_ok : s.dout ≠ [] → s.Answers .ok
  fault_rsp : ∀ y, s.rsp = some y → (y.err = .faulted ↔ s.fault ≠ none)
  idle_between : s.cur = none → s.rsp = none → s.seq.ph = .idle
  waiting : ∀ c, s.cur = some c → c.Waiting s
  held_eq : (s.cur ≠ none ∨ ∃ y, s.rsp = some y ∧ y.err ≠ .ok) → s.was = s.held

/-! ## Safe runs -/

/-- A run that has ended, and well (70_reset_and_hazards.md R292, 60_exceptions.md R250): every command issued has been taken and
has ended, its `RSP` beat moved, and there is no fault. -/
structure State.Good (s : State) : Prop where
  taken : s.cmd = []
  ended : s.Idle
  no_fault : s.fault = none

/-- `k` steps from `s` all answer a next state, and the last is `t`. -/
def Reaches : Nat → State → State → Prop
  | 0, s, t => s = t
  | k + 1, s, t => ∃ u, step s = .next u ∧ Reaches k u t

end Sys2Proof.Machine
end

