-- ==== Sys2Proof/Certificates/Slice0/Obligations.lean ====
section
/-! DEFINITION. The statements for the provers, in the order of OBLIGATIONS.json. Each docstring names the rule of spec/ it
formalises, or says that it is derived or the model's choice. Where a command answers, its response and its packet are owed
(`State.replying`); that `ERR` and `RES` hold the response once the host has taken it is `OneResponsePerCommand`. -/

open Sys2Proof Sys2Proof.Machine

/-! ## Encoding -/

/-- Command words written out from 30_encoding.md R90 to R92 and 95_test_vectors.md section 2 decode to the commands they stand
for. -/
def Obligations.WrittenWordsDecode : Prop :=
  decode 0x1000000000#40 = .ok .crcGen ∧
  decode 0x11CBF43926#40 = .ok (.crcVfy 0xCBF43926#32) ∧
  decode 0x2174655374#40 = .ok (.ttParseb ⟨0x74, 0x65, 0x53, 0x74⟩) ∧
  decode 0x2800000000#40 = .ok .ttDisp ∧
  decode 0x3000000000#40 = .ok .chNew ∧
  decode 0x3700000000#40 = .ok .chDes ∧
  decode 0x4400000001#40 = .ok (.ctChunks 1) ∧
  decode 0x4600000000#40 = .ok .ctDes ∧
  decodeBytes [0x11, 0xCB, 0xF4, 0x39, 0x26] = .ok (.crcVfy 0xCBF43926#32)

/-- Decode and encode agree, as words and as five bytes (30_encoding.md R90 to R92): no bit of an operand is dropped. -/
def Obligations.EncodeThenDecodeGivesTheCommand : Prop :=
  ∀ i : Instr, i.wf = true → decode (encode i) = .ok i ∧ decodeBytes (encodeBytes i) = .ok i

/-- A word that decodes is the encoding of the command it decodes to, and that command is well-formed (R92): no two words stand
for one command. -/
def Obligations.DecodedWordIsTheEncoding : Prop :=
  ∀ (w : CmdWord) (i : Instr), decode w = .ok i → i.wf = true ∧ encode i = w

/-- 30_encoding.md R93: which words are illegal, and that an illegal word faults with `F_ILLEGAL`: nothing is executed, no
`DIN` beat is taken, no object register changes (`haltedBy` changes none of them). -/
def Obligations.IllegalWordsFault : Prop :=
  (∀ w : CmdWord,
    (∃ why, decode w = .error why) ↔
      let op := (w.extractLsb' 32 8).toNat
      (¬ ((0x10 ≤ op ∧ op ≤ 0x11) ∨ (0x20 ≤ op ∧ op ≤ 0x28) ∨ (0x30 ≤ op ∧ op ≤ 0x37) ∨ (0x40 ≤ op ∧ op ≤ 0x46))) ∨
        (op ≠ 0x11 ∧ op ≠ 0x21 ∧ op ≠ 0x44 ∧ w.extractLsb' 0 32 ≠ 0#32)) ∧
  (∀ (s : State) (w : CmdWord) (rest : List CmdWord) (why : Illegal),
    s.Idle → s.cmd = w :: rest → decode w = .error why →
      step s = .next (State.haltedBy { s.taken with cmd := rest } s.seq .illegal))

/-! ## Steps -/

/-- A step of an idle PCC takes the first command word and runs the command it decodes to (00_scope.md R7). -/
def Obligations.StepRunsTheDecodedCommand : Prop :=
  ∀ (s : State) (w : CmdWord) (rest : List CmdWord) (i : Instr),
    s.Idle → s.cmd = w :: rest → decode w = .ok i →
      step s = exec i { s with cmd := rest }

/-- After a fault PCC moves only the `RSP` beat of the fault, and takes no beat until reset (60_exceptions.md R250 point (4)); the
only way on is `rst`, which clears the fault. That a stuck state has no step is 93_implementation_defined.md U22 (log 11); that the
`RSP` beat is owed in `rsp` and a step moves it is the model's choice (log 8). -/
def Obligations.FaultedBlockHaltsUntilReset : Prop :=
  ∀ s : State, s.Inv → s.fault ≠ none →
    (s.rsp = none → step s = .fault .halted) ∧
    (∀ t, step s = .next t →
      s.rsp ≠ none ∧ t.cmd = s.cmd ∧ t.din = s.din ∧ t.fault = s.fault ∧ t.busy = true ∧
        t.tt = s.tt ∧ t.ck = s.ck ∧ t.cl = s.cl ∧ step t = .fault .halted) ∧
    s.rst.fault = none ∧ s.rst.Idle ∧ s.rst.cfg = s.cfg

/-- Which of the five stuck states a step is in (70_reset_and_hazards.md R285, 60_exceptions.md R250,
93_implementation_defined.md U19, U22): output that the host does not take, nothing to take, or a block that has faulted; in
every other state a step answers a next state.
That these are stuck states is the model's choice (log 11), and so are `dout`, `rsp`, `doutRoom` and `rspRoom` (log 8) and `cur`
(log 9). -/
def Obligations.WhichStuckStateAStepIsIn : Prop :=
  ∀ s : State,
    (step s = .fault .waitingForDout ↔ s.dout ≠ [] ∧ s.doutRoom = 0) ∧
    (step s = .fault .waitingForRsp ↔ s.dout = [] ∧ s.rsp ≠ none ∧ s.rspRoom = 0) ∧
    (step s = .fault .waitingForDin ↔ s.dout = [] ∧ s.rsp = none ∧ s.cur ≠ none ∧ s.din = []) ∧
    (step s = .fault .waitingForCmd ↔
      s.dout = [] ∧ s.rsp = none ∧ s.cur = none ∧ s.busy = false ∧ s.cmd = []) ∧
    (step s = .fault .halted ↔ s.dout = [] ∧ s.rsp = none ∧ s.cur = none ∧ s.busy = true) ∧
    (¬ (∃ why, step s = .fault why) → ∃ t, step s = .next t)

/-- A consuming command whose packet is not all there takes every beat there is and stays busy, with no response, no output and
no object register changed (70_reset_and_hazards.md R285, 60_exceptions.md R244); which registers must be readable is R169,
R219; beats that pass a capacity are the subject of other statements.
That the beats there are taken at once is the model's choice (log 9). -/
def Obligations.ConsumingCommandsWaitForTheirPacket : Prop :=
  ∀ s : State, firstPacket s.din = none →
    (∃ q, exec .crcGen s = .next (s.taken.awaiting q .crcGen)) ∧
    (∀ e, ∃ q, exec (.crcVfy e) s = .next (s.taken.awaiting q (.crcVfy e))) ∧
    (∃ q, exec .ttParse s = .next (s.taken.awaiting q .ttParse)) ∧
    (∀ t, s.tt = some (.len4 t) → (availBytes s.din).length ≤ s.cfg.payloadMax.toNat →
      ∃ q, exec .chNew s = .next (s.taken.awaiting q (.chNew t))) ∧
    (recordOver s.cfg (availBytes s.din) 0 = false → ∃ q, exec .chDes s = .next (s.taken.awaiting q .chDes)) ∧
    (s.cl ≠ none → ∃ q, exec .ctRemove s = .next (s.taken.awaiting q .ctRemove)) ∧
    (s.cl ≠ none → ∃ q, exec .ctFind s = .next (s.taken.awaiting q .ctFind)) ∧
    (containerOver s.cfg (availBytes s.din) = false → ∃ q, exec .ctDes s = .next (s.taken.awaiting q .ctDes))

/-- "The host may send the packet before, with or after the command word" (70_reset_and_hazards.md R284): beats that come after
the command has begun to wait have the effect they would have had at once.
The waiting state is the model's choice (log 9). -/
def Obligations.LateBeatsGiveTheSameResult : Prop :=
  ∀ (i : Instr) (s t : State) (early late : List Beat),
    exec i { s with din := early } = .next t → t.cur ≠ none → late ≠ [] → s.dout = [] → s.rsp = none →
      step { t with din := late } = exec i { s with din := early ++ late }

/-! ## The CRC unit -/

/-- 40_crc.md R117: `CRC.GEN`. -/
def Obligations.CrcGenAnswersTheChecksum : Prop :=
  HasOpcode .crcGen 0x10 ∧
  ∀ (s : State) (p : List Byte) (rest : List Beat), firstPacket s.din = some (p, rest) →
    ∃ q, exec .crcGen s = .next (State.replying { s.taken with din := rest } q .ok (crc32 s.cfg p) none)

/-- 40_crc.md R118: `CRC.VFY`. -/
def Obligations.CrcVfyComparesTheChecksum : Prop :=
  ∀ (expected : Word) (s : State) (p : List Byte) (rest : List Beat),
    encode (.crcVfy expected) = 0x11#8 ++ expected ∧
    (firstPacket s.din = some (p, rest) →
      ∃ q, q.crcX = expected ∧
        exec (.crcVfy expected) s =
          .next (State.replying { s.taken with din := rest } q
            (if crc32 s.cfg p = expected then .ok else .checksumMismatch) (crc32 s.cfg p) none))

/-- 40_crc.md R116 (`DetectsSingleBit`), for the generator polynomial of R111: two byte strings of equal length that differ in
exactly one bit have different checksums.
The spec marks polynomial and property as general knowledge (R111, R116). -/
def Obligations.SingleBitChangesTheChecksum : Prop :=
  ∀ cfg : Config, cfg.crcPolyR = 0xEDB88320#32 → DetectsSingleBit cfg

/-! ## The TypeTag unit -/

/-- 41_typetag.md R135: `TT.PARSE` stores any text, with no test. -/
def Obligations.TtParseStoresTheText : Prop :=
  HasOpcode .ttParse 0x20 ∧
  ∀ (s : State) (p : List Byte) (rest : List Beat), firstPacket s.din = some (p, rest) →
    ∃ q x, x.n = min p.length 5 ∧ x.b = p.take (min p.length 4) ∧
      exec .ttParse s = .next (State.replying { s.taken with din := rest, tt := some x } q .ok 0 none)

/-- 41_typetag.md R136: `TT.PARSEB` accepts exactly well-formed text. -/
def Obligations.TtParsebTestsTheText : Prop :=
  ∀ (tag : Tag) (s : State),
    encode (.ttParseb tag) = 0x21#8 ++ (tag.b0 ++ tag.b1 ++ tag.b2 ++ tag.b3) ∧
    exec (.ttParseb tag) s = .next
      (if utf8Ok [tag.b0, tag.b1, tag.b2, tag.b3] then
        State.replying { s.taken with tt := some (.len4 tag) } s.seq .ok 0 none
      else s.taken.replying s.seq .invalidTypeTagEncoding 0 none)

/-- 41_typetag.md R137 and R143: `TT.BYTES` packs the four bytes, `TT.DISP` emits them as one packet. -/
def Obligations.TtBytesAndDispGiveTheFourBytes : Prop :=
  HasOpcode .ttBytes 0x22 ∧ HasOpcode .ttDisp 0x28 ∧
  ∀ (s : State) (t : Tag), s.tt = some (.len4 t) →
    exec .ttBytes s = .next (s.taken.replying s.seq .ok
      (BitVec.ofNat 32
        (t.b0.toNat * 2 ^ 24 + t.b1.toNat * 2 ^ 16 + t.b2.toNat * 2 ^ 8 + t.b3.toNat)) none) ∧
    ∃ q, exec .ttDisp s = .next (s.taken.replying q .ok 0 (some [t.b0, t.b1, t.b2, t.b3]))

/-- 41_typetag.md R134 and R138: `TT.VALID` answers 1 exactly for a text of length 4 made of ASCII letters. -/
def Obligations.TtValidAnswersTheValidity : Prop :=
  HasOpcode .ttValid 0x23 ∧
  ∀ (s : State) (x : TypeTag), s.tt = some x →
    ∃ valid : Bool, exec .ttValid s = .next (s.taken.replying s.seq .ok (if valid then 1 else 0) none) ∧
      (valid = true ↔ x.n = 4 ∧ ∀ b ∈ x.b,
        (0x41 ≤ b.toNat ∧ b.toNat ≤ 0x5A) ∨ (0x61 ≤ b.toNat ∧ b.toNat ≤ 0x7A))

/-- 41_typetag.md R139 to R142: the four flag commands. -/
def Obligations.TtFlagsAnswerTheSelectors : Prop :=
  HasOpcode .ttCrit 0x24 ∧ HasOpcode .ttPub 0x25 ∧ HasOpcode .ttRsvd 0x26 ∧ HasOpcode .ttSafe 0x27 ∧
  ∀ (s : State) (t : Tag), s.tt = some (.len4 t) →
    exec .ttCrit s = .next (s.taken.replying s.seq .ok
      (if 0x41 ≤ t.b0.toNat ∧ t.b0.toNat ≤ 0x5A then 1 else 0) none) ∧
    exec .ttPub s = .next (s.taken.replying s.seq .ok
      (if 0x41 ≤ t.b1.toNat ∧ t.b1.toNat ≤ 0x5A then 1 else 0) none) ∧
    (s.cfg.rsvdExpect = .lower → exec .ttRsvd s = .next (s.taken.replying s.seq .ok
      (if 0x61 ≤ t.b2.toNat ∧ t.b2.toNat ≤ 0x7A then 1 else 0) none)) ∧
    (s.cfg.rsvdExpect = .upper → exec .ttRsvd s = .next (s.taken.replying s.seq .ok
      (if 0x41 ≤ t.b2.toNat ∧ t.b2.toNat ≤ 0x5A then 1 else 0) none)) ∧
    exec .ttSafe s = .next (s.taken.replying s.seq .ok
      (if 0x61 ≤ t.b3.toNat ∧ t.b3.toNat ≤ 0x7A then 1 else 0) none)

/-- 41_typetag.md R144 (and R169 for `CH.NEW`): a reader of `TT` faults with `F_UNWRITTEN` while `TT.w = 0`, then, all but
`TT.VALID`, with `F_TAGLEN` unless `TT.n = 4`; no beat is taken. -/
def Obligations.TagReadersFault : Prop :=
  (∀ (s : State) (i : Instr),
    i ∈ [Instr.ttBytes, .ttValid, .ttCrit, .ttPub, .ttRsvd, .ttSafe, .ttDisp, .chNew] → s.tt = none →
      exec i s = .next (s.taken.haltedBy s.seq .unwritten)) ∧
  (∀ (s : State) (x : TypeTag) (i : Instr),
    i ∈ [Instr.ttBytes, .ttCrit, .ttPub, .ttRsvd, .ttSafe, .ttDisp, .chNew] → s.tt = some x → x.n ≠ 4 →
      exec i s = .next (s.taken.haltedBy s.seq .tagLen))

/-- 41_typetag.md R132: `utf8_ok(s)` holds exactly when `s` is a concatenation of sequences of the table, each row given by the
ranges of its bytes.
The spec marks the table as general knowledge. -/
def Obligations.TextIsAConcatenationOfTableRows : Prop :=
  ∀ s : List Byte, utf8Ok s = true ↔
    ∃ parts : List (List Byte), s = parts.flatten ∧
      ∀ part ∈ parts, ∃ row ∈ ([
          [(0x00, 0x7F)],
          [(0xC2, 0xDF), (0x80, 0xBF)],
          [(0xE0, 0xE0), (0xA0, 0xBF), (0x80, 0xBF)],
          [(0xE1, 0xEC), (0x80, 0xBF), (0x80, 0xBF)],
          [(0xED, 0xED), (0x80, 0x9F), (0x80, 0xBF)],
          [(0xEE, 0xEF), (0x80, 0xBF), (0x80, 0xBF)],
          [(0xF0, 0xF0), (0x90, 0xBF), (0x80, 0xBF), (0x80, 0xBF)],
          [(0xF1, 0xF3), (0x80, 0xBF), (0x80, 0xBF), (0x80, 0xBF)],
          [(0xF4, 0xF4), (0x80, 0x8F), (0x80, 0xBF), (0x80, 0xBF)]] : List (List (Nat × Nat))),
        List.Forall₂ (fun (b : Byte) (r : Nat × Nat) => r.1 ≤ b.toNat ∧ b.toNat ≤ r.2) part row

/-! ## The chunk unit -/

/-- 42_chunk.md R170 and R161: `CH.NEW` on a payload within `PAYLOAD_MAX`. -/
def Obligations.ChNewBuildsTheChunk : Prop :=
  HasOpcode .chNew 0x30 ∧
  ∀ (s : State) (t : Tag) (p : List Byte) (rest : List Beat),
    s.tt = some (.len4 t) → firstPacket s.din = some (p, rest) → p.length ≤ s.cfg.payloadMax.toNat →
      ∃ q c, c.len.toNat = p.length ∧ c.tag = t ∧ c.data = p ∧
        c.crc = crc32 s.cfg ([t.b0, t.b1, t.b2, t.b3] ++ p) ∧
        exec .chNew s = .next (State.replying { s.taken with din := rest, ck := some c } q .ok 0 none)

/-- 42_chunk.md R170, 60_exceptions.md R246 point (5): `CH.NEW` faults with `F_CAPACITY` at payload byte `PAYLOAD_MAX + 1`, takes
that beat and none after it, and changes no object register. -/
def Obligations.ChNewFaultsPastTheCapacity : Prop :=
  ∀ (s : State) (t : Tag),
    s.tt = some (.len4 t) → s.cfg.payloadMax.toNat < (availBytes s.din).length →
      ∃ (q : Seq) (before : List Beat) (b : Byte) (last : Bool) (rest : List Beat),
        s.din = before ++ ⟨some b, last⟩ :: rest ∧
        (before.flatMap Beat.bytes).length = s.cfg.payloadMax.toNat ∧
        exec .chNew s = .next (State.haltedBy { s.taken with din := rest } q .capacity)

/-- 42_chunk.md R171, R173, R174: `CH.LEN`, `CH.DATA`, `CH.CRC`; the last recomputes the checksum and does not read the stored
one (40_crc.md R115). -/
def Obligations.ChAccessorsAnswerTheFields : Prop :=
  HasOpcode .chLen 0x31 ∧ HasOpcode .chData 0x33 ∧ HasOpcode .chCrc 0x34 ∧
  ∀ (s : State) (c : Chunk), s.ck = some c →
    exec .chLen s = .next (s.taken.replying s.seq .ok c.len none) ∧
    (∃ q, exec .chData s = .next (s.taken.replying q .ok 0 (some c.data))) ∧
    ∃ q, exec .chCrc s =
      .next (s.taken.replying q .ok (crc32 s.cfg ([c.tag.b0, c.tag.b1, c.tag.b2, c.tag.b3] ++ c.data)) none)

/-- 42_chunk.md R172: `CH.TYPE` delivers the tag in `RES` and in `TT`. -/
def Obligations.ChTypeDeliversTheTagTwice : Prop :=
  HasOpcode .chType 0x32 ∧
  ∀ (s : State) (c : Chunk), s.ck = some c →
    exec .chType s = .next (State.replying { s.taken with tt := some (.len4 c.tag) } s.seq .ok
      (BitVec.ofNat 32 (c.tag.b0.toNat * 2 ^ 24 + c.tag.b1.toNat * 2 ^ 16 + c.tag.b2.toNat * 2 ^ 8 +
        c.tag.b3.toNat)) none)

/-- 42_chunk.md R176: `CH.STR` emits the payload when it is text, else raises `PayloadNotText` and emits nothing. -/
def Obligations.ChStrEmitsOnlyText : Prop :=
  HasOpcode .chStr 0x35 ∧
  ∀ (s : State) (c : Chunk), s.ck = some c →
    ∃ q, exec .chStr s = .next
      (if utf8Ok c.data then s.taken.replying q .ok 0 (some c.data)
      else s.taken.replying q .payloadNotText 0 none)

/-- 42_chunk.md R177, R162, R167: `CH.SER` emits the record as one packet, which for a valid chunk has `12 + CK.len` bytes. -/
def Obligations.ChSerEmitsTheRecord : Prop :=
  HasOpcode .chSer 0x36 ∧
  ∀ (s : State) (c : Chunk), s.ck = some c →
    ∃ q record,
      record = be32Bytes c.len ++ [c.tag.b0, c.tag.b1, c.tag.b2, c.tag.b3] ++ c.data ++ be32Bytes c.crc ∧
      (c.Valid s.cfg → record.length = 12 + c.len.toNat) ∧
      exec .chSer s = .next (s.taken.replying q .ok 0 (some record))

/-- 42_chunk.md R178 and R168: `CH.DES` gives what `parse_record(s, 0)` gives (R163), for every packet on which no capacity is
passed. The command runs the sequencer of R165 and R166, so this is the agreement of the two forms; R168 of the sequencers alone is
`ChunkSequencersCompute` (Safety.lean). -/
def Obligations.ChDesParsesOneRecord : Prop :=
  HasOpcode .chDes 0x37 ∧
  ∀ (s : State) (p : List Byte) (rest : List Beat),
    firstPacket s.din = some (p, rest) → recordOver s.cfg p 0 = false →
      ∃ q, exec .chDes s = .next
        (match parseRecord s.cfg p 0 with
        | .error e => State.replying { s.taken with din := rest } q e 0 none
        | .ok (c, _) => State.replying { s.taken with din := rest, ck := some c } q .ok 0 none)

/-- 42_chunk.md R165, 60_exceptions.md R246 point (5): `CH.DES` faults with `F_CAPACITY` at the beat that passes `PAYLOAD_MAX`,
whether or not the rest of the packet has come. -/
def Obligations.ChDesFaultsPastTheCapacity : Prop :=
  ∀ s : State, recordOver s.cfg (availBytes s.din) 0 = true →
    ∃ (q : Seq) (before : List Beat) (b : Byte) (last : Bool) (rest : List Beat),
      s.din = before ++ ⟨some b, last⟩ :: rest ∧
      (before.flatMap Beat.bytes).length = 8 + s.cfg.payloadMax.toNat ∧
      exec .chDes s = .next (State.haltedBy { s.taken with din := rest } q .capacity)

/-- 42_chunk.md R169: a reader of `CK` faults with `F_UNWRITTEN` while `CK.v = 0`. -/
def Obligations.ChunkReadersFault : Prop :=
  ∀ (s : State) (i : Instr),
    i ∈ [Instr.chLen, .chType, .chData, .chCrc, .chStr, .chSer] → s.ck = none →
      exec i s = .next (s.taken.haltedBy s.seq .unwritten)

/-! ## The container unit -/

/-- 43_container.md R203: `CT.FROM` makes the empty container. -/
def Obligations.CtFromMakesTheEmptyContainer : Prop :=
  HasOpcode .ctFrom 0x40 ∧
  ∀ s : State, exec .ctFrom s = .next (State.replying { s.taken with cl := some [] } s.seq .ok 0 none)

/-- 43_container.md R204, R219, 20_memory.md R66: `CT.APPEND` moves the chunk to the end of the list, or faults. -/
def Obligations.CtAppendMovesTheChunk : Prop :=
  HasOpcode .ctAppend 0x41 ∧
  (∀ (s : State) (l : List Chunk) (c : Chunk), s.cl = some l → s.ck = some c →
    exec .ctAppend s = .next
      (if l.length = s.cfg.chunksMax.toNat then s.taken.haltedBy s.seq .capacity
      else State.replying { s.taken with cl := some (l ++ [c]), ck := none } s.seq .ok 0 none)) ∧
  (∀ s : State, s.cl = none ∨ s.ck = none → exec .ctAppend s = .next (s.taken.haltedBy s.seq .unwritten))

/-- 43_container.md R205, R210: `CT.REMOVE` removes the first chunk whose tag bytes are the text, or raises `NotFound`. -/
def Obligations.CtRemoveTakesTheFirstMatch : Prop :=
  HasOpcode .ctRemove 0x42 ∧
  ∀ (s : State) (l : List Chunk) (x : List Byte) (rest : List Beat),
    s.cl = some l → firstPacket s.din = some (x, rest) →
      (∃ q, (∀ c ∈ l, x ≠ [c.tag.b0, c.tag.b1, c.tag.b2, c.tag.b3]) ∧
        exec .ctRemove s = .next (State.replying { s.taken with din := rest } q .notFound 0 none)) ∨
      (∃ q before c after, l = before ++ c :: after ∧ x = [c.tag.b0, c.tag.b1, c.tag.b2, c.tag.b3] ∧
        (∀ d ∈ before, x ≠ [d.tag.b0, d.tag.b1, d.tag.b2, d.tag.b3]) ∧
        exec .ctRemove s = .next
          (State.replying { s.taken with din := rest, ck := some c, cl := some (before ++ after) } q .ok 0 none))

/-- 43_container.md R206, R210: `CT.FIND` copies the first match into `CK`; absence is no error. -/
def Obligations.CtFindCopiesTheFirstMatch : Prop :=
  HasOpcode .ctFind 0x43 ∧
  ∀ (s : State) (l : List Chunk) (x : List Byte) (rest : List Beat),
    s.cl = some l → firstPacket s.din = some (x, rest) →
      (∃ q, (∀ c ∈ l, x ≠ [c.tag.b0, c.tag.b1, c.tag.b2, c.tag.b3]) ∧
        exec .ctFind s = .next (State.replying { s.taken with din := rest } q .ok 0 none)) ∨
      (∃ q before c after, l = before ++ c :: after ∧ x = [c.tag.b0, c.tag.b1, c.tag.b2, c.tag.b3] ∧
        (∀ d ∈ before, x ≠ [d.tag.b0, d.tag.b1, d.tag.b2, d.tag.b3]) ∧
        exec .ctFind s = .next (State.replying { s.taken with din := rest, ck := some c } q .ok 1 none))

/-- 43_container.md R207: `CT.CHUNKS` copies the entry at the index and answers the number of chunks, or raises `NoSuchIndex`
with that number. -/
def Obligations.CtChunksEnumerates : Prop :=
  ∀ (s : State) (l : List Chunk) (index : Nat), s.cl = some l →
    (∀ h : index < l.length,
      exec (.ctChunks index) s = .next
        (State.replying { s.taken with ck := some l[index] } s.seq .ok (BitVec.ofNat 32 l.length) none)) ∧
    (l.length ≤ index →
      exec (.ctChunks index) s = .next (s.taken.replying s.seq .noSuchIndex (BitVec.ofNat 32 l.length) none))

/-- 43_container.md R208, R201, R213: `CT.SER` emits the magic header and each chunk's record, in order, as one packet. -/
def Obligations.CtSerEmitsTheStream : Prop :=
  HasOpcode .ctSer 0x45 ∧
  ∀ (s : State) (l : List Chunk), s.cl = some l →
    ∃ q, exec .ctSer s = .next
      (s.taken.replying q .ok 0 (some (s.cfg.magic.toList ++ (l.map serChunk).flatten)))

/-- 43_container.md R209 and R214: `CT.DES` gives what `ct_des(s)` gives (R202), all or nothing (R218), for every packet on which
no capacity is passed. The command runs the sequencers of R211 and R212; R214 of the sequencers alone is
`ContainerSequencersCompute` (Safety.lean). -/
def Obligations.CtDesParsesTheStream : Prop :=
  HasOpcode .ctDes 0x46 ∧
  ∀ (s : State) (p : List Byte) (rest : List Beat),
    firstPacket s.din = some (p, rest) → containerOver s.cfg p = false →
      ∃ q, exec .ctDes s = .next
        (match ctDes s.cfg p with
        | .error e => State.replying { s.taken with din := rest } q e 0 none
        | .ok l => State.replying { s.taken with din := rest, cl := some l } q .ok 0 none)

/-- 43_container.md R212, 42_chunk.md R165, 60_exceptions.md R246 point (5): `CT.DES` faults with `F_CAPACITY` at the beat that
passes a capacity: on the bytes before it no capacity is passed, with its byte one is. No beat after it is taken, and `CL`
stays as it was. -/
def Obligations.CtDesFaultsPastTheCapacity : Prop :=
  ∀ s : State, containerOver s.cfg (availBytes s.din) = true →
    ∃ (q : Seq) (before : List Beat) (b : Byte) (last : Bool) (rest : List Beat),
      s.din = before ++ ⟨some b, last⟩ :: rest ∧
      containerOver s.cfg (before.flatMap Beat.bytes) = false ∧
      containerOver s.cfg (before.flatMap Beat.bytes ++ [b]) = true ∧
      exec .ctDes s = .next (State.haltedBy { s.taken with din := rest } q .capacity)

/-- 43_container.md R219: a reader of `CL` faults with `F_UNWRITTEN` while `CL.v = 0`, and takes no `DIN` beat. -/
def Obligations.ListReadersFault : Prop :=
  ∀ (s : State) (i : Instr), i ∈ [Instr.ctAppend, .ctRemove, .ctFind, .ctSer] ∨ (∃ k, i = .ctChunks k) →
    s.cl = none → exec i s = .next (s.taken.haltedBy s.seq .unwritten)

/-! ## The properties of the source -/

/-- 42_chunk.md R179: `CH.NEW < d`, `CH.SER > r`, `CH.DES < r` leaves `CK` as `CH.NEW` left it, whatever `CK` holds when `CH.DES`
starts. Between two commands the output of the first is delivered (00_scope.md R7; that it is owed first is the model's choice,
log 8).
The spec derives it from R161 to R163. -/
def Obligations.ChunkRoundTrip : Prop :=
  ∀ (s : State) (t : Tag) (d : List Byte) (rest : List Beat),
    s.tt = some (.len4 t) → utf8Ok t.toList = true → firstPacket s.din = some (d, rest) →
    d.length ≤ s.cfg.payloadMax.toNat →
      ∃ (c : Chunk) (record : List Byte) (s1 : State),
        exec .chNew s = .next s1 ∧ s1.rsp = some ⟨.ok, 0⟩ ∧ s1.ck = some c ∧
        ∀ q1 : Seq, ∃ s2 : State,
          exec .chSer (s1.delivered q1 ⟨.ok, 0⟩) = .next s2 ∧ s2.rsp = some ⟨.ok, 0⟩ ∧ s2.dout = packetBeats record ∧
          ∀ (q2 : Seq) (x : Option Chunk), ∃ s3 : State,
            exec .chDes { s2.delivered q2 ⟨.ok, 0⟩ with ck := x, din := packetBeats record ++ rest } = .next s3 ∧
            s3.rsp = some ⟨.ok, 0⟩ ∧ s3.ck = some c ∧ s3.din = rest

/-- 42_chunk.md R180 with `ERR_ORDER = crc_first` and the polynomial of 40_crc.md R111: one flipped bit in the type, payload or
Checksum field of a record gives `ChecksumMismatch` and leaves `CK` as it was.
The spec derives it from R163 and R116. -/
def Obligations.FlippedBitGivesChecksumMismatch : Prop :=
  ∀ (s : State) (c : Chunk) (i bit : Nat) (rest : List Beat),
    s.cfg.crcPolyR = 0xEDB88320#32 → s.cfg.errOrder = .crcFirst → c.Valid s.cfg →
    4 ≤ i → i < 12 + c.len.toNat → bit < 8 →
    firstPacket s.din = some ((serChunk c).modify i (· ^^^ BitVec.twoPow 8 bit), rest) →
      ∃ q, exec .chDes s = .next (State.replying { s.taken with din := rest } q .checksumMismatch 0 none)

/-- 43_container.md R215: `CT.SER > s` followed by `CT.DES < s` leaves `CL.list` as it was, when every tag is text, whatever `CL`
holds when `CT.DES` starts. Between the commands the output of the first is delivered (00_scope.md R7; that it is owed first is
the model's choice, log 8).
The spec derives it from R201 and R202. -/
def Obligations.ContainerRoundTrip : Prop :=
  ∀ (s : State) (l : List Chunk) (rest : List Beat),
    s.cl = some l → ListValid s.cfg l → (∀ c ∈ l, utf8Ok c.tag.toList = true) →
      ∃ (stream : List Byte) (s1 : State),
        exec .ctSer s = .next s1 ∧ s1.rsp = some ⟨.ok, 0⟩ ∧ s1.dout = s.dout ++ packetBeats stream ∧
        ∀ (q : Seq) (x : Option (List Chunk)), ∃ s2 : State,
          exec .ctDes { s1.delivered q ⟨.ok, 0⟩ with cl := x, din := packetBeats stream ++ rest } = .next s2 ∧
          s2.rsp = some ⟨.ok, 0⟩ ∧ s2.cl = some l ∧ s2.din = rest

/-- 43_container.md R216, extended to short buffers as R202 does: a packet whose first 8 bytes are not the magic header gives
`MalformedHeader`, whatever follows. -/
def Obligations.HeaderGate : Prop :=
  ∀ (s : State) (p : List Byte) (rest : List Beat),
    firstPacket s.din = some (p, rest) → p.take 8 ≠ s.cfg.magic.toList →
      ∃ q, exec .ctDes s = .next (State.replying { s.taken with din := rest } q .malformedHeader 0 none)

/-- 43_container.md R217: on a container with chunks of types `[A, B, A]`, `CT.FIND` of `A` gives the first occurrence and
`CT.REMOVE` of `A` leaves `[B, A]`. -/
def Obligations.FindAndRemoveOnABA : Prop :=
  ∀ (s : State) (a1 b a2 : Chunk) (rest : List Beat),
    s.cl = some [a1, b, a2] → a1.tag = a2.tag → b.tag ≠ a1.tag →
    firstPacket s.din = some (a1.tag.toList, rest) →
      (∃ q, exec .ctFind s = .next (State.replying { s.taken with din := rest, ck := some a1 } q .ok 1 none)) ∧
      (∃ q, exec .ctRemove s =
        .next (State.replying { s.taken with din := rest, ck := some a1, cl := some [b, a2] } q .ok 0 none))

/-! ## The whole machine -/

/-- 00_scope.md R6, R7, 20_memory.md R62 (c), (d), 60_exceptions.md R244, R250: a command that does not wait ends by exactly one
`RSP` beat, after at most one complete `DOUT` packet, which there is only when it succeeds; a beat moves only when the host is
willing, and `ERR` and `RES` stay until the `RSP` beat moves.
How the beats move is the model's choice (DESIGN CHOICE, log 8; the spec leaves the handshake unspecified, R6): `exec` moves no
beat, owes them in `dout` and `rsp` and keeps `doutRoom` and `rspRoom`; a later step moves exactly one owed beat to `out`, the
`DOUT` beats before the `RSP` beat, and lowers `doutRoom` or `rspRoom` by one. The waiting command is log 9. -/
def Obligations.OneResponsePerCommand : Prop :=
  (∀ (i : Instr) (s t : State), exec i s = .next t →
    t.out = s.out ∧ t.err = s.err ∧ t.res = s.res ∧ t.busy = true ∧ t.doutRoom = s.doutRoom ∧ t.rspRoom = s.rspRoom ∧
    ((t.cur ≠ none ∧ t.dout = s.dout ∧ t.rsp = s.rsp) ∨
      (t.cur = none ∧ ∃ y, t.rsp = some y ∧
        (t.dout = s.dout ∨ (y.err = .ok ∧ ∃ p, t.dout = s.dout ++ packetBeats p))))) ∧
  (∀ (s : State) (b : Beat) (bs : List Beat), s.dout = b :: bs → 0 < s.doutRoom →
    ∃ q, step s =
      .next { s with dout := bs, seq := q, out := s.out ++ [.dout b], doutRoom := s.doutRoom - 1 }) ∧
  (∀ (s : State) (y : Response), s.dout = [] → s.rsp = some y → 0 < s.rspRoom →
    ∃ q, step s = .next (s.delivered q y)) ∧
  (∀ (s : State) (y : Response), s.rsp = some y → s.dout.length ≤ s.doutRoom → 0 < s.rspRoom →
    ∃ q, Reaches (s.dout.length + 1) s (s.delivered q y))

/-- 60_exceptions.md R248, and R250 point (2): a command that ends in an error or a fault leaves `TT`, `CK` and `CL` as they
were. -/
def Obligations.FailedCommandsChangeNoObjectRegister : Prop :=
  ∀ (i : Instr) (s t : State) (y : Response), exec i s = .next t → t.cur = none → t.rsp = some y → y.err ≠ .ok →
    t.tt = s.tt ∧ t.ck = s.ck ∧ t.cl = s.cl

/-- 60_exceptions.md R243: the commands that raise no error, for any input. -/
def Obligations.CommandsThatRaiseNoError : Prop :=
  ∀ (i : Instr) (s t : State),
    i ∈ [Instr.crcGen, .ttParse, .ttBytes, .ttValid, .ttCrit, .ttPub, .ttRsvd, .ttSafe, .ttDisp, .chNew, .chLen,
      .chType, .chData, .chCrc, .chSer, .ctFrom, .ctAppend, .ctFind, .ctSer] →
    exec i s = .next t → t.cur = none → t.Answers .ok ∨ t.Answers .faulted

/-- 60_exceptions.md R250: what taking a fault does, for every command that faults from a state with no fault: the code is in
`FAULT` and the response is owed; when the host takes it, `ERR` and `RES` hold it and PCC has halted.
That the response is owed in `rsp`, and that one later step moves it, is the model's choice (log 8); that a halted block has no
step is log 11. -/
def Obligations.FaultEntry : Prop :=
  ∀ (i : Instr) (s t : State), s.fault = none → exec i s = .next t → t.fault ≠ none →
    ∃ c y, t.fault = some c ∧ t.flt = true ∧ t.busy = true ∧ t.cur = none ∧ t.rsp = some y ∧ y.err = .faulted ∧
      y.res.toNat = c.code.toNat ∧ t.dout = s.dout ∧ t.out = s.out ∧ t.tt = s.tt ∧ t.ck = s.ck ∧ t.cl = s.cl ∧
      (s.dout = [] → 0 < s.rspRoom →
        ∃ u, step t = .next u ∧ u.fault = some c ∧ u.flt = true ∧ u.busy = true ∧ u.err = .faulted ∧ u.res = y.res ∧
          u.out = t.out ++ [.rsp .faulted y.res] ∧ u.tt = s.tt ∧ u.ck = s.ck ∧ u.cl = s.cl ∧
          step u = .fault .halted)

/-- 20_memory.md R58: a command that takes a `DIN` packet and ends without a fault has consumed exactly the whole packet; every
other command takes no beat. -/
def Obligations.WholePacketIsConsumed : Prop :=
  ∀ (i : Instr) (s t : State), exec i s = .next t → t.cur = none → ¬ t.Answers .faulted →
    (i ∈ [Instr.crcGen, .ttParse, .chNew, .chDes, .ctRemove, .ctFind, .ctDes] ∨ (∃ e, i = .crcVfy e) →
      ∃ p, firstPacket s.din = some (p, t.din)) ∧
    (¬ (i ∈ [Instr.crcGen, .ttParse, .chNew, .chDes, .ctRemove, .ctFind, .ctDes] ∨ (∃ e, i = .crcVfy e)) →
      t.din = s.din)

/-- Frame of the commands that write no object register (10_state.md R21, R22, R24): the three registers, the parameters, the
command port and every byte of `ROM` and `PB` are unchanged, and `FAULT` too unless the command faulted. -/
def Obligations.FrameOfReaders : Prop :=
  ∀ (i : Instr) (s t : State),
    i ∈ [Instr.crcGen, .ttBytes, .ttValid, .ttCrit, .ttPub, .ttRsvd, .ttSafe, .ttDisp, .chLen, .chData, .chCrc,
      .chStr, .chSer, .ctSer] ∨ (∃ e, i = .crcVfy e) →
    exec i s = .next t →
      t.tt = s.tt ∧ t.ck = s.ck ∧ t.cl = s.cl ∧ t.cfg = s.cfg ∧ t.cmd = s.cmd ∧
      (t.cur ≠ none ∨ ¬ t.Answers .faulted → t.fault = s.fault ∧ t.flt = s.flt) ∧
      ∀ (space : Space) (addr : Nat), memRead space addr t = memRead space addr s

/-- Frame of the writers of `TT` (10_state.md R21): `CK`, `CL`, the parameters and every byte of `ROM` and `PB` are unchanged; no
object register other than `TT` changes, and the two that take no packet leave `DIN` alone. -/
def Obligations.FrameOfTagWriters : Prop :=
  ∀ (i : Instr) (s t : State),
    i ∈ [Instr.ttParse, .chType] ∨ (∃ x, i = .ttParseb x) → exec i s = .next t →
      t.ck = s.ck ∧ t.cl = s.cl ∧ t.cfg = s.cfg ∧ t.cmd = s.cmd ∧ (i ≠ .ttParse → t.din = s.din) ∧
      (t.cur ≠ none ∨ ¬ t.Answers .faulted → t.fault = s.fault ∧ t.flt = s.flt) ∧
      ∀ (space : Space) (addr : Nat), memRead space addr t = memRead space addr s

/-- Frame of the writers of `CK` (10_state.md R22, 20_memory.md R50, R52): `TT`, the parameters and every byte of `ROM` are
unchanged; `CL` too, save for the two that write it; and `PB` reads as before unless the command ended `OK`, when it reads as the
payload of the new `CK`. -/
def Obligations.FrameOfChunkWriters : Prop :=
  ∀ (i : Instr) (s t : State),
    i ∈ [Instr.chNew, .chDes, .ctAppend, .ctRemove, .ctFind] ∨ (∃ k, i = .ctChunks k) → exec i s = .next t →
      t.tt = s.tt ∧ t.cfg = s.cfg ∧ t.cmd = s.cmd ∧
      (i ≠ .ctAppend → i ≠ .ctRemove → t.cl = s.cl) ∧
      (t.cur ≠ none ∨ ¬ t.Answers .faulted → t.fault = s.fault ∧ t.flt = s.flt) ∧
      (∀ addr : Nat, memRead .rom addr t = memRead .rom addr s) ∧
      (∀ addr : Nat, t.cur ≠ none ∨ ¬ t.Answers .ok → memRead .pb addr t = memRead .pb addr s) ∧
      (∀ c : Chunk, t.ck = some c → ∀ addr : Nat, memRead .pb addr t = c.data[addr]?)

/-- Frame of the writers of `CL` that do not touch `CK` (10_state.md R24): `TT`, `CK`, the parameters and every byte of `ROM` and
`PB` are unchanged. -/
def Obligations.FrameOfListWriters : Prop :=
  ∀ (i : Instr) (s t : State), i ∈ [Instr.ctFrom, .ctDes] → exec i s = .next t →
      t.tt = s.tt ∧ t.ck = s.ck ∧ t.cfg = s.cfg ∧ t.cmd = s.cmd ∧ (i = .ctFrom → t.din = s.din) ∧
      (t.cur ≠ none ∨ ¬ t.Answers .faulted → t.fault = s.fault ∧ t.flt = s.flt) ∧
      ∀ (space : Space) (addr : Nat), memRead space addr t = memRead space addr s

/-- 10_state.md R20, R29: the sequencer state is dead between commands: whatever its registers hold when a command starts,
everything else after the command is the same. -/
def Obligations.SequencerIsDeadBetweenCommands : Prop :=
  ∀ (i : Instr) (s t : State) (q : Seq), exec i s = .next t →
    ∃ q', exec i { s with seq := q } = .next { t with seq := q' }

/-- 10_state.md R33: the object registers hold nothing, `STATUS`, `ERR`, `RES` and `FAULT` are 0, `ph` is `IDLE`, the ROM holds
the magic header. Two more clauses are the model's: that bits 31 to 8 of a read of `STATUS`, `ERR` and `FAULT` are 0 is a DESIGN
CHOICE (log 20; the spec gives a read no width), and `cur`, `dout`, `rsp` are fields of the model's own (DESIGN CHOICE, log 8 and
log 9), empty after reset because no command is in progress (70_reset_and_hazards.md R280, R281). The values of the registers for
which R33 gives none are the model's (log 1) and are not stated here. -/
def Obligations.ResetValues : Prop :=
  State.reset.tt = none ∧ State.reset.ck = none ∧ State.reset.cl = none ∧ statusByte State.reset = 0#8 ∧
  State.reset.err.code = 0#8 ∧ State.reset.res = 0#32 ∧ State.reset.fault = none ∧
  State.reset.seq.ph = .idle ∧ State.reset.cur = none ∧ State.reset.dout = [] ∧ State.reset.rsp = none ∧
  (∀ n : Nat, csrRead n 0 State.reset = 0#32 ∧ csrRead n 1 State.reset = 0#32 ∧
    csrRead n 2 State.reset = 0#32 ∧ csrRead n 3 State.reset = 0#32) ∧
  State.reset.cfg.magic.toList = [0x89#8, 0x50#8, 0x4E#8, 0x47#8, 0x0D#8, 0x0A#8, 0x1A#8, 0x0A#8]

/-- The invariant holds right after reset, for every value of the parameters.
The sequencer's values at reset are the model's choice (log 1). -/
def Obligations.ResetMeetsTheInvariant : Prop := ∀ cfg : Config, (State.resetWith cfg).Inv

/-- 10_state.md R23 as an invariant of every step, with R24, R26, R34 and R250: every chunk value held is valid, and so on
(`State.Inv`). -/
def Obligations.StepKeepsTheInvariant : Prop :=
  ∀ s t : State, s.Inv → step s = .next t → t.Inv

/-- 10_state.md R26: what the four status registers read, bit by bit, when no command is in progress; and that numbers 4 to 7
read as 0 at any time. R26 fixes the 8 bits of `STATUS`, `ERR` and `FAULT` and the 32 of `RES`. That bits 31 to 8 of a read of
`STATUS`, `ERR` and `FAULT` are 0, and that a read has 32 bits and its number 3, is the model's choice: DESIGN CHOICE, log 20,
unsafe; the spec gives a read no width (91_not_in_source.md N1). -/
def Obligations.StatusRegistersRead : Prop :=
  (∀ (n : Nat) (s : State), s.cur = none → s.rsp = none →
    (csrRead n 0 s).toNat =
      s.busy.toNat + 2 * s.tt.isSome.toNat + 4 * s.ck.isSome.toNat + 8 * s.cl.isSome.toNat + 16 * s.flt.toNat) ∧
  (∀ (n : Nat) (s : State),
    (csrRead n 1 s).toNat = s.err.code.toNat ∧ csrRead n 2 s = s.res ∧
    (s.fault = none → csrRead n 3 s = 0#32) ∧
    (∀ c, s.fault = some c → (csrRead n 3 s).toNat = c.code.toNat) ∧
    (∀ k : BitVec 3, 4 ≤ k.toNat → csrRead n k s = 0#32))

/-- 20_memory.md R62 (d), 93_implementation_defined.md U21: what the status registers read while a command waits, for the rest of
its packet or for the host to take its output. `BUSY` is 1, `ERR` and `RES` read as the previous command left them. A bit `TTW`,
`CKV`, `CLV` reads its old or its new value; so the bit of a register that the command does not change reads exactly as before,
and so does every bit while a command waits for its packet, but `TTW` in `TT.PARSE` and `CKV` in a `CH.DES` that has accepted
its record: those can only read their old value or 1.
Where the old and the new value differ the bit is free (log 12); that a bit of a waiting command is settled is DEDUCED (log 21).
That `exec` owes the output and each later step moves one beat of it is the model's choice (log 8); the waiting command is log 9. -/
def Obligations.StatusWhileACommandWaits : Prop :=
  (∀ (n : Nat) (i : Instr) (s t : State), exec i s = .next t → t.cur ≠ none → t.rsp = none →
    (csrRead n 0 t).getLsbD 0 = true ∧ (csrRead n 0 t).getLsbD 4 = s.flt ∧
    csrRead n 1 t = csrRead n 1 s ∧ csrRead n 2 t = csrRead n 2 s ∧ csrRead n 3 t = csrRead n 3 s ∧
    ((csrRead n 0 t).getLsbD 1 = s.tt.isSome ∨ (i = .ttParse ∧ (csrRead n 0 t).getLsbD 1 = true)) ∧
    ((csrRead n 0 t).getLsbD 2 = s.ck.isSome ∨
      (i = .chDes ∧ t.seq.ph = .drain ∧ t.seq.perr = .ok ∧ (csrRead n 0 t).getLsbD 2 = true)) ∧
    (csrRead n 0 t).getLsbD 3 = s.cl.isSome) ∧
  (∀ (n : Nat) (i : Instr) (s t u : State) (k : Nat), exec i s = .next t → t.cur = none →
    k ≤ t.dout.length → Reaches k t u →
      (csrRead n 0 u).getLsbD 0 = true ∧ (csrRead n 0 u).getLsbD 4 = t.flt ∧
      csrRead n 1 u = csrRead n 1 s ∧ csrRead n 2 u = csrRead n 2 s ∧ csrRead n 3 u = csrRead n 3 t ∧
      ((csrRead n 0 u).getLsbD 1 = s.tt.isSome ∨ (csrRead n 0 u).getLsbD 1 = t.tt.isSome) ∧
      ((csrRead n 0 u).getLsbD 2 = s.ck.isSome ∨ (csrRead n 0 u).getLsbD 2 = t.ck.isSome) ∧
      ((csrRead n 0 u).getLsbD 3 = s.cl.isSome ∨ (csrRead n 0 u).getLsbD 3 = t.cl.isSome))

/-- 70_reset_and_hazards.md R280: reset at any time puts every register at its value of R33, keeps the parameters and the ROM,
and leaves PCC ready to take a `CMD` beat: whatever the sequencer, the registers and the command in progress were.
`s.rst.Inv` rests on the model's values for the sequencer at reset (log 1), and the last clause on its choice that the words on
`CMD` stay over a reset (log 10). -/
def Obligations.ResetEmptiesEveryRegister : Prop :=
  ∀ s : State,
    s.rst.tt = none ∧ s.rst.ck = none ∧ s.rst.cl = none ∧ statusByte s.rst = 0#8 ∧ s.rst.err = .ok ∧ s.rst.res = 0#32 ∧
    s.rst.fault = none ∧ s.rst.seq.ph = .idle ∧ s.rst.cur = none ∧ s.rst.dout = [] ∧ s.rst.rsp = none ∧
    s.rst.cfg = s.cfg ∧ s.rst.Inv ∧
    ∀ (w : CmdWord) (more : List CmdWord), s.cmd = w :: more →
      ∃ t, step s.rst = .next t ∧ t.cmd = more

/-- 70_reset_and_hazards.md R281: a reset before all the beats of a command have moved sends no `RSP` beat for it and drops the
`DOUT` beats that have not moved, so that its packet is left without its `last` beat; the object registers are empty.
That one step moves one `DOUT` beat is the model's choice (log 8), and so is what `rst` leaves on the host's side (log 10). -/
def Obligations.ResetAbandonsTheCommand : Prop :=
  ∀ (i : Instr) (s t u : State) (moved : Nat), exec i s = .next t → s.dout = [] → moved ≤ t.dout.length →
    Reaches moved t u →
      u.rst.tt = none ∧ u.rst.ck = none ∧ u.rst.cl = none ∧ u.rst.cur = none ∧ u.rst.dout = [] ∧ u.rst.rsp = none ∧
      ∃ begun : List Beat, u.rst.out = s.out ++ begun.map .dout ∧ begun.length = moved ∧
        (u.dout ≠ [] → ∀ b ∈ begun, b.last = false)

/-- 30_encoding.md R96: `CH.MAKE` builds in `CK` the chunk `new(tag, p)`: from a run that has ended well, two commands, each with
its response, when the host takes two `RSP` beats. That these are four steps is the model's choice (log 8, log 9). -/
def Obligations.ChMakeBuildsTheChunk : Prop :=
  ∀ (s : State) (t : Tag) (p : List Byte),
    s.Good → s.din = [] → 2 ≤ s.rspRoom → utf8Ok t.toList = true → p.length ≤ s.cfg.payloadMax.toNat →
      ∃ u, Reaches 4 (issue (chMake t p) s) u ∧ u.Good ∧ u.ck = some (newChunk s.cfg t p) ∧ u.err = .ok ∧
        u.cl = s.cl ∧ u.din = [] ∧ u.out = s.out ++ [.rsp .ok 0, .rsp .ok 0]
end

