-- ==== Sys2Proof/Laws/EndFields.lean ====
section
/-! SUPPORT. The fields of the ends of a command as Safety.lean writes them out: one lemma per field. -/

namespace Sys2Proof.Machine

/-! ### `State.taken` -/

@[simp] theorem State.taken_cfg (s : State) : s.taken.cfg = s.cfg := rfl
@[simp] theorem State.taken_tt (s : State) : s.taken.tt = s.tt := rfl
@[simp] theorem State.taken_ck (s : State) : s.taken.ck = s.ck := rfl
@[simp] theorem State.taken_cl (s : State) : s.taken.cl = s.cl := rfl
@[simp] theorem State.taken_busy (s : State) : s.taken.busy = true := rfl
@[simp] theorem State.taken_flt (s : State) : s.taken.flt = s.flt := rfl
@[simp] theorem State.taken_err (s : State) : s.taken.err = s.err := rfl
@[simp] theorem State.taken_res (s : State) : s.taken.res = s.res := rfl
@[simp] theorem State.taken_fault (s : State) : s.taken.fault = s.fault := rfl
@[simp] theorem State.taken_seq (s : State) : s.taken.seq = s.seq := rfl
@[simp] theorem State.taken_cur (s : State) : s.taken.cur = s.cur := rfl
@[simp] theorem State.taken_dout (s : State) : s.taken.dout = s.dout := rfl
@[simp] theorem State.taken_rsp (s : State) : s.taken.rsp = s.rsp := rfl
@[simp] theorem State.taken_was (s : State) : s.taken.was = ⟨s.tt.isSome, s.ck.isSome, s.cl.isSome⟩ := rfl
@[simp] theorem State.taken_issued (s : State) : s.taken.issued = s.issued + 1 := rfl
@[simp] theorem State.taken_cmd (s : State) : s.taken.cmd = s.cmd := rfl
@[simp] theorem State.taken_din (s : State) : s.taken.din = s.din := rfl
@[simp] theorem State.taken_out (s : State) : s.taken.out = s.out := rfl
@[simp] theorem State.taken_doutRoom (s : State) : s.taken.doutRoom = s.doutRoom := rfl
@[simp] theorem State.taken_rspRoom (s : State) : s.taken.rspRoom = s.rspRoom := rfl

/-! ### `State.replying` -/

@[simp] theorem State.replying_cfg (s : State) (q : Seq) (e : ErrCode) (r : Word) (p : Option (List Byte)) : (s.replying q e r p).cfg = s.cfg := rfl
@[simp] theorem State.replying_tt (s : State) (q : Seq) (e : ErrCode) (r : Word) (p : Option (List Byte)) : (s.replying q e r p).tt = s.tt := rfl
@[simp] theorem State.replying_ck (s : State) (q : Seq) (e : ErrCode) (r : Word) (p : Option (List Byte)) : (s.replying q e r p).ck = s.ck := rfl
@[simp] theorem State.replying_cl (s : State) (q : Seq) (e : ErrCode) (r : Word) (p : Option (List Byte)) : (s.replying q e r p).cl = s.cl := rfl
@[simp] theorem State.replying_busy (s : State) (q : Seq) (e : ErrCode) (r : Word) (p : Option (List Byte)) : (s.replying q e r p).busy = s.busy := rfl
@[simp] theorem State.replying_flt (s : State) (q : Seq) (e : ErrCode) (r : Word) (p : Option (List Byte)) : (s.replying q e r p).flt = s.flt := rfl
@[simp] theorem State.replying_err (s : State) (q : Seq) (e : ErrCode) (r : Word) (p : Option (List Byte)) : (s.replying q e r p).err = s.err := rfl
@[simp] theorem State.replying_res (s : State) (q : Seq) (e : ErrCode) (r : Word) (p : Option (List Byte)) : (s.replying q e r p).res = s.res := rfl
@[simp] theorem State.replying_fault (s : State) (q : Seq) (e : ErrCode) (r : Word) (p : Option (List Byte)) : (s.replying q e r p).fault = s.fault := rfl
@[simp] theorem State.replying_seq (s : State) (q : Seq) (e : ErrCode) (r : Word) (p : Option (List Byte)) : (s.replying q e r p).seq = q := rfl
@[simp] theorem State.replying_cur (s : State) (q : Seq) (e : ErrCode) (r : Word) (p : Option (List Byte)) : (s.replying q e r p).cur = none := rfl
@[simp] theorem State.replying_dout_none (s : State) (q : Seq) (e : ErrCode) (r : Word) : (s.replying q e r none).dout = s.dout := rfl
@[simp] theorem State.replying_dout_some (s : State) (q : Seq) (e : ErrCode) (r : Word) (p : List Byte) : (s.replying q e r (some p)).dout = s.dout ++ packetBeats p := rfl
@[simp] theorem State.replying_rsp (s : State) (q : Seq) (e : ErrCode) (r : Word) (p : Option (List Byte)) : (s.replying q e r p).rsp = some ⟨e, r⟩ := rfl
@[simp] theorem State.replying_was (s : State) (q : Seq) (e : ErrCode) (r : Word) (p : Option (List Byte)) : (s.replying q e r p).was = s.was := rfl
@[simp] theorem State.replying_issued (s : State) (q : Seq) (e : ErrCode) (r : Word) (p : Option (List Byte)) : (s.replying q e r p).issued = s.issued := rfl
@[simp] theorem State.replying_cmd (s : State) (q : Seq) (e : ErrCode) (r : Word) (p : Option (List Byte)) : (s.replying q e r p).cmd = s.cmd := rfl
@[simp] theorem State.replying_din (s : State) (q : Seq) (e : ErrCode) (r : Word) (p : Option (List Byte)) : (s.replying q e r p).din = s.din := rfl
@[simp] theorem State.replying_out (s : State) (q : Seq) (e : ErrCode) (r : Word) (p : Option (List Byte)) : (s.replying q e r p).out = s.out := rfl
@[simp] theorem State.replying_doutRoom (s : State) (q : Seq) (e : ErrCode) (r : Word) (p : Option (List Byte)) : (s.replying q e r p).doutRoom = s.doutRoom := rfl
@[simp] theorem State.replying_rspRoom (s : State) (q : Seq) (e : ErrCode) (r : Word) (p : Option (List Byte)) : (s.replying q e r p).rspRoom = s.rspRoom := rfl

/-! ### `State.haltedBy` -/

@[simp] theorem State.haltedBy_cfg (s : State) (q : Seq) (c : FaultCode) : (s.haltedBy q c).cfg = s.cfg := rfl
@[simp] theorem State.haltedBy_tt (s : State) (q : Seq) (c : FaultCode) : (s.haltedBy q c).tt = s.tt := rfl
@[simp] theorem State.haltedBy_ck (s : State) (q : Seq) (c : FaultCode) : (s.haltedBy q c).ck = s.ck := rfl
@[simp] theorem State.haltedBy_cl (s : State) (q : Seq) (c : FaultCode) : (s.haltedBy q c).cl = s.cl := rfl
@[simp] theorem State.haltedBy_busy (s : State) (q : Seq) (c : FaultCode) : (s.haltedBy q c).busy = s.busy := rfl
@[simp] theorem State.haltedBy_flt (s : State) (q : Seq) (c : FaultCode) : (s.haltedBy q c).flt = true := rfl
@[simp] theorem State.haltedBy_err (s : State) (q : Seq) (c : FaultCode) : (s.haltedBy q c).err = s.err := rfl
@[simp] theorem State.haltedBy_res (s : State) (q : Seq) (c : FaultCode) : (s.haltedBy q c).res = s.res := rfl
@[simp] theorem State.haltedBy_seq (s : State) (q : Seq) (c : FaultCode) : (s.haltedBy q c).seq = q := rfl
@[simp] theorem State.haltedBy_cur (s : State) (q : Seq) (c : FaultCode) : (s.haltedBy q c).cur = none := rfl
@[simp] theorem State.haltedBy_dout (s : State) (q : Seq) (c : FaultCode) : (s.haltedBy q c).dout = s.dout := rfl
@[simp] theorem State.haltedBy_rsp (s : State) (q : Seq) (c : FaultCode) : (s.haltedBy q c).rsp = some ⟨.faulted, BitVec.ofNat 32 c.code.toNat⟩ := rfl
@[simp] theorem State.haltedBy_was (s : State) (q : Seq) (c : FaultCode) : (s.haltedBy q c).was = s.was := rfl
@[simp] theorem State.haltedBy_issued (s : State) (q : Seq) (c : FaultCode) : (s.haltedBy q c).issued = s.issued := rfl
@[simp] theorem State.haltedBy_cmd (s : State) (q : Seq) (c : FaultCode) : (s.haltedBy q c).cmd = s.cmd := rfl
@[simp] theorem State.haltedBy_din (s : State) (q : Seq) (c : FaultCode) : (s.haltedBy q c).din = s.din := rfl
@[simp] theorem State.haltedBy_out (s : State) (q : Seq) (c : FaultCode) : (s.haltedBy q c).out = s.out := rfl
@[simp] theorem State.haltedBy_doutRoom (s : State) (q : Seq) (c : FaultCode) : (s.haltedBy q c).doutRoom = s.doutRoom := rfl
@[simp] theorem State.haltedBy_rspRoom (s : State) (q : Seq) (c : FaultCode) : (s.haltedBy q c).rspRoom = s.rspRoom := rfl

@[simp] theorem State.haltedBy_fault (s : State) (q : Seq) (c : FaultCode) :
    (s.haltedBy q c).fault = some (s.fault.getD c) := by
  unfold State.haltedBy
  cases s.fault <;> rfl

/-! ### `State.awaiting` -/

@[simp] theorem State.awaiting_cfg (s : State) (q : Seq) (c : Consumer) : (s.awaiting q c).cfg = s.cfg := rfl
@[simp] theorem State.awaiting_tt (s : State) (q : Seq) (c : Consumer) : (s.awaiting q c).tt = s.tt := rfl
@[simp] theorem State.awaiting_ck (s : State) (q : Seq) (c : Consumer) : (s.awaiting q c).ck = s.ck := rfl
@[simp] theorem State.awaiting_cl (s : State) (q : Seq) (c : Consumer) : (s.awaiting q c).cl = s.cl := rfl
@[simp] theorem State.awaiting_busy (s : State) (q : Seq) (c : Consumer) : (s.awaiting q c).busy = s.busy := rfl
@[simp] theorem State.awaiting_flt (s : State) (q : Seq) (c : Consumer) : (s.awaiting q c).flt = s.flt := rfl
@[simp] theorem State.awaiting_err (s : State) (q : Seq) (c : Consumer) : (s.awaiting q c).err = s.err := rfl
@[simp] theorem State.awaiting_res (s : State) (q : Seq) (c : Consumer) : (s.awaiting q c).res = s.res := rfl
@[simp] theorem State.awaiting_fault (s : State) (q : Seq) (c : Consumer) : (s.awaiting q c).fault = s.fault := rfl
@[simp] theorem State.awaiting_seq (s : State) (q : Seq) (c : Consumer) : (s.awaiting q c).seq = q := rfl
@[simp] theorem State.awaiting_cur (s : State) (q : Seq) (c : Consumer) : (s.awaiting q c).cur = some c := rfl
@[simp] theorem State.awaiting_dout (s : State) (q : Seq) (c : Consumer) : (s.awaiting q c).dout = s.dout := rfl
@[simp] theorem State.awaiting_rsp (s : State) (q : Seq) (c : Consumer) : (s.awaiting q c).rsp = s.rsp := rfl
@[simp] theorem State.awaiting_was (s : State) (q : Seq) (c : Consumer) : (s.awaiting q c).was = s.was := rfl
@[simp] theorem State.awaiting_issued (s : State) (q : Seq) (c : Consumer) : (s.awaiting q c).issued = s.issued := rfl
@[simp] theorem State.awaiting_cmd (s : State) (q : Seq) (c : Consumer) : (s.awaiting q c).cmd = s.cmd := rfl
@[simp] theorem State.awaiting_din (s : State) (q : Seq) (c : Consumer) : (s.awaiting q c).din = [] := rfl
@[simp] theorem State.awaiting_out (s : State) (q : Seq) (c : Consumer) : (s.awaiting q c).out = s.out := rfl
@[simp] theorem State.awaiting_doutRoom (s : State) (q : Seq) (c : Consumer) : (s.awaiting q c).doutRoom = s.doutRoom := rfl
@[simp] theorem State.awaiting_rspRoom (s : State) (q : Seq) (c : Consumer) : (s.awaiting q c).rspRoom = s.rspRoom := rfl

/-! ### `State.delivered` -/

@[simp] theorem State.delivered_cfg (s : State) (q : Seq) (y : Response) : (s.delivered q y).cfg = s.cfg := rfl
@[simp] theorem State.delivered_tt (s : State) (q : Seq) (y : Response) : (s.delivered q y).tt = s.tt := rfl
@[simp] theorem State.delivered_ck (s : State) (q : Seq) (y : Response) : (s.delivered q y).ck = s.ck := rfl
@[simp] theorem State.delivered_cl (s : State) (q : Seq) (y : Response) : (s.delivered q y).cl = s.cl := rfl
@[simp] theorem State.delivered_busy (s : State) (q : Seq) (y : Response) : (s.delivered q y).busy = s.fault.isSome := rfl
@[simp] theorem State.delivered_flt (s : State) (q : Seq) (y : Response) : (s.delivered q y).flt = s.flt := rfl
@[simp] theorem State.delivered_err (s : State) (q : Seq) (y : Response) : (s.delivered q y).err = y.err := rfl
@[simp] theorem State.delivered_res (s : State) (q : Seq) (y : Response) : (s.delivered q y).res = y.res := rfl
@[simp] theorem State.delivered_fault (s : State) (q : Seq) (y : Response) : (s.delivered q y).fault = s.fault := rfl
@[simp] theorem State.delivered_seq (s : State) (q : Seq) (y : Response) : (s.delivered q y).seq = { q with ph := .idle } := rfl
@[simp] theorem State.delivered_cur (s : State) (q : Seq) (y : Response) : (s.delivered q y).cur = s.cur := rfl
@[simp] theorem State.delivered_dout (s : State) (q : Seq) (y : Response) : (s.delivered q y).dout = [] := rfl
@[simp] theorem State.delivered_rsp (s : State) (q : Seq) (y : Response) : (s.delivered q y).rsp = none := rfl
@[simp] theorem State.delivered_was (s : State) (q : Seq) (y : Response) : (s.delivered q y).was = s.was := rfl
@[simp] theorem State.delivered_issued (s : State) (q : Seq) (y : Response) : (s.delivered q y).issued = s.issued := rfl
@[simp] theorem State.delivered_cmd (s : State) (q : Seq) (y : Response) : (s.delivered q y).cmd = s.cmd := rfl
@[simp] theorem State.delivered_din (s : State) (q : Seq) (y : Response) : (s.delivered q y).din = s.din := rfl
@[simp] theorem State.delivered_out (s : State) (q : Seq) (y : Response) : (s.delivered q y).out = s.out ++ s.dout.map .dout ++ [.rsp y.err y.res] := rfl
@[simp] theorem State.delivered_doutRoom (s : State) (q : Seq) (y : Response) : (s.delivered q y).doutRoom = s.doutRoom - s.dout.length := rfl
@[simp] theorem State.delivered_rspRoom (s : State) (q : Seq) (y : Response) : (s.delivered q y).rspRoom = s.rspRoom - 1 := rfl

end Sys2Proof.Machine
end

