-- ==== Sys2Proof/Laws/State.lean ====
section
/-! SUPPORT. One lemma per field per shared update of State, so that no proof unfolds a record update. -/

namespace Sys2Proof.Machine

/-! ### `cmdTaken` -/

@[simp] theorem cmdTaken_cfg (s : State) : (cmdTaken s).cfg = s.cfg := rfl
@[simp] theorem cmdTaken_tt (s : State) : (cmdTaken s).tt = s.tt := rfl
@[simp] theorem cmdTaken_ck (s : State) : (cmdTaken s).ck = s.ck := rfl
@[simp] theorem cmdTaken_cl (s : State) : (cmdTaken s).cl = s.cl := rfl
@[simp] theorem cmdTaken_busy (s : State) : (cmdTaken s).busy = true := rfl
@[simp] theorem cmdTaken_flt (s : State) : (cmdTaken s).flt = s.flt := rfl
@[simp] theorem cmdTaken_err (s : State) : (cmdTaken s).err = s.err := rfl
@[simp] theorem cmdTaken_res (s : State) : (cmdTaken s).res = s.res := rfl
@[simp] theorem cmdTaken_fault (s : State) : (cmdTaken s).fault = s.fault := rfl
@[simp] theorem cmdTaken_seq (s : State) : (cmdTaken s).seq = s.seq := rfl
@[simp] theorem cmdTaken_cur (s : State) : (cmdTaken s).cur = s.cur := rfl
@[simp] theorem cmdTaken_dout (s : State) : (cmdTaken s).dout = s.dout := rfl
@[simp] theorem cmdTaken_rsp (s : State) : (cmdTaken s).rsp = s.rsp := rfl
@[simp] theorem cmdTaken_was (s : State) : (cmdTaken s).was = s.held := rfl
@[simp] theorem cmdTaken_issued (s : State) : (cmdTaken s).issued = s.issued + 1 := rfl
@[simp] theorem cmdTaken_cmd (s : State) : (cmdTaken s).cmd = s.cmd := rfl
@[simp] theorem cmdTaken_din (s : State) : (cmdTaken s).din = s.din := rfl
@[simp] theorem cmdTaken_out (s : State) : (cmdTaken s).out = s.out := rfl
@[simp] theorem cmdTaken_doutRoom (s : State) : (cmdTaken s).doutRoom = s.doutRoom := rfl
@[simp] theorem cmdTaken_rspRoom (s : State) : (cmdTaken s).rspRoom = s.rspRoom := rfl

/-! ### `respond` -/

@[simp] theorem respond_cfg (e : ErrCode) (r : Word) (s : State) : (respond e r s).cfg = s.cfg := rfl
@[simp] theorem respond_tt (e : ErrCode) (r : Word) (s : State) : (respond e r s).tt = s.tt := rfl
@[simp] theorem respond_ck (e : ErrCode) (r : Word) (s : State) : (respond e r s).ck = s.ck := rfl
@[simp] theorem respond_cl (e : ErrCode) (r : Word) (s : State) : (respond e r s).cl = s.cl := rfl
@[simp] theorem respond_busy (e : ErrCode) (r : Word) (s : State) : (respond e r s).busy = s.busy := rfl
@[simp] theorem respond_flt (e : ErrCode) (r : Word) (s : State) : (respond e r s).flt = s.flt := rfl
@[simp] theorem respond_err (e : ErrCode) (r : Word) (s : State) : (respond e r s).err = s.err := rfl
@[simp] theorem respond_res (e : ErrCode) (r : Word) (s : State) : (respond e r s).res = s.res := rfl
@[simp] theorem respond_fault (e : ErrCode) (r : Word) (s : State) : (respond e r s).fault = s.fault := rfl
@[simp] theorem respond_seq (e : ErrCode) (r : Word) (s : State) : (respond e r s).seq = s.seq := rfl
@[simp] theorem respond_cur (e : ErrCode) (r : Word) (s : State) : (respond e r s).cur = none := rfl
@[simp] theorem respond_dout (e : ErrCode) (r : Word) (s : State) : (respond e r s).dout = s.dout := rfl
@[simp] theorem respond_rsp (e : ErrCode) (r : Word) (s : State) : (respond e r s).rsp = some ⟨e, r⟩ := rfl
@[simp] theorem respond_was (e : ErrCode) (r : Word) (s : State) : (respond e r s).was = s.was := rfl
@[simp] theorem respond_issued (e : ErrCode) (r : Word) (s : State) : (respond e r s).issued = s.issued := rfl
@[simp] theorem respond_cmd (e : ErrCode) (r : Word) (s : State) : (respond e r s).cmd = s.cmd := rfl
@[simp] theorem respond_din (e : ErrCode) (r : Word) (s : State) : (respond e r s).din = s.din := rfl
@[simp] theorem respond_out (e : ErrCode) (r : Word) (s : State) : (respond e r s).out = s.out := rfl
@[simp] theorem respond_doutRoom (e : ErrCode) (r : Word) (s : State) : (respond e r s).doutRoom = s.doutRoom := rfl
@[simp] theorem respond_rspRoom (e : ErrCode) (r : Word) (s : State) : (respond e r s).rspRoom = s.rspRoom := rfl

/-! ### `raiseError` -/

@[simp] theorem raiseError_cfg (e : ErrCode) (s : State) : (raiseError e s).cfg = s.cfg := rfl
@[simp] theorem raiseError_tt (e : ErrCode) (s : State) : (raiseError e s).tt = s.tt := rfl
@[simp] theorem raiseError_ck (e : ErrCode) (s : State) : (raiseError e s).ck = s.ck := rfl
@[simp] theorem raiseError_cl (e : ErrCode) (s : State) : (raiseError e s).cl = s.cl := rfl
@[simp] theorem raiseError_busy (e : ErrCode) (s : State) : (raiseError e s).busy = s.busy := rfl
@[simp] theorem raiseError_flt (e : ErrCode) (s : State) : (raiseError e s).flt = s.flt := rfl
@[simp] theorem raiseError_err (e : ErrCode) (s : State) : (raiseError e s).err = s.err := rfl
@[simp] theorem raiseError_res (e : ErrCode) (s : State) : (raiseError e s).res = s.res := rfl
@[simp] theorem raiseError_fault (e : ErrCode) (s : State) : (raiseError e s).fault = s.fault := rfl
@[simp] theorem raiseError_seq (e : ErrCode) (s : State) : (raiseError e s).seq = s.seq := rfl
@[simp] theorem raiseError_cur (e : ErrCode) (s : State) : (raiseError e s).cur = none := rfl
@[simp] theorem raiseError_dout (e : ErrCode) (s : State) : (raiseError e s).dout = s.dout := rfl
@[simp] theorem raiseError_rsp (e : ErrCode) (s : State) : (raiseError e s).rsp = some ⟨e, 0⟩ := rfl
@[simp] theorem raiseError_was (e : ErrCode) (s : State) : (raiseError e s).was = s.was := rfl
@[simp] theorem raiseError_issued (e : ErrCode) (s : State) : (raiseError e s).issued = s.issued := rfl
@[simp] theorem raiseError_cmd (e : ErrCode) (s : State) : (raiseError e s).cmd = s.cmd := rfl
@[simp] theorem raiseError_din (e : ErrCode) (s : State) : (raiseError e s).din = s.din := rfl
@[simp] theorem raiseError_out (e : ErrCode) (s : State) : (raiseError e s).out = s.out := rfl
@[simp] theorem raiseError_doutRoom (e : ErrCode) (s : State) : (raiseError e s).doutRoom = s.doutRoom := rfl
@[simp] theorem raiseError_rspRoom (e : ErrCode) (s : State) : (raiseError e s).rspRoom = s.rspRoom := rfl

/-! ### `takeFault` -/

@[simp] theorem takeFault_cfg (c : FaultCode) (s : State) : (takeFault c s).cfg = s.cfg := rfl
@[simp] theorem takeFault_tt (c : FaultCode) (s : State) : (takeFault c s).tt = s.tt := rfl
@[simp] theorem takeFault_ck (c : FaultCode) (s : State) : (takeFault c s).ck = s.ck := rfl
@[simp] theorem takeFault_cl (c : FaultCode) (s : State) : (takeFault c s).cl = s.cl := rfl
@[simp] theorem takeFault_busy (c : FaultCode) (s : State) : (takeFault c s).busy = s.busy := rfl
@[simp] theorem takeFault_flt (c : FaultCode) (s : State) : (takeFault c s).flt = true := rfl
@[simp] theorem takeFault_err (c : FaultCode) (s : State) : (takeFault c s).err = s.err := rfl
@[simp] theorem takeFault_res (c : FaultCode) (s : State) : (takeFault c s).res = s.res := rfl
@[simp] theorem takeFault_fault (c : FaultCode) (s : State) : (takeFault c s).fault = some (s.fault.getD c) := rfl
@[simp] theorem takeFault_seq (c : FaultCode) (s : State) : (takeFault c s).seq = s.seq := rfl
@[simp] theorem takeFault_cur (c : FaultCode) (s : State) : (takeFault c s).cur = none := rfl
@[simp] theorem takeFault_dout (c : FaultCode) (s : State) : (takeFault c s).dout = s.dout := rfl
@[simp] theorem takeFault_rsp (c : FaultCode) (s : State) : (takeFault c s).rsp = some ⟨.faulted, c.code.setWidth 32⟩ := rfl
@[simp] theorem takeFault_was (c : FaultCode) (s : State) : (takeFault c s).was = s.was := rfl
@[simp] theorem takeFault_issued (c : FaultCode) (s : State) : (takeFault c s).issued = s.issued := rfl
@[simp] theorem takeFault_cmd (c : FaultCode) (s : State) : (takeFault c s).cmd = s.cmd := rfl
@[simp] theorem takeFault_din (c : FaultCode) (s : State) : (takeFault c s).din = s.din := rfl
@[simp] theorem takeFault_out (c : FaultCode) (s : State) : (takeFault c s).out = s.out := rfl
@[simp] theorem takeFault_doutRoom (c : FaultCode) (s : State) : (takeFault c s).doutRoom = s.doutRoom := rfl
@[simp] theorem takeFault_rspRoom (c : FaultCode) (s : State) : (takeFault c s).rspRoom = s.rspRoom := rfl

/-! ### `State.rst` -/

@[simp] theorem State.rst_cfg (s : State) : (s.rst).cfg = s.cfg := rfl
@[simp] theorem State.rst_tt (s : State) : (s.rst).tt = none := rfl
@[simp] theorem State.rst_ck (s : State) : (s.rst).ck = none := rfl
@[simp] theorem State.rst_cl (s : State) : (s.rst).cl = none := rfl
@[simp] theorem State.rst_busy (s : State) : (s.rst).busy = false := rfl
@[simp] theorem State.rst_flt (s : State) : (s.rst).flt = false := rfl
@[simp] theorem State.rst_err (s : State) : (s.rst).err = .ok := rfl
@[simp] theorem State.rst_res (s : State) : (s.rst).res = 0 := rfl
@[simp] theorem State.rst_fault (s : State) : (s.rst).fault = none := rfl
@[simp] theorem State.rst_seq (s : State) : (s.rst).seq = Seq.reset := rfl
@[simp] theorem State.rst_cur (s : State) : (s.rst).cur = none := rfl
@[simp] theorem State.rst_dout (s : State) : (s.rst).dout = [] := rfl
@[simp] theorem State.rst_rsp (s : State) : (s.rst).rsp = none := rfl
@[simp] theorem State.rst_was (s : State) : (s.rst).was = ⟨false, false, false⟩ := rfl
@[simp] theorem State.rst_issued (s : State) : (s.rst).issued = s.issued := rfl
@[simp] theorem State.rst_cmd (s : State) : (s.rst).cmd = s.cmd := rfl
@[simp] theorem State.rst_din (s : State) : (s.rst).din = s.din := rfl
@[simp] theorem State.rst_out (s : State) : (s.rst).out = s.out := rfl
@[simp] theorem State.rst_doutRoom (s : State) : (s.rst).doutRoom = s.doutRoom := rfl
@[simp] theorem State.rst_rspRoom (s : State) : (s.rst).rspRoom = s.rspRoom := rfl

/-! ### `emitPacket` -/

@[simp] theorem emitPacket_cfg (p : List Byte) (s : State) : (emitPacket p s).cfg = s.cfg := rfl
@[simp] theorem emitPacket_tt (p : List Byte) (s : State) : (emitPacket p s).tt = s.tt := rfl
@[simp] theorem emitPacket_ck (p : List Byte) (s : State) : (emitPacket p s).ck = s.ck := rfl
@[simp] theorem emitPacket_cl (p : List Byte) (s : State) : (emitPacket p s).cl = s.cl := rfl
@[simp] theorem emitPacket_busy (p : List Byte) (s : State) : (emitPacket p s).busy = s.busy := rfl
@[simp] theorem emitPacket_flt (p : List Byte) (s : State) : (emitPacket p s).flt = s.flt := rfl
@[simp] theorem emitPacket_err (p : List Byte) (s : State) : (emitPacket p s).err = s.err := rfl
@[simp] theorem emitPacket_res (p : List Byte) (s : State) : (emitPacket p s).res = s.res := rfl
@[simp] theorem emitPacket_fault (p : List Byte) (s : State) : (emitPacket p s).fault = s.fault := rfl
@[simp] theorem emitPacket_seq (p : List Byte) (s : State) : (emitPacket p s).seq = { s.seq with plan := [] } := rfl
@[simp] theorem emitPacket_cur (p : List Byte) (s : State) : (emitPacket p s).cur = s.cur := rfl
@[simp] theorem emitPacket_dout (p : List Byte) (s : State) : (emitPacket p s).dout = s.dout ++ packetBeats p := rfl
@[simp] theorem emitPacket_rsp (p : List Byte) (s : State) : (emitPacket p s).rsp = s.rsp := rfl
@[simp] theorem emitPacket_was (p : List Byte) (s : State) : (emitPacket p s).was = s.was := rfl
@[simp] theorem emitPacket_issued (p : List Byte) (s : State) : (emitPacket p s).issued = s.issued := rfl
@[simp] theorem emitPacket_cmd (p : List Byte) (s : State) : (emitPacket p s).cmd = s.cmd := rfl
@[simp] theorem emitPacket_din (p : List Byte) (s : State) : (emitPacket p s).din = s.din := rfl
@[simp] theorem emitPacket_out (p : List Byte) (s : State) : (emitPacket p s).out = s.out := rfl
@[simp] theorem emitPacket_doutRoom (p : List Byte) (s : State) : (emitPacket p s).doutRoom = s.doutRoom := rfl
@[simp] theorem emitPacket_rspRoom (p : List Byte) (s : State) : (emitPacket p s).rspRoom = s.rspRoom := rfl

/-! ### `emitByte` -/

@[simp] theorem emitByte_cfg (m : Mark) (b : Byte) (last : Bool) (s : State) : (emitByte m b last s).cfg = s.cfg := rfl
@[simp] theorem emitByte_tt (m : Mark) (b : Byte) (last : Bool) (s : State) : (emitByte m b last s).tt = s.tt := rfl
@[simp] theorem emitByte_ck (m : Mark) (b : Byte) (last : Bool) (s : State) : (emitByte m b last s).ck = s.ck := rfl
@[simp] theorem emitByte_cl (m : Mark) (b : Byte) (last : Bool) (s : State) : (emitByte m b last s).cl = s.cl := rfl
@[simp] theorem emitByte_busy (m : Mark) (b : Byte) (last : Bool) (s : State) : (emitByte m b last s).busy = s.busy := rfl
@[simp] theorem emitByte_flt (m : Mark) (b : Byte) (last : Bool) (s : State) : (emitByte m b last s).flt = s.flt := rfl
@[simp] theorem emitByte_err (m : Mark) (b : Byte) (last : Bool) (s : State) : (emitByte m b last s).err = s.err := rfl
@[simp] theorem emitByte_res (m : Mark) (b : Byte) (last : Bool) (s : State) : (emitByte m b last s).res = s.res := rfl
@[simp] theorem emitByte_fault (m : Mark) (b : Byte) (last : Bool) (s : State) : (emitByte m b last s).fault = s.fault := rfl
@[simp] theorem emitByte_seq (m : Mark) (b : Byte) (last : Bool) (s : State) : (emitByte m b last s).seq = { s.seq with plan := s.seq.plan ++ [m] } := rfl
@[simp] theorem emitByte_cur (m : Mark) (b : Byte) (last : Bool) (s : State) : (emitByte m b last s).cur = s.cur := rfl
@[simp] theorem emitByte_dout (m : Mark) (b : Byte) (last : Bool) (s : State) : (emitByte m b last s).dout = s.dout ++ [⟨some b, last⟩] := rfl
@[simp] theorem emitByte_rsp (m : Mark) (b : Byte) (last : Bool) (s : State) : (emitByte m b last s).rsp = s.rsp := rfl
@[simp] theorem emitByte_was (m : Mark) (b : Byte) (last : Bool) (s : State) : (emitByte m b last s).was = s.was := rfl
@[simp] theorem emitByte_issued (m : Mark) (b : Byte) (last : Bool) (s : State) : (emitByte m b last s).issued = s.issued := rfl
@[simp] theorem emitByte_cmd (m : Mark) (b : Byte) (last : Bool) (s : State) : (emitByte m b last s).cmd = s.cmd := rfl
@[simp] theorem emitByte_din (m : Mark) (b : Byte) (last : Bool) (s : State) : (emitByte m b last s).din = s.din := rfl
@[simp] theorem emitByte_out (m : Mark) (b : Byte) (last : Bool) (s : State) : (emitByte m b last s).out = s.out := rfl
@[simp] theorem emitByte_doutRoom (m : Mark) (b : Byte) (last : Bool) (s : State) : (emitByte m b last s).doutRoom = s.doutRoom := rfl
@[simp] theorem emitByte_rspRoom (m : Mark) (b : Byte) (last : Bool) (s : State) : (emitByte m b last s).rspRoom = s.rspRoom := rfl

/-! ### `moveDout` -/

@[simp] theorem moveDout_cfg (b : Beat) (bs : List Beat) (s : State) : (moveDout b bs s).cfg = s.cfg := rfl
@[simp] theorem moveDout_tt (b : Beat) (bs : List Beat) (s : State) : (moveDout b bs s).tt = s.tt := rfl
@[simp] theorem moveDout_ck (b : Beat) (bs : List Beat) (s : State) : (moveDout b bs s).ck = s.ck := rfl
@[simp] theorem moveDout_cl (b : Beat) (bs : List Beat) (s : State) : (moveDout b bs s).cl = s.cl := rfl
@[simp] theorem moveDout_busy (b : Beat) (bs : List Beat) (s : State) : (moveDout b bs s).busy = s.busy := rfl
@[simp] theorem moveDout_flt (b : Beat) (bs : List Beat) (s : State) : (moveDout b bs s).flt = s.flt := rfl
@[simp] theorem moveDout_err (b : Beat) (bs : List Beat) (s : State) : (moveDout b bs s).err = s.err := rfl
@[simp] theorem moveDout_res (b : Beat) (bs : List Beat) (s : State) : (moveDout b bs s).res = s.res := rfl
@[simp] theorem moveDout_fault (b : Beat) (bs : List Beat) (s : State) : (moveDout b bs s).fault = s.fault := rfl
@[simp] theorem moveDout_seq (b : Beat) (bs : List Beat) (s : State) : (moveDout b bs s).seq = s.seq.advance := rfl
@[simp] theorem moveDout_cur (b : Beat) (bs : List Beat) (s : State) : (moveDout b bs s).cur = s.cur := rfl
@[simp] theorem moveDout_dout (b : Beat) (bs : List Beat) (s : State) : (moveDout b bs s).dout = bs := rfl
@[simp] theorem moveDout_rsp (b : Beat) (bs : List Beat) (s : State) : (moveDout b bs s).rsp = s.rsp := rfl
@[simp] theorem moveDout_was (b : Beat) (bs : List Beat) (s : State) : (moveDout b bs s).was = s.was := rfl
@[simp] theorem moveDout_issued (b : Beat) (bs : List Beat) (s : State) : (moveDout b bs s).issued = s.issued := rfl
@[simp] theorem moveDout_cmd (b : Beat) (bs : List Beat) (s : State) : (moveDout b bs s).cmd = s.cmd := rfl
@[simp] theorem moveDout_din (b : Beat) (bs : List Beat) (s : State) : (moveDout b bs s).din = s.din := rfl
@[simp] theorem moveDout_out (b : Beat) (bs : List Beat) (s : State) : (moveDout b bs s).out = s.out ++ [.dout b] := rfl
@[simp] theorem moveDout_doutRoom (b : Beat) (bs : List Beat) (s : State) : (moveDout b bs s).doutRoom = s.doutRoom - 1 := rfl
@[simp] theorem moveDout_rspRoom (b : Beat) (bs : List Beat) (s : State) : (moveDout b bs s).rspRoom = s.rspRoom := rfl

/-! ### `moveRsp` -/

@[simp] theorem moveRsp_cfg (y : Response) (s : State) : (moveRsp y s).cfg = s.cfg := rfl
@[simp] theorem moveRsp_tt (y : Response) (s : State) : (moveRsp y s).tt = s.tt := rfl
@[simp] theorem moveRsp_ck (y : Response) (s : State) : (moveRsp y s).ck = s.ck := rfl
@[simp] theorem moveRsp_cl (y : Response) (s : State) : (moveRsp y s).cl = s.cl := rfl
@[simp] theorem moveRsp_busy (y : Response) (s : State) : (moveRsp y s).busy = s.fault.isSome := rfl
@[simp] theorem moveRsp_flt (y : Response) (s : State) : (moveRsp y s).flt = s.flt := rfl
@[simp] theorem moveRsp_err (y : Response) (s : State) : (moveRsp y s).err = y.err := rfl
@[simp] theorem moveRsp_res (y : Response) (s : State) : (moveRsp y s).res = y.res := rfl
@[simp] theorem moveRsp_fault (y : Response) (s : State) : (moveRsp y s).fault = s.fault := rfl
@[simp] theorem moveRsp_seq (y : Response) (s : State) : (moveRsp y s).seq = { s.seq with ph := .idle, plan := [] } := rfl
@[simp] theorem moveRsp_cur (y : Response) (s : State) : (moveRsp y s).cur = s.cur := rfl
@[simp] theorem moveRsp_dout (y : Response) (s : State) : (moveRsp y s).dout = s.dout := rfl
@[simp] theorem moveRsp_rsp (y : Response) (s : State) : (moveRsp y s).rsp = none := rfl
@[simp] theorem moveRsp_was (y : Response) (s : State) : (moveRsp y s).was = s.was := rfl
@[simp] theorem moveRsp_issued (y : Response) (s : State) : (moveRsp y s).issued = s.issued := rfl
@[simp] theorem moveRsp_cmd (y : Response) (s : State) : (moveRsp y s).cmd = s.cmd := rfl
@[simp] theorem moveRsp_din (y : Response) (s : State) : (moveRsp y s).din = s.din := rfl
@[simp] theorem moveRsp_out (y : Response) (s : State) : (moveRsp y s).out = s.out ++ [.rsp y.err y.res] := rfl
@[simp] theorem moveRsp_doutRoom (y : Response) (s : State) : (moveRsp y s).doutRoom = s.doutRoom := rfl
@[simp] theorem moveRsp_rspRoom (y : Response) (s : State) : (moveRsp y s).rspRoom = s.rspRoom - 1 := rfl

end Sys2Proof.Machine
end

