-- ==== Sys2Proof/Laws/Stream.lean ====
section
/-! SUPPORT. What taking a packet and emitting one can do, said once: `takeBeats` on a run of beats is a fold over the bytes of
the packet, and the framer's phases emit the bytes they are given. -/

namespace Sys2Proof.Machine

/-- The effect of the bytes of a packet on the sequencer, null beats aside. -/
def byteRun (f : ByteStep) : List Byte → Seq → Except FaultCode Seq
  | [], q => .ok q
  | x :: xs, q =>
    match f x { q with pos := q.pos + 1 } with
    | .error c => .error c
    | .ok q' => byteRun f xs q'

@[simp] theorem byteRun_nil (f : ByteStep) (q : Seq) : byteRun f [] q = .ok q := rfl

theorem byteRun_cons (f : ByteStep) (x : Byte) (xs : List Byte) (q : Seq) :
    byteRun f (x :: xs) q =
      match f x { q with pos := q.pos + 1 } with
      | .error c => .error c
      | .ok q' => byteRun f xs q' := rfl

theorem byteRun_append (f : ByteStep) (xs ys : List Byte) (q : Seq) :
    byteRun f (xs ++ ys) q =
      match byteRun f xs q with
      | .error c => .error c
      | .ok q' => byteRun f ys q' := by
  induction xs generalizing q with
  | nil => rfl
  | cons x xs ih =>
    simp only [List.cons_append, byteRun_cons]
    cases f x { q with pos := q.pos + 1 } with
    | error c => rfl
    | ok q' => exact ih q'

/-- One beat is the run of the bytes it carries, none or one. -/
theorem beatStep_eq_byteRun (f : ByteStep) (b : Beat) (q : Seq) : beatStep f b q = byteRun f b.bytes q := by
  obtain ⟨byte, last⟩ := b
  cases byte with
  | none => rfl
  | some x =>
    simp only [beatStep, countBeat, Beat.bytes, Option.toList, byteRun_cons]
    cases f x { q with pos := q.pos + 1 } <;> rfl

/-- The first packet, when it is all there, is what `availBytes` sees. -/
theorem availBytes_of_firstPacket {bs : List Beat} {p : List Byte} {rest : List Beat}
    (h : firstPacket bs = some (p, rest)) : availBytes bs = p := by
  induction bs generalizing p rest with
  | nil => simp [firstPacket] at h
  | cons b bs ih =>
    simp only [firstPacket, availBytes] at h ⊢
    cases hl : b.last with
    | true => simp_all
    | false =>
      simp only [hl, Bool.false_eq_true, if_false] at h ⊢
      cases hf : firstPacket bs with
      | none => simp [hf] at h
      | some pr =>
        obtain ⟨p', r'⟩ := pr
        simp only [hf, Option.some.injEq, Prod.mk.injEq] at h
        rw [ih hf, h.1]

/-- A packet that is all there and raises no fault ends with the fold over its bytes. -/
theorem takeBeats_ended {f : ByteStep} {bs : List Beat} {p : List Byte} {rest : List Beat} {q q' : Seq}
    (hp : firstPacket bs = some (p, rest)) (hr : byteRun f p q = .ok q') :
    takeBeats f bs q = .ended q' rest := by
  induction bs generalizing p q with
  | nil => simp [firstPacket] at hp
  | cons b bs ih =>
    simp only [firstPacket] at hp
    simp only [takeBeats, beatStep_eq_byteRun]
    cases hl : b.last with
    | true =>
      simp only [hl, if_true, Option.some.injEq, Prod.mk.injEq] at hp
      obtain ⟨rfl, rfl⟩ := hp
      simp [hr]
    | false =>
      simp only [hl, Bool.false_eq_true, if_false] at hp
      cases hf : firstPacket bs with
      | none => simp [hf] at hp
      | some pr =>
        obtain ⟨p', r'⟩ := pr
        simp only [hf, Option.some.injEq, Prod.mk.injEq] at hp
        obtain ⟨rfl, rfl⟩ := hp
        rw [byteRun_append] at hr
        cases hb : byteRun f b.bytes q with
        | error c => simp [hb] at hr
        | ok q1 =>
          simp only [hb] at hr
          simpa using ih hf hr

/-- A packet that is not all there and raises no fault leaves the command waiting, with every beat taken. -/
theorem takeBeats_waiting {f : ByteStep} {bs : List Beat} {q q' : Seq}
    (hp : firstPacket bs = none) (hr : byteRun f (availBytes bs) q = .ok q') :
    takeBeats f bs q = .waiting q' := by
  induction bs generalizing q with
  | nil => simpa [takeBeats, availBytes] using hr
  | cons b bs ih =>
    simp only [firstPacket, availBytes] at hp hr
    simp only [takeBeats, beatStep_eq_byteRun]
    cases hl : b.last with
    | true => simp [hl] at hp
    | false =>
      simp only [hl, Bool.false_eq_true, if_false] at hp hr
      cases hf : firstPacket bs with
      | some pr => simp [hf] at hp
      | none =>
        rw [byteRun_append] at hr
        cases hb : byteRun f b.bytes q with
        | error c => simp [hb] at hr
        | ok q1 =>
          simp only [hb] at hr
          simpa using ih hf hr

/-- A fault is raised at a beat that carries a byte, the bytes before it raise none, and no beat after it is taken. -/
theorem takeBeats_faulted {f : ByteStep} {bs : List Beat} {q : Seq} {c : FaultCode}
    (hr : byteRun f (availBytes bs) q = .error c) :
    ∃ (q1 q2 : Seq) (before : List Beat) (b : Byte) (last : Bool) (rest : List Beat),
      bs = before ++ ⟨some b, last⟩ :: rest ∧ byteRun f (before.flatMap Beat.bytes) q = .ok q1 ∧
        f b { q1 with pos := q1.pos + 1 } = .error c ∧
        (before.flatMap Beat.bytes ++ [b]) <+: availBytes bs ∧ takeBeats f bs q = .faulted c q2 rest := by
  induction bs generalizing q with
  | nil => simp [availBytes] at hr
  | cons b bs ih =>
    obtain ⟨byte, last⟩ := b
    cases byte with
    | none =>
      have hav : availBytes (⟨none, last⟩ :: bs) = if last then [] else availBytes bs := by
        cases last <;> rfl
      rw [hav] at hr
      cases last with
      | true => simp at hr
      | false =>
        obtain ⟨q1, q2, before, x, l, rest, rfl, h1, h2, h3, h4⟩ := ih hr
        exact ⟨q1, q2, ⟨none, false⟩ :: before, x, l, rest, by simp, by simpa [Beat.bytes] using h1, h2,
          by rw [hav]; simpa [Beat.bytes] using h3, by simp [takeBeats, beatStep, h4]⟩
    | some x =>
      have hav : availBytes (⟨some x, last⟩ :: bs) = x :: if last then [] else availBytes bs := by
        cases last <;> rfl
      rw [hav, byteRun_cons] at hr
      cases hf : f x { q with pos := q.pos + 1 } with
      | error d =>
        simp only [hf, Except.error.injEq] at hr
        subst hr
        exact ⟨q, { q with pos := q.pos + 1 }, [], x, last, bs, rfl, rfl, hf, by rw [hav]; simp,
          by simp [takeBeats, beatStep, countBeat, hf]⟩
      | ok q' =>
        simp only [hf] at hr
        cases last with
        | true => simp at hr
        | false =>
          obtain ⟨q1, q2, before, y, l, rest, rfl, h1, h2, h3, h4⟩ := ih hr
          refine ⟨q1, q2, ⟨some x, false⟩ :: before, y, l, rest, by simp, ?_, h2, ?_, ?_⟩
          · simp [Beat.bytes, byteRun_cons, hf, h1]
          · rw [hav]; simpa [Beat.bytes] using h3
          · simp [takeBeats, beatStep, countBeat, hf, h4]

/-- `runPacket` is one of its three ends. -/
theorem runPacket_cases (c : Consumer) (f : ByteStep) (finish : State → State) (s : State) :
    (∃ q, takeBeats f s.din s.seq = .waiting q ∧
      runPacket c f finish s = { s with din := [], seq := q, cur := some c }) ∨
    (∃ q rest, takeBeats f s.din s.seq = .ended q rest ∧
      runPacket c f finish s = finish { s with din := rest, seq := q }) ∨
    (∃ code q rest, takeBeats f s.din s.seq = .faulted code q rest ∧
      runPacket c f finish s = takeFault code { s with din := rest, seq := q }) := by
  unfold runPacket
  cases h : takeBeats f s.din s.seq with
  | waiting q => exact .inl ⟨q, rfl, rfl⟩
  | ended q rest => exact .inr (.inl ⟨q, rest, rfl, rfl⟩)
  | faulted code q rest => exact .inr (.inr ⟨code, q, rest, rfl, rfl⟩)

/-- A packet that is all there and raises no fault. -/
theorem runPacket_ended {c : Consumer} {f : ByteStep} {finish : State → State} {s : State} {p : List Byte}
    {rest : List Beat} {q : Seq} (hp : firstPacket s.din = some (p, rest)) (hr : byteRun f p s.seq = .ok q) :
    runPacket c f finish s = finish { s with din := rest, seq := q } := by
  simp [runPacket, takeBeats_ended hp hr]

/-- A packet that is not all there and raises no fault. -/
theorem runPacket_waiting {c : Consumer} {f : ByteStep} {finish : State → State} {s : State} {q : Seq}
    (hp : firstPacket s.din = none) (hr : byteRun f (availBytes s.din) s.seq = .ok q) :
    runPacket c f finish s = { s with din := [], seq := q, cur := some c } := by
  simp [runPacket, takeBeats_waiting hp hr]

/-- What `takeBeats` has done, from its answer. -/
theorem takeBeats_inv {f : ByteStep} {bs : List Beat} {q : Seq} :
    (∀ q', takeBeats f bs q = .waiting q' → firstPacket bs = none ∧ byteRun f (availBytes bs) q = .ok q') ∧
    (∀ q' rest, takeBeats f bs q = .ended q' rest →
      ∃ p, firstPacket bs = some (p, rest) ∧ byteRun f p q = .ok q') ∧
    (∀ c q' rest, takeBeats f bs q = .faulted c q' rest →
      (∃ before, bs = before ++ rest) ∧ byteRun f (availBytes bs) q = .error c) := by
  cases hr : byteRun f (availBytes bs) q with
  | error c =>
    obtain ⟨q1, q2, before, b, last, rest, e, h1, h2, h3, h4⟩ := takeBeats_faulted hr
    refine ⟨by simp [h4], by simp [h4], ?_⟩
    intro c' q' rest' h
    rw [h4] at h
    cases h
    exact ⟨⟨before ++ [⟨some b, last⟩], by simp [e]⟩, rfl⟩
  | ok q' =>
    cases hp : firstPacket bs with
    | none =>
      have := takeBeats_waiting hp hr
      exact ⟨by simp [this], by simp [this], by simp [this]⟩
    | some pr =>
      obtain ⟨p, rest⟩ := pr
      rw [availBytes_of_firstPacket hp] at hr
      have := takeBeats_ended hp hr
      refine ⟨by simp [this], ?_, by simp [this]⟩
      intro q'' rest'' h
      rw [this] at h
      cases h
      exact ⟨p, rfl, hr⟩

/-- A fault at a beat (60_exceptions.md R250): the beats before it and that one are taken. -/
theorem runPacket_faulted {c : Consumer} {f : ByteStep} {finish : State → State} {s : State} {code : FaultCode}
    {q : Seq} {rest : List Beat} (h : takeBeats f s.din s.seq = .faulted code q rest) :
    runPacket c f finish s = takeFault code { s with din := rest, seq := q } := by
  simp [runPacket, h]

/-- Beats that arrive while a command waits continue it as if they had been there. -/
theorem takeBeats_append {f : ByteStep} {early : List Beat} {q q' : Seq} (late : List Beat)
    (h : takeBeats f early q = .waiting q') : takeBeats f (early ++ late) q = takeBeats f late q' := by
  induction early generalizing q with
  | nil => simp_all [takeBeats]
  | cons b bs ih =>
    simp only [takeBeats, List.cons_append] at h ⊢
    cases hb : beatStep f b q with
    | error c => simp [hb] at h
    | ok q1 =>
      simp only [hb] at h ⊢
      cases hl : b.last with
      | true => simp [hl] at h
      | false =>
        simp only [hl, Bool.false_eq_true, if_false] at h ⊢
        exact ih h

/-! ## Packets out -/

theorem byteBeats_ne_nil {p : List Byte} (h : p ≠ []) : byteBeats p = p.dropLast.map (⟨some ·, false⟩) ++
    [⟨some (p.getLast h), true⟩] := by
  induction p with
  | nil => exact absurd rfl h
  | cons b bs ih =>
    cases bs with
    | nil => rfl
    | cons b' bs => simp [byteBeats, ih]

/-- The packet that PCC emits is a packet of those bytes (00_scope.md R6). -/
theorem firstPacket_packetBeats (p : List Byte) (rest : List Beat) :
    firstPacket (packetBeats p ++ rest) = some (p, rest) := by
  cases p with
  | nil => rfl
  | cons b bs =>
    simp only [packetBeats]
    induction bs generalizing b with
    | nil => rfl
    | cons b' bs ih => simp [byteBeats, firstPacket, ih, Beat.bytes]

/-- `s` with the beats `bs` owed and the sequencer at `q`. -/
def State.emitted (s : State) (q : Seq) (bs : List Beat) : State := { s with seq := q, dout := s.dout ++ bs }

theorem emitted_emitted (s : State) (q q' : Seq) (bs bs' : List Beat) :
    (s.emitted q bs).emitted q' bs' = s.emitted q' (bs ++ bs') := by
  simp [State.emitted]

theorem emitted_nil (s : State) : s.emitted s.seq [] = s := by simp [State.emitted]

@[simp] theorem emitted_cfg (s : State) (q : Seq) (bs : List Beat) : (s.emitted q bs).cfg = s.cfg := rfl

theorem emitByte_eq_emitted (m : Mark) (b : Byte) (last : Bool) (s : State) :
    emitByte m b last s = s.emitted { s.seq with plan := s.seq.plan ++ [m] } [⟨some b, last⟩] := rfl

/-- The beats of bytes that do not end a packet. -/
def innerBeats (p : List Byte) : List Beat := p.map fun b => ⟨some b, false⟩

/-- A field that does not end the packet emits its bytes, none of them last; the shadow list stays. -/
theorem emitField_out (ph : Phase) (lenr : Word) (i : Nat) (p : List Byte) (s : State) :
    ∃ q, q.sl = s.seq.sl ∧ emitField ph lenr false i p s = s.emitted q (innerBeats p) := by
  induction p generalizing i s with
  | nil => exact ⟨s.seq, rfl, (emitted_nil s).symm⟩
  | cons b bs ih =>
    obtain ⟨q, hs, hq⟩ := ih (i + 1) (emitByte ⟨ph, i, lenr⟩ b false s)
    exact ⟨q, hs, by rw [emitField, Bool.false_and, hq, emitByte_eq_emitted, emitted_emitted]; rfl⟩

/-- A field that ends the packet emits its bytes, the last one last; the shadow list stays. -/
theorem emitField_final_out (ph : Phase) (lenr : Word) (i : Nat) (p : List Byte) (hp : p ≠ []) (s : State) :
    ∃ q, q.sl = s.seq.sl ∧ emitField ph lenr true i p s = s.emitted q (byteBeats p) := by
  induction p generalizing i s with
  | nil => exact absurd rfl hp
  | cons b bs ih =>
    cases bs with
    | nil => exact ⟨{ s.seq with plan := s.seq.plan ++ [⟨ph, i, lenr⟩] }, rfl, rfl⟩
    | cons b' bs =>
      obtain ⟨q, hs, hq⟩ := ih (i + 1) (by simp) (emitByte ⟨ph, i, lenr⟩ b false s)
      exact ⟨q, hs, by
        rw [emitField, List.isEmpty_cons, Bool.and_false, hq, emitByte_eq_emitted, emitted_emitted]; rfl⟩

/-- The payload phase emits the payload, no byte of it last; the shadow list stays. -/
theorem emitPayload_out (lenr : Word) (p : List Byte) (s : State) :
    ∃ q, q.sl = s.seq.sl ∧ emitPayload lenr p s = s.emitted q (innerBeats p) := by
  induction p generalizing s with
  | nil => exact ⟨s.seq, rfl, (emitted_nil s).symm⟩
  | cons b bs ih =>
    obtain ⟨q, hs, hq⟩ := ih (emitByte ⟨.sPay, 0, lenr⟩ b false s)
    exact ⟨q, hs, by rw [emitPayload, hq, emitByte_eq_emitted, emitted_emitted]; rfl⟩

/-- Bytes before the last one of a packet. -/
theorem byteBeats_append (p r : List Byte) (hr : r ≠ []) : byteBeats (p ++ r) = innerBeats p ++ byteBeats r := by
  induction p with
  | nil => rfl
  | cons b bs ih =>
    cases h : bs ++ r with
    | nil => simp_all
    | cons x xs => simpa [byteBeats, h, innerBeats] using h ▸ ih

@[simp] theorem Seq.advance_sl (q : Seq) : q.advance.sl = q.sl := by
  unfold Seq.advance
  split <;> rfl

/-- An output by phases owes the beats that its layout owes. -/
theorem emitPhases_out {emit : State → State} {s : State} {bs : List Beat}
    (h : ∀ s : State, ∃ q, q.sl = s.seq.sl ∧ emit s = s.emitted q bs) :
    ∃ q, q.sl = s.seq.sl ∧ emitPhases emit s = s.emitted q bs := by
  obtain ⟨q, h1, h2⟩ := h { s with seq := { s.seq with plan := [] } }
  exact ⟨q.advance, by simpa using h1, by simp only [emitPhases, h2]; rfl⟩

end Sys2Proof.Machine
end

