-- ==== Sys2Proof/Laws/Ends.lean ====
section
/-! SUPPORT. The ends of a command in the terms of claims: what `respond`, `emitPacket` and `takeFault` leave is what Safety.lean
writes out field by field; and what each check on an object register can do. -/

namespace Sys2Proof.Machine

theorem cmdTaken_eq_taken (s : State) : cmdTaken s = s.taken := rfl

theorem respond_eq_replying (e : ErrCode) (r : Word) (s : State) : respond e r s = s.replying s.seq e r none := rfl

theorem raiseError_eq_replying (e : ErrCode) (s : State) : raiseError e s = s.replying s.seq e 0 none :=
  respond_eq_replying e 0 s

theorem respond_emitPacket (e : ErrCode) (r : Word) (p : List Byte) (s : State) :
    respond e r (emitPacket p s) = s.replying { s.seq with plan := [] } e r (some p) := rfl

theorem takeFault_eq_haltedBy (c : FaultCode) (s : State) : takeFault c s = s.haltedBy s.seq c := by
  obtain ⟨_, _, _, _, _, _, _, _, fault, _, _, _, _, _, _, _, _, _, _, _⟩ := s
  cases fault <;> cases c <;> rfl

theorem takeFault_cmdTaken (c : FaultCode) (s : State) : takeFault c (cmdTaken s) = s.taken.haltedBy s.seq c :=
  takeFault_eq_haltedBy c (cmdTaken s)

theorem needTag_none {s : State} (h : s.tt = none) (k : TypeTag → State) :
    needTag (cmdTaken s) k = s.taken.haltedBy s.seq .unwritten := by
  simp [needTag, h, takeFault_cmdTaken]

theorem needTag_some {s : State} {x : TypeTag} (h : s.tt = some x) (k : TypeTag → State) :
    needTag (cmdTaken s) k = k x := by
  simp [needTag, h]

/-- The four bytes are there exactly when the length is 4. -/
theorem four_eq_some_iff (x : TypeTag) (t : Tag) : x.four = some t ↔ x = .len4 t := by
  cases x <;> simp [TypeTag.four]

theorem four_eq_none_iff (x : TypeTag) : x.four = none ↔ x.n ≠ 4 := by
  cases x <;> simp [TypeTag.four, TypeTag.n]

theorem needFour_none {s : State} (h : s.tt = none) (k : Tag → State) :
    needFour (cmdTaken s) k = s.taken.haltedBy s.seq .unwritten := needTag_none h _

theorem needFour_short {s : State} {x : TypeTag} (h : s.tt = some x) (hn : x.n ≠ 4) (k : Tag → State) :
    needFour (cmdTaken s) k = s.taken.haltedBy s.seq .tagLen := by
  rw [needFour, needTag_some h, (four_eq_none_iff x).mpr hn, takeFault_cmdTaken]

theorem needFour_some {s : State} {t : Tag} (h : s.tt = some (.len4 t)) (k : Tag → State) :
    needFour (cmdTaken s) k = k t := needTag_some h _

/-- All that a read of the four tag bytes can do. -/
theorem needFour_cases (s : State) (k : Tag → State) :
    (∃ c, needFour (cmdTaken s) k = s.taken.haltedBy s.seq c) ∨
    ∃ t, s.tt = some (.len4 t) ∧ needFour (cmdTaken s) k = k t := by
  cases h : s.tt with
  | none => exact .inl ⟨_, needFour_none h k⟩
  | some x =>
    cases hf : x.four with
    | none => exact .inl ⟨_, needFour_short h ((four_eq_none_iff x).mp hf) k⟩
    | some t =>
      obtain rfl := (four_eq_some_iff x t).mp hf
      exact .inr ⟨t, rfl, needFour_some h k⟩

/-- All that a read of `TT` can do. -/
theorem needTag_cases (s : State) (k : TypeTag → State) :
    needTag (cmdTaken s) k = s.taken.haltedBy s.seq .unwritten ∨ ∃ x, s.tt = some x ∧ needTag (cmdTaken s) k = k x := by
  cases h : s.tt with
  | none => exact .inl (needTag_none h k)
  | some x => exact .inr ⟨x, rfl, needTag_some h k⟩

theorem needChunk_none {s : State} (h : s.ck = none) (k : Chunk → State) :
    needChunk (cmdTaken s) k = s.taken.haltedBy s.seq .unwritten := by
  simp [needChunk, h, takeFault_cmdTaken]

theorem needChunk_some {s : State} {c : Chunk} (h : s.ck = some c) (k : Chunk → State) :
    needChunk (cmdTaken s) k = k c := by
  simp [needChunk, h]

/-- All that a read of `CK` can do. -/
theorem needChunk_cases (s : State) (k : Chunk → State) :
    needChunk (cmdTaken s) k = s.taken.haltedBy s.seq .unwritten ∨ ∃ c, s.ck = some c ∧ needChunk (cmdTaken s) k = k c := by
  cases h : s.ck with
  | none => exact .inl (needChunk_none h k)
  | some c => exact .inr ⟨c, rfl, needChunk_some h k⟩

theorem needList_none {s : State} (h : s.cl = none) (k : List Chunk → State) :
    needList (cmdTaken s) k = s.taken.haltedBy s.seq .unwritten := by
  simp [needList, h, takeFault_cmdTaken]

theorem needList_some {s : State} {l : List Chunk} (h : s.cl = some l) (k : List Chunk → State) :
    needList (cmdTaken s) k = k l := by
  simp [needList, h]

/-- All that a read of `CL` can do. -/
theorem needList_cases (s : State) (k : List Chunk → State) :
    needList (cmdTaken s) k = s.taken.haltedBy s.seq .unwritten ∨ ∃ l, s.cl = some l ∧ needList (cmdTaken s) k = k l := by
  cases h : s.cl with
  | none => exact .inl (needList_none h k)
  | some l => exact .inr ⟨l, rfl, needList_some h k⟩

/-- The framer emits the record; when it ends the packet, as one packet (42_chunk.md R162, R167). The shadow list stays. -/
theorem emitRecord_out (final : Bool) (c : Chunk) (s : State) :
    ∃ q, q.sl = s.seq.sl ∧ emitRecord final c s =
      s.emitted q (if final then byteBeats (serChunk c) else innerBeats (serChunk c)) := by
  obtain ⟨q1, s1, h1⟩ := emitField_out .sLen c.len 0 (be32Bytes c.len) s
  obtain ⟨q2, s2, h2⟩ := emitField_out .sTag c.len 0 c.tag.toList (s.emitted q1 (innerBeats (be32Bytes c.len)))
  rw [emitted_emitted] at h2
  obtain ⟨q3, s3, h3⟩ := emitPayload_out c.len c.data
    (s.emitted q2 (innerBeats (be32Bytes c.len) ++ innerBeats c.tag.toList))
  rw [emitted_emitted] at h3
  have hne : be32Bytes c.crc ≠ [] := by simp [be32Bytes, Tag.toList]
  simp only [State.emitted] at s2 s3
  simp only [emitRecord, h1, h2, h3]
  cases final with
  | false =>
    obtain ⟨q4, s4, h4⟩ := emitField_out .sCrc c.len 0 (be32Bytes c.crc)
      (s.emitted q3 (innerBeats (be32Bytes c.len) ++ innerBeats c.tag.toList ++ innerBeats c.data))
    refine ⟨q4, by rw [s4, State.emitted, s3, s2, s1], ?_⟩
    rw [h4, emitted_emitted]
    simp [State.emitted, serChunk, innerBeats]
  | true =>
    obtain ⟨q4, s4, h4⟩ := emitField_final_out .sCrc c.len 0 (be32Bytes c.crc) hne
      (s.emitted q3 (innerBeats (be32Bytes c.len) ++ innerBeats c.tag.toList ++ innerBeats c.data))
    refine ⟨q4, by rw [s4, State.emitted, s3, s2, s1], ?_⟩
    rw [h4, emitted_emitted]
    simp [State.emitted, serChunk, byteBeats_append _ _ hne, innerBeats, ← List.append_assoc]

theorem serChunk_ne_nil (c : Chunk) : serChunk c ≠ [] := by simp [serChunk, be32Bytes, Tag.toList]

/-- The records of a non-empty list, the last one ending the packet (43_container.md R213). The shadow list stays. -/
theorem emitRecords_out (l : List Chunk) (hl : l ≠ []) (s : State) :
    ∃ q, q.sl = s.seq.sl ∧ emitRecords l s = s.emitted q (byteBeats (l.flatMap serChunk)) := by
  induction l generalizing s with
  | nil => exact absurd rfl hl
  | cons c cs ih =>
    obtain ⟨q1, s1, h1⟩ := emitRecord_out cs.isEmpty c s
    cases cs with
    | nil => exact ⟨q1, s1, by simpa [emitRecords] using h1⟩
    | cons d ds =>
      have hne : (d :: ds).flatMap serChunk ≠ [] := by simp [serChunk_ne_nil]
      obtain ⟨q2, s2, h2⟩ := ih (by simp) (s.emitted q1 (innerBeats (serChunk c)))
      refine ⟨q2, by rw [s2, State.emitted, s1], ?_⟩
      simp only [List.isEmpty_cons, Bool.false_eq_true, if_false] at h1
      have hcons : (c :: d :: ds).flatMap serChunk = serChunk c ++ (d :: ds).flatMap serChunk := rfl
      rw [emitRecords, List.isEmpty_cons, h1, h2, emitted_emitted, hcons, byteBeats_append _ _ hne]

theorem packetBeats_eq_byteBeats {p : List Byte} (h : p ≠ []) : packetBeats p = byteBeats p := by
  cases p with
  | nil => exact absurd rfl h
  | cons b bs => rfl

theorem magic_ne_nil (cfg : Config) : cfg.magic.toList ≠ [] := by
  intro h
  have := cfg.magic.length_toList
  simp [h] at this

/-- The serialization multiplexer emits the stream as one packet (43_container.md R201, R213). The shadow list stays. -/
theorem emitContainer_out (l : List Chunk) (s : State) :
    ∃ q, q.sl = s.seq.sl ∧ emitContainer l s = s.emitted q (packetBeats (ctSer s.cfg l)) := by
  cases l with
  | nil =>
    obtain ⟨q, hs, h⟩ := emitField_final_out .sMagic s.seq.lenr 0 s.cfg.magic.toList (magic_ne_nil s.cfg) s
    refine ⟨q, hs, ?_⟩
    simpa [emitContainer, emitRecords, ctSer, packetBeats_eq_byteBeats (magic_ne_nil s.cfg)] using h
  | cons c cs =>
    have hne : (c :: cs).flatMap serChunk ≠ [] := by simp [serChunk_ne_nil]
    obtain ⟨q1, s1, h1⟩ := emitField_out .sMagic s.seq.lenr 0 s.cfg.magic.toList s
    obtain ⟨q2, s2, h2⟩ := emitRecords_out (c :: cs) (by simp) (s.emitted q1 (innerBeats s.cfg.magic.toList))
    refine ⟨q2, by rw [s2, State.emitted, s1], ?_⟩
    rw [emitContainer, List.isEmpty_cons, h1, h2, emitted_emitted, ctSer,
      packetBeats_eq_byteBeats (by simp), byteBeats_append _ _ hne]

/-- A response after the emission of a packet. -/
theorem respond_emitted (e : ErrCode) (r : Word) (p : List Byte) (q : Seq) (s : State) :
    respond e r (s.emitted q (packetBeats p)) = s.replying q e r (some p) := rfl

/-- `CH.SER` owes the record of the chunk (R167, R177). -/
theorem chSer_replying (c : Chunk) (s : State) :
    ∃ q, q.sl = s.seq.sl ∧ respond .ok 0 (emitPhases (emitRecord true c) s) = s.replying q .ok 0 (some (serChunk c)) := by
  obtain ⟨q, h1, h2⟩ := emitPhases_out (s := s) (emitRecord_out true c)
  refine ⟨q, h1, ?_⟩
  rw [h2, if_pos rfl, ← packetBeats_eq_byteBeats (serChunk_ne_nil c), respond_emitted]

/-- `CT.SER` owes the container stream (R208, R213). -/
theorem ctSer_replying (l : List Chunk) (s : State) :
    ∃ q, q.sl = s.seq.sl ∧ respond .ok 0 (emitPhases (emitContainer l) s) = s.replying q .ok 0 (some (ctSer s.cfg l)) := by
  obtain ⟨q, h1, h2⟩ := emitContainer_out l { s with seq := { s.seq with plan := [] } }
  exact ⟨q.advance, by simpa using h1, by simp only [emitPhases, h2]; rfl⟩

end Sys2Proof.Machine
end

