-- ==== Sys2Proof/Laws/Encoding.lean ====
section
/-! SUPPORT. The fields of a command word (30_encoding.md R90) and the packing of four tag bytes (R91) are inverse to putting
the fields together. -/

namespace Sys2Proof

@[simp] theorem opOf_append (op : Byte) (arg : Word) : opOf (op ++ arg) = op := by
  apply BitVec.eq_of_getLsbD_eq
  intro i hi
  simp only [opOf, BitVec.getLsbD_extractLsb', BitVec.getLsbD_append]
  simp [hi, show ¬ (32 + i < 32) by omega]

@[simp] theorem argOf_append (op : Byte) (arg : Word) : argOf (op ++ arg) = arg := by
  apply BitVec.eq_of_getLsbD_eq
  intro i hi
  simp only [argOf, BitVec.getLsbD_extractLsb', BitVec.getLsbD_append]
  simp [hi]

theorem opOf_append_argOf (w : CmdWord) : (opOf w ++ argOf w : CmdWord) = w := by
  apply BitVec.eq_of_getLsbD_eq
  intro i hi
  simp only [opOf, argOf, BitVec.getLsbD_append, BitVec.getLsbD_extractLsb']
  by_cases h : i < 32
  · simp [h]
  · simp [h, show i - 32 < 8 by omega, show 32 + (i - 32) = i by omega]

/-- The bits of four packed bytes. -/
theorem Tag.getLsbD_toWord (t : Tag) (i : Nat) : t.toWord.getLsbD i =
    if i < 8 then t.b3.getLsbD i
    else if i < 16 then t.b2.getLsbD (i - 8)
    else if i < 24 then t.b1.getLsbD (i - 16)
    else t.b0.getLsbD (i - 24) := by
  simp only [Tag.toWord, BitVec.getLsbD_append]
  by_cases h0 : i < 8
  · simp [h0]
  · by_cases h1 : i < 16
    · simp [h0, h1, show i - 8 < 8 by omega]
    · by_cases h2 : i < 24
      · simp [h0, h1, h2, show ¬ (i - 8 < 8) by omega, show i - 8 - 8 = i - 16 by omega,
          show i - 16 < 8 by omega]
      · simp [h0, h1, h2, show ¬ (i - 8 < 8) by omega, show ¬ (i - 8 - 8 < 8) by omega,
          show i - 8 - 8 - 8 = i - 24 by omega]

@[simp] theorem Tag.ofWord_toWord (t : Tag) : Tag.ofWord t.toWord = t := by
  obtain ⟨b0, b1, b2, b3⟩ := t
  simp only [Tag.ofWord, Tag.mk.injEq]
  refine ⟨?_, ?_, ?_, ?_⟩ <;> apply BitVec.eq_of_getLsbD_eq <;> intro i hi <;>
    simp only [BitVec.getLsbD_extractLsb', Tag.getLsbD_toWord, hi, decide_true, Bool.true_and]
  · simp [show ¬ (24 + i < 8) by omega, show ¬ (24 + i < 16) by omega]
  · simp [show ¬ (16 + i < 8) by omega, show 16 + i < 24 by omega]
  · simp [show 8 + i < 16 by omega]
  · simp [hi]

@[simp] theorem Tag.toWord_ofWord (v : Word) : (Tag.ofWord v).toWord = v := by
  apply BitVec.eq_of_getLsbD_eq
  intro i hi
  simp only [Tag.getLsbD_toWord, Tag.ofWord, BitVec.getLsbD_extractLsb']
  by_cases h0 : i < 8
  · simp [h0]
  · by_cases h1 : i < 16
    · simp [h0, h1, show i - 8 < 8 by omega, show 8 + (i - 8) = i by omega]
    · by_cases h2 : i < 24
      · simp [h0, h1, h2, show i - 16 < 8 by omega, show 16 + (i - 16) = i by omega]
      · simp [h0, h1, h2, show i - 24 < 8 by omega, show 24 + (i - 24) = i by omega]

/-- `zeroArg` accepts only `arg = 0` (R93). -/
theorem zeroArg_eq_ok (op : Byte) (arg : Word) (i j : Instr) : zeroArg op arg i = .ok j ↔ arg = 0 ∧ i = j := by
  unfold zeroArg
  split <;> simp_all

@[simp] theorem Tag.length_toList (t : Tag) : t.toList.length = 4 := rfl

theorem Tag.toList_inj {t u : Tag} : t.toList = u.toList ↔ t = u := by
  obtain ⟨a0, a1, a2, a3⟩ := t
  obtain ⟨b0, b1, b2, b3⟩ := u
  simp [Tag.toList]

end Sys2Proof
end

