-- ==== Sys2Proof/Laws/Fields.lean ====
section
/-! SUPPORT. The four-byte fields (20_memory.md R54, R57), slices, the text latch and the running checksum: what the per-beat
forms collect is what the functions of byte strings say. -/

namespace Sys2Proof.Machine

/-! ## Big-endian fields -/

/-- Four bytes packed are their value as a big-endian number (30_encoding.md R91). -/
theorem toNat_toWord (t : Tag) : t.toWord.toNat =
    t.b0.toNat * 2 ^ 24 + t.b1.toNat * 2 ^ 16 + t.b2.toNat * 2 ^ 8 + t.b3.toNat := by
  have h1 := t.b1.isLt
  have h2 := t.b2.isLt
  have h3 := t.b3.isLt
  simp only [Tag.toWord, BitVec.toNat_append]
  rw [← Nat.shiftLeft_add_eq_or_of_lt h3, ← Nat.shiftLeft_add_eq_or_of_lt h2, ← Nat.shiftLeft_add_eq_or_of_lt h1]
  simp only [Nat.shiftLeft_eq]
  omega

theorem be32_toList (t : Tag) : be32 t.toList = t.toWord := by
  apply BitVec.eq_of_toNat_eq
  have h := toNat_toWord t
  have := t.toWord.isLt
  simp only [be32, Tag.toList, beNat, List.length_cons, List.length_nil, BitVec.toNat_ofNat]
  omega

/-- `be32(BE32(v)) = v` (00_scope.md section 6). -/
@[simp] theorem be32_be32Bytes (v : Word) : be32 (be32Bytes v) = v := by
  rw [be32Bytes, be32_toList, Tag.toWord_ofWord]

@[simp] theorem length_be32Bytes (v : Word) : (be32Bytes v).length = 4 := rfl

/-- `v <- (v << 8) | b`, four times from 0 (40_crc.md R119 (b)). -/
theorem shiftIn_four (b0 b1 b2 b3 : Byte) :
    shiftIn (shiftIn (shiftIn (shiftIn 0 b0) b1) b2) b3 = be32 [b0, b1, b2, b3] := by
  rw [show [b0, b1, b2, b3] = (Tag.mk b0 b1 b2 b3).toList from rfl, be32_toList]
  apply BitVec.eq_of_getLsbD_eq
  intro i hi
  simp only [shiftIn, Tag.getLsbD_toWord, BitVec.getLsbD_or, BitVec.getLsbD_shiftLeft, BitVec.getLsbD_setWidth]
  by_cases h0 : i < 8
  · simp [h0, hi]
  · by_cases h1 : i < 16
    · simp [h0, h1, hi, show i - 8 < 8 by omega, BitVec.getLsbD_of_ge b3 i (by omega), show i - 8 < 32 by omega]
    · by_cases h2 : i < 24
      · simp [h0, h1, h2, hi, show ¬ (i - 8 < 8) by omega,
          BitVec.getLsbD_of_ge b3 i (by omega), BitVec.getLsbD_of_ge b2 (i - 8) (by omega), show i - 8 < 32 by omega,
          show i - 8 - 8 = i - 16 by omega, show i - 16 < 8 by omega, show i - 16 < 32 by omega]
      · simp [h0, h1, h2, hi, show ¬ (i - 8 < 8) by omega, show ¬ (i - 8 - 8 < 8) by omega,
          BitVec.getLsbD_of_ge b3 i (by omega), BitVec.getLsbD_of_ge b2 (i - 8) (by omega), show i - 8 < 32 by omega,
          BitVec.getLsbD_of_ge b1 (i - 8 - 8) (by omega), show i - 8 - 8 < 32 by omega,
          show i - 8 - 8 - 8 = i - 24 by omega, show i - 24 < 8 by omega,
          show i - 24 < 32 by omega]

/-! ## Slices -/

theorem slice_drop (s : List Byte) (off i j : Nat) : slice (s.drop off) i j = slice s (off + i) (off + j) := by
  simp [slice, show off + j - (off + i) = j - i by omega]

theorem length_slice (s : List Byte) (i j : Nat) : (slice s i j).length = min (j - i) (s.length - i) := by
  simp [slice]

/-- A slice that is all there. -/
theorem slice_append_right (s r : List Byte) (i j : Nat) (h : j ≤ s.length) : slice (s ++ r) i j = slice s i j := by
  by_cases hi : i ≤ s.length
  · simp only [slice, List.drop_append_of_le_length hi]
    rw [List.take_append_of_le_length (by simp; omega)]
  · have h0 : j - i = 0 := by omega
    simp [slice, h0]

/-! ## The text latch -/

/-- The text latch after a packet keeps what `TT` keeps of the text (10_state.md R21). -/
theorem foldl_push (p : List Byte) : p.foldl TypeTag.push .len0 = TypeTag.ofText p := by
  have hlong : ∀ (t : Tag) (r : List Byte), r.foldl TypeTag.push (.long t) = .long t := by
    intro t r
    induction r with
    | nil => rfl
    | cons b bs ih => simpa [TypeTag.push] using ih
  match p with
  | [] => rfl
  | [_] => rfl
  | [_, _] => rfl
  | [_, _, _] => rfl
  | [_, _, _, _] => rfl
  | _ :: _ :: _ :: _ :: _ :: _ => simp [TypeTag.push, TypeTag.ofText, hlong]

theorem ofText_n (p : List Byte) : (TypeTag.ofText p).n = min p.length 5 := by
  match p with
  | [] => rfl
  | [_] => rfl
  | [_, _] => rfl
  | [_, _, _] => rfl
  | [_, _, _, _] => rfl
  | _ :: _ :: _ :: _ :: _ :: r => simp [TypeTag.ofText, TypeTag.n]

theorem ofText_b (p : List Byte) : (TypeTag.ofText p).b = p.take (min p.length 4) := by
  match p with
  | [] => rfl
  | [_] => rfl
  | [_, _] => rfl
  | [_, _, _] => rfl
  | [_, _, _, _] => rfl
  | _ :: _ :: _ :: _ :: _ :: r => simp [TypeTag.ofText, TypeTag.b, Tag.toList]

/-- Only the four bytes themselves give a text of length 4. -/
theorem ofText_eq_len4 (p : List Byte) (t : Tag) : TypeTag.ofText p = .len4 t ↔ p = t.toList := by
  obtain ⟨t0, t1, t2, t3⟩ := t
  match p with
  | [] => simp [TypeTag.ofText, Tag.toList]
  | [_] => simp [TypeTag.ofText, Tag.toList]
  | [_, _] => simp [TypeTag.ofText, Tag.toList]
  | [_, _, _] => simp [TypeTag.ofText, Tag.toList]
  | [_, _, _, _] => simp [TypeTag.ofText, Tag.toList]
  | _ :: _ :: _ :: _ :: _ :: _ => simp [TypeTag.ofText, Tag.toList]

/-! ## The running checksum -/

@[simp] theorem crcFold_nil (cfg : Config) (c : Word) : crcFold cfg c [] = c := rfl

theorem crcFold_append (cfg : Config) (c : Word) (a b : List Byte) :
    crcFold cfg c (a ++ b) = crcFold cfg (crcFold cfg c a) b := by
  simp [crcFold]

theorem crcFold_snoc (cfg : Config) (c : Word) (a : List Byte) (b : Byte) :
    crcFold cfg c (a ++ [b]) = crcByte cfg (crcFold cfg c a) b := by
  simp [crcFold]

theorem crcMatch_iff (cfg : Config) (s : List Byte) (x : Word) :
    crcMatch cfg (crcFold cfg cfg.crcInit s) x = (crc32 cfg s == x) := rfl

/-! ## The bytes of the packets of `CRC.GEN`, `CRC.VFY` and of the text commands -/

theorem byteRun_crcFeed (cfg : Config) (p : List Byte) (q : Seq) :
    byteRun (crcFeed cfg) p q = .ok { q with pos := q.pos + p.length, crcR := crcFold cfg q.crcR p } := by
  induction p generalizing q with
  | nil => rfl
  | cons b bs ih =>
    rw [byteRun_cons]
    simp only [crcFeed]
    rw [ih]
    simp [crcFold, Nat.add_comm, Nat.add_assoc]

end Sys2Proof.Machine
end

