-- ==== Sys2Proof/Laws/Record.lean ====
section
/-! SUPPORT. The record parser per beat (42_chunk.md R165) over whole fields and whole records, beside `parse_record` (R163):
what a run over a complete record, over a record that is cut short and over a payload that is too long gives. -/

namespace Sys2Proof.Machine

/-! ## The other packets -/

theorem byteRun_textFeed (p : List Byte) (q : Seq) :
    byteRun textFeed p q = .ok { q with pos := q.pos + p.length, txt := p.foldl TypeTag.push q.txt } := by
  induction p generalizing q with
  | nil => rfl
  | cons b bs ih =>
    rw [byteRun_cons]
    simp only [textFeed]
    rw [ih]
    simp [Nat.add_comm, Nat.add_assoc]

theorem byteRun_chNewByte (cfg : Config) (p : List Byte) (q : Seq)
    (h : q.stage.length + p.length ≤ cfg.payloadMax.toNat) :
    byteRun (chNewByte cfg) p q =
      .ok { q with pos := q.pos + p.length, stage := q.stage ++ p, crcR := crcFold cfg q.crcR p } := by
  induction p generalizing q with
  | nil => simp
  | cons b bs ih =>
    simp only [List.length_cons] at h
    rw [byteRun_cons]
    simp only [chNewByte, show ¬ (q.stage.length = cfg.payloadMax.toNat) by omega, if_false]
    rw [ih _ (by simp; omega)]
    simp [crcFold, Nat.add_comm, Nat.add_assoc]

theorem byteRun_chNewByte_over (cfg : Config) (p : List Byte) (q : Seq)
    (h : cfg.payloadMax.toNat < q.stage.length + p.length) (hq : q.stage.length ≤ cfg.payloadMax.toNat) :
    byteRun (chNewByte cfg) p q = .error .capacity := by
  induction p generalizing q with
  | nil => simp at h; omega
  | cons b bs ih =>
    simp only [List.length_cons] at h
    rw [byteRun_cons]
    by_cases he : q.stage.length = cfg.payloadMax.toNat
    · simp [chNewByte, he]
    · simp only [chNewByte, he, if_false]
      exact ih _ (by simp; omega) (by simp; omega)

/-! ## The fields of a record -/

section
variable (cfg : Config) (accept : Chunk → Seq → Except FaultCode Seq)

theorem byteRun_lenField (b0 b1 b2 b3 : Byte) (q : Seq) (hp : q.ph = .len) (hi : q.idx = 0) :
    byteRun (recordByte cfg accept) [b0, b1, b2, b3] q =
      .ok { q with
        pos := q.pos + 4, lenr := be32 [b0, b1, b2, b3], ph := .tag, idx := 0, crcR := cfg.crcInit } := by
  simp [byteRun, recordByte, lenByte, hp, hi, ← shiftIn_four]

theorem byteRun_tagField (b0 b1 b2 b3 : Byte) (q : Seq) (hp : q.ph = .tag) (hi : q.idx = 0) :
    byteRun (recordByte cfg accept) [b0, b1, b2, b3] q =
      .ok { q with
        pos := q.pos + 4, tagr := ⟨b0, b1, b2, b3⟩, crcR := crcFold cfg q.crcR [b0, b1, b2, b3], idx := 0,
        rem := q.lenr.toNat, stage := [], ph := if q.lenr = 0 then .crc else .pay } := by
  simp [byteRun, recordByte, tagByte, hp, hi, Tag.set, crcFold]

theorem byteRun_payField (p : List Byte) (q : Seq) (hp : q.ph = .pay) (h0 : 0 < q.rem) (hr : p.length ≤ q.rem)
    (hm : q.stage.length + p.length ≤ cfg.payloadMax.toNat) :
    byteRun (recordByte cfg accept) p q =
      .ok { q with
        pos := q.pos + p.length, stage := q.stage ++ p, crcR := crcFold cfg q.crcR p, rem := q.rem - p.length,
        ph := if p.length = q.rem then .crc else .pay, idx := if p.length = q.rem then 0 else q.idx } := by
  induction p generalizing q with
  | nil => simp [show ¬ (0 = q.rem) by omega, ← hp]
  | cons b bs ih =>
    simp only [List.length_cons] at hr hm
    rw [byteRun_cons]
    simp only [recordByte, hp, payByte, show ¬ (q.stage.length = cfg.payloadMax.toNat) by omega, if_false]
    by_cases h1 : q.rem = 1
    · have hb : bs = [] := List.length_eq_zero_iff.mp (by omega)
      subst hb
      simp [h1, crcFold]
    · rw [ih _ (by simp [show ¬ (q.rem - 1 = 0) by omega]) (by simp [show ¬ (q.rem - 1 = 0) by omega]; omega)
        (by simp [show ¬ (q.rem - 1 = 0) by omega]; omega) (by simp [show ¬ (q.rem - 1 = 0) by omega]; omega)]
      simp [show ¬ (q.rem - 1 = 0) by omega, crcFold, show bs.length = q.rem - 1 ↔ bs.length + 1 = q.rem by omega,
        Nat.add_comm, Nat.add_assoc, Nat.sub_sub]

theorem byteRun_payField_over (p : List Byte) (q : Seq) (hp : q.ph = .pay) (hr : p.length ≤ q.rem)
    (hq : q.stage.length ≤ cfg.payloadMax.toNat) (hm : cfg.payloadMax.toNat < q.stage.length + p.length) :
    byteRun (recordByte cfg accept) p q = .error .capacity := by
  induction p generalizing q with
  | nil => simp at hm; omega
  | cons b bs ih =>
    simp only [List.length_cons] at hr hm
    rw [byteRun_cons]
    by_cases he : q.stage.length = cfg.payloadMax.toNat
    · simp [recordByte, hp, payByte, he]
    · simp only [recordByte, hp, payByte, he, if_false]
      have h1 : ¬ (q.rem - 1 = 0) := by
        have : bs.length ≠ 0 := by omega
        omega
      exact ih _ (by simp [h1]) (by simp [h1]; omega) (by simp [h1]; omega) (by simp [h1]; omega)

theorem byteRun_crcField (b0 b1 b2 b3 : Byte) (q : Seq) (hp : q.ph = .crc) (hi : q.idx = 0) :
    byteRun (recordByte cfg accept) [b0, b1, b2, b3] q =
      recordComplete cfg accept { q with pos := q.pos + 4, crcX := be32 [b0, b1, b2, b3], idx := 4 } := by
  simp [byteRun, recordByte, crcFieldByte, hp, hi, ← shiftIn_four]
  split <;> simp_all

theorem byteRun_drain (p : List Byte) (q : Seq) (hp : q.ph = .drain) :
    byteRun (recordByte cfg accept) p q = .ok { q with pos := q.pos + p.length } := by
  induction p generalizing q with
  | nil => rfl
  | cons b bs ih =>
    rw [byteRun_cons]
    simp only [recordByte, hp]
    rw [ih _ (by simp)]
    simp [Nat.add_comm, Nat.add_assoc]

/-- The registers when the last byte of a record has been read. -/
def Seq.recordRead (cfg : Config) (q : Seq) (len : Word) (t : Tag) (d : List Byte) (cx : Word) : Seq :=
  { q with
    pos := q.pos + 12 + d.length
    lenr := len
    tagr := t
    stage := d
    crcR := crcFold cfg cfg.crcInit (t.toList ++ d)
    crcX := cx
    rem := 0
    idx := 4
    ph := .crc }

/-- The record parser over a record that is all there and no longer than `PAYLOAD_MAX`. -/
theorem byteRun_record (l0 l1 l2 l3 t0 t1 t2 t3 c0 c1 c2 c3 : Byte) (d : List Byte) (q : Seq)
    (hp : q.ph = .len) (hi : q.idx = 0) (hl : (be32 [l0, l1, l2, l3]).toNat = d.length)
    (hm : d.length ≤ cfg.payloadMax.toNat) :
    byteRun (recordByte cfg accept) ([l0, l1, l2, l3] ++ ([t0, t1, t2, t3] ++ (d ++ [c0, c1, c2, c3]))) q =
      recordComplete cfg accept
        (q.recordRead cfg (be32 [l0, l1, l2, l3]) ⟨t0, t1, t2, t3⟩ d (be32 [c0, c1, c2, c3])) := by
  rw [byteRun_append, byteRun_lenField cfg accept _ _ _ _ _ hp hi]
  simp only
  rw [byteRun_append, byteRun_tagField cfg accept _ _ _ _ _ rfl rfl]
  simp only
  rw [byteRun_append]
  by_cases hd : d = []
  · subst hd
    have hz : be32 [l0, l1, l2, l3] = 0 := BitVec.eq_of_toNat_eq (by simpa using hl)
    simp only [byteRun_nil]
    rw [byteRun_crcField cfg accept _ _ _ _ _ (by simp [hz]) rfl]
    simp [Seq.recordRead, hz, Tag.toList]
  · have hd0 : d.length ≠ 0 := by simpa using hd
    have hz : be32 [l0, l1, l2, l3] ≠ 0 := by
      intro h
      rw [h] at hl
      simp at hl
      omega
    rw [byteRun_payField cfg accept d _ (if_neg hz) (by simp only []; omega) (by simp only []; omega) (by simpa using hm)]
    simp only
    rw [byteRun_crcField cfg accept _ _ _ _ _ (by simp [hl]) (by simp [hl])]
    simp [Seq.recordRead, hl, Tag.toList, crcFold]
    congr 2
    omega

end

/-! ## `parse_record` -/

/-- The error of a complete record is one of the two (R163). -/
theorem recordError_some {order : ErrOrder} {badCrc badTag : Bool} {e : ErrCode}
    (h : recordError order badCrc badTag = some e) : e = .checksumMismatch ∨ e = .invalidTypeTagEncoding := by
  cases order <;> cases badCrc <;> cases badTag <;> simp_all [recordError]

/-- The tests on a complete record, with its value. -/
theorem recordComplete_eq (cfg : Config) (accept : Chunk → Seq → Except FaultCode Seq) (q : Seq) (len : Word) (t : Tag)
    (d : List Byte) (cx : Word) :
    recordComplete cfg accept (q.recordRead cfg len t d cx) =
      match recordError cfg.errOrder (crc32 cfg (t.toList ++ d) != cx) (!utf8Ok t.toList) with
      | some e => .ok { q.recordRead cfg len t d cx with perr := e, ph := .drain }
      | none => accept ⟨len, t, d, cx⟩ (q.recordRead cfg len t d cx) := rfl

/-- Parsing at an offset is parsing what stands there. -/
theorem parseRecord_drop (cfg : Config) (s : List Byte) (off : Nat) :
    parseRecord cfg s off =
      match parseRecord cfg (s.drop off) 0 with
      | .error e => .error e
      | .ok (c, n) => .ok (c, off + n) := by
  simp only [parseRecord, slice_drop, List.length_drop, Nat.sub_zero, Nat.add_zero, Nat.zero_add, Nat.add_assoc]
  split
  · rfl
  · split
    · rfl
    · split
      · split <;> simp_all
      · rfl

/-- A byte string of at least four bytes, its first four apart. -/
theorem first_four {s : List Byte} (h : 4 ≤ s.length) : ∃ b0 b1 b2 b3 r, s = b0 :: b1 :: b2 :: b3 :: r := by
  rcases s with _ | ⟨b0, _ | ⟨b1, _ | ⟨b2, _ | ⟨b3, r⟩⟩⟩⟩
  · simp at h
  · simp at h
  · simp at h
  · simp at h
  · exact ⟨b0, b1, b2, b3, r, rfl⟩

/-- A byte string of at least `12 + n` bytes, cut where the fields of a record with Length `n` are. -/
theorem record_cut {s : List Byte} {n : Nat} (h : 12 + n ≤ s.length) :
    ∃ (l0 l1 l2 l3 t0 t1 t2 t3 c0 c1 c2 c3 : Byte) (d r : List Byte),
      s = [l0, l1, l2, l3] ++ ([t0, t1, t2, t3] ++ (d ++ [c0, c1, c2, c3])) ++ r ∧ n = d.length := by
  obtain ⟨l0, l1, l2, l3, s, rfl⟩ := first_four (s := s) (by omega)
  simp only [List.length_cons] at h
  obtain ⟨t0, t1, t2, t3, s, rfl⟩ := first_four (s := s) (by omega)
  simp only [List.length_cons] at h
  obtain ⟨c0, c1, c2, c3, r, hr⟩ := first_four (s := s.drop n) (by simp; omega)
  refine ⟨l0, l1, l2, l3, t0, t1, t2, t3, c0, c1, c2, c3, s.take n, r, ?_, by simp; omega⟩
  have := List.take_append_drop n s
  rw [hr] at this
  simp [this]

/-- A record that is all there is its four fields and what follows. -/
theorem record_parts {s : List Byte} (h : 12 + (be32 (slice s 0 4)).toNat ≤ s.length) :
    ∃ (l0 l1 l2 l3 t0 t1 t2 t3 c0 c1 c2 c3 : Byte) (d r : List Byte),
      s = [l0, l1, l2, l3] ++ ([t0, t1, t2, t3] ++ (d ++ [c0, c1, c2, c3])) ++ r ∧
        (be32 [l0, l1, l2, l3]).toNat = d.length := by
  obtain ⟨l0, l1, l2, l3, t0, t1, t2, t3, c0, c1, c2, c3, d, r, rfl, hd⟩ := record_cut h
  exact ⟨l0, l1, l2, l3, t0, t1, t2, t3, c0, c1, c2, c3, d, r, rfl, by rw [← hd]; simp [slice]⟩

/-- `parse_record` on a record that is all there (R163). -/
theorem parseRecord_complete (cfg : Config) (l0 l1 l2 l3 t0 t1 t2 t3 c0 c1 c2 c3 : Byte) (d r : List Byte)
    (hl : (be32 [l0, l1, l2, l3]).toNat = d.length) :
    parseRecord cfg ([l0, l1, l2, l3] ++ ([t0, t1, t2, t3] ++ (d ++ [c0, c1, c2, c3])) ++ r) 0 =
      match recordError cfg.errOrder
          (crc32 cfg ((Tag.mk t0 t1 t2 t3).toList ++ d) != be32 [c0, c1, c2, c3])
          (!utf8Ok (Tag.mk t0 t1 t2 t3).toList) with
      | some e => .error e
      | none => .ok (⟨be32 [l0, l1, l2, l3], ⟨t0, t1, t2, t3⟩, d, be32 [c0, c1, c2, c3]⟩, 12 + d.length) := by
  have e1 : ∀ x : List Byte, slice (l0 :: l1 :: l2 :: l3 :: x) 0 4 = [l0, l1, l2, l3] := by intro x; simp [slice]
  have e2 : ∀ x : List Byte, slice (l0 :: l1 :: l2 :: l3 :: t0 :: t1 :: t2 :: t3 :: x) 4 8 = [t0, t1, t2, t3] := by
    intro x; simp [slice]
  have e3 : ∀ x : List Byte, slice (l0 :: l1 :: l2 :: l3 :: t0 :: t1 :: t2 :: t3 :: (d ++ x)) 8 (8 + d.length) = d := by
    intro x; simp [slice]
  have e4 : slice (l0 :: l1 :: l2 :: l3 :: t0 :: t1 :: t2 :: t3 :: (d ++ c0 :: c1 :: c2 :: c3 :: r))
      (8 + d.length) (12 + d.length) = [c0, c1, c2, c3] := by
    rw [show l0 :: l1 :: l2 :: l3 :: t0 :: t1 :: t2 :: t3 :: (d ++ c0 :: c1 :: c2 :: c3 :: r) =
      (l0 :: l1 :: l2 :: l3 :: t0 :: t1 :: t2 :: t3 :: d) ++ c0 :: c1 :: c2 :: c3 :: r by simp]
    simp only [slice]
    rw [show 8 + d.length = (l0 :: l1 :: l2 :: l3 :: t0 :: t1 :: t2 :: t3 :: d).length by simp; omega,
      List.drop_left]
    rw [show 12 + d.length - (l0 :: l1 :: l2 :: l3 :: t0 :: t1 :: t2 :: t3 :: d).length = 4 by simp; omega]
    rfl
  simp only [parseRecord, List.cons_append, List.nil_append, List.append_assoc, Nat.zero_add, e1, e2, e3, e4, hl]
  rw [if_neg (by simp), if_neg (by simp; omega)]
  all_goals cases recordError cfg.errOrder _ _ <;> rfl

/-- `parse_record` on a record that is cut short (R163). -/
theorem parseRecord_short (cfg : Config) (s : List Byte)
    (h : s.length < 4 ∨ s.length < 12 + (be32 (slice s 0 4)).toNat) :
    parseRecord cfg s 0 = .error .truncatedStream := by
  simp only [parseRecord, Nat.sub_zero, Nat.zero_add]
  by_cases h4 : s.length < 4
  · simp [h4]
  · have : s.length < 12 + (be32 (slice s 0 4)).toNat := by omega
    simp [h4, this]

end Sys2Proof.Machine
end

