-- ==== Sys2Proof/Laws/Parse.lean ====
section
/-! SUPPORT. The record parser per beat over any run of bytes: cut short, past the capacity, or complete with what follows. -/

namespace Sys2Proof.Machine

/-- The parser stands inside a record, and nothing has been found or accepted since `q`. -/
structure Seq.InsideFrom (q q' : Seq) : Prop where
  phase : q'.ph = .len ∨ q'.ph = .tag ∨ q'.ph = .pay ∨ q'.ph = .crc
  sl_eq : q'.sl = q.sl
  perr_eq : q'.perr = q.perr

section
variable (cfg : Config) (accept : Chunk → Seq → Except FaultCode Seq)

theorem byteRun_len_part (p : List Byte) (q : Seq) (hp : q.ph = .len) (hi : q.idx = 0) (h : p.length < 4) :
    ∃ q', byteRun (recordByte cfg accept) p q = .ok q' ∧ q.InsideFrom q' ∧ q'.ph = .len ∧ q'.idx = p.length := by
  rcases p with _ | ⟨b0, _ | ⟨b1, _ | ⟨b2, _ | ⟨b3, r⟩⟩⟩⟩
  · exact ⟨q, rfl, ⟨.inl hp, rfl, rfl⟩, hp, hi⟩
  · exact ⟨_, by simp [byteRun, recordByte, lenByte, hp, hi]; rfl, ⟨by simp, by simp, by simp⟩, by simp, by simp⟩
  · exact ⟨_, by simp [byteRun, recordByte, lenByte, hp, hi]; rfl, ⟨by simp, by simp, by simp⟩, by simp, by simp⟩
  · exact ⟨_, by simp [byteRun, recordByte, lenByte, hp, hi]; rfl, ⟨by simp, by simp, by simp⟩, by simp, by simp⟩
  · simp at h; omega

theorem byteRun_tag_part (p : List Byte) (q : Seq) (hp : q.ph = .tag) (hi : q.idx = 0) (h : p.length < 4) :
    ∃ q', byteRun (recordByte cfg accept) p q = .ok q' ∧ q.InsideFrom q' ∧ q'.ph = .tag := by
  rcases p with _ | ⟨b0, _ | ⟨b1, _ | ⟨b2, _ | ⟨b3, r⟩⟩⟩⟩
  · exact ⟨q, rfl, ⟨.inr (.inl hp), rfl, rfl⟩, hp⟩
  · exact ⟨_, by simp [byteRun, recordByte, tagByte, hp, hi]; rfl, ⟨by simp, by simp, by simp⟩, by simp⟩
  · exact ⟨_, by simp [byteRun, recordByte, tagByte, hp, hi]; rfl, ⟨by simp, by simp, by simp⟩, by simp⟩
  · exact ⟨_, by simp [byteRun, recordByte, tagByte, hp, hi]; rfl, ⟨by simp, by simp, by simp⟩, by simp⟩
  · simp at h; omega

theorem byteRun_crc_part (p : List Byte) (q : Seq) (hp : q.ph = .crc) (hi : q.idx = 0) (h : p.length < 4) :
    ∃ q', byteRun (recordByte cfg accept) p q = .ok q' ∧ q.InsideFrom q' ∧ q'.ph = .crc := by
  rcases p with _ | ⟨b0, _ | ⟨b1, _ | ⟨b2, _ | ⟨b3, r⟩⟩⟩⟩
  · exact ⟨q, rfl, ⟨.inr (.inr (.inr hp)), rfl, rfl⟩, hp⟩
  · exact ⟨_, by simp [byteRun, recordByte, crcFieldByte, hp, hi]; rfl, ⟨by simp, by simp, by simp⟩, by simp⟩
  · exact ⟨_, by simp [byteRun, recordByte, crcFieldByte, hp, hi]; rfl, ⟨by simp, by simp, by simp⟩, by simp⟩
  · exact ⟨_, by simp [byteRun, recordByte, crcFieldByte, hp, hi]; rfl, ⟨by simp, by simp, by simp⟩, by simp⟩
  · simp at h; omega

/-- The first eight bytes of a record, read. -/
theorem byteRun_head (l0 l1 l2 l3 t0 t1 t2 t3 : Byte) (s : List Byte) (q : Seq) (hp : q.ph = .len) (hi : q.idx = 0) :
    ∃ q', byteRun (recordByte cfg accept) (l0 :: l1 :: l2 :: l3 :: t0 :: t1 :: t2 :: t3 :: s) q =
        byteRun (recordByte cfg accept) s q' ∧
      q'.ph = (if (be32 [l0, l1, l2, l3]).toNat = 0 then .crc else .pay) ∧ q'.idx = 0 ∧
      q'.rem = (be32 [l0, l1, l2, l3]).toNat ∧ q'.stage = [] ∧ q'.sl = q.sl ∧ q'.perr = q.perr := by
  have h := byteRun_append (recordByte cfg accept) [l0, l1, l2, l3] ([t0, t1, t2, t3] ++ s) q
  rw [byteRun_lenField cfg accept _ _ _ _ _ hp hi] at h
  simp only at h
  rw [byteRun_append _ [t0, t1, t2, t3] s, byteRun_tagField cfg accept t0 t1 t2 t3 _ rfl rfl] at h
  refine ⟨_, h, ?_, rfl, rfl, rfl, rfl, rfl⟩
  generalize be32 [l0, l1, l2, l3] = v
  have : v = 0 ↔ v.toNat = 0 := ⟨fun h => by simp [h], fun h => BitVec.eq_of_toNat_eq (by simpa using h)⟩
  simp only [this]

/-- A record that is cut short, within the capacity: the parser stops inside it. -/
theorem byteRun_short (s : List Byte) (q : Seq) (hp : q.ph = .len) (hi : q.idx = 0)
    (hs : s.length < 4 ∨ s.length < 12 + (be32 (slice s 0 4)).toNat) (ho : recordOver cfg s 0 = false) :
    ∃ q', byteRun (recordByte cfg accept) s q = .ok q' ∧ q.InsideFrom q' ∧
      (q'.ph = .len ∧ q'.idx = 0 → s = []) := by
  by_cases h4 : s.length < 4
  · obtain ⟨q', h1, h2, h3, h4'⟩ := byteRun_len_part cfg accept s q hp hi h4
    exact ⟨q', h1, h2, fun h => List.length_eq_zero_iff.mp (by rw [← h4']; exact h.2)⟩
  · have hL := hs.resolve_left h4
    obtain ⟨l0, l1, l2, l3, s, rfl⟩ := first_four (s := s) (by omega)
    by_cases h8 : s.length < 4
    · have e : l0 :: l1 :: l2 :: l3 :: s = [l0, l1, l2, l3] ++ s := rfl
      rw [e, byteRun_append, byteRun_lenField cfg accept _ _ _ _ _ hp hi]
      obtain ⟨q', h1, h2, h3⟩ := byteRun_tag_part cfg accept s
        { q with pos := q.pos + 4, lenr := be32 [l0, l1, l2, l3], ph := .tag, idx := 0, crcR := cfg.crcInit } rfl rfl h8
      exact ⟨q', h1, ⟨h2.phase, h2.sl_eq, h2.perr_eq⟩, by simp [h3]⟩
    · obtain ⟨t0, t1, t2, t3, s, rfl⟩ := first_four (s := s) (by omega)
      obtain ⟨q1, e1, hph, hidx, hrem, hst, hsl, hpe⟩ := byteRun_head cfg accept l0 l1 l2 l3 t0 t1 t2 t3 s q hp hi
      have hsli : slice (l0 :: l1 :: l2 :: l3 :: t0 :: t1 :: t2 :: t3 :: s) 0 4 = [l0, l1, l2, l3] := by simp [slice]
      simp only [recordOver, Nat.sub_zero, Nat.zero_add, hsli, decide_eq_false_iff_not] at ho
      rw [hsli] at hL
      rw [e1]
      generalize (be32 [l0, l1, l2, l3]).toNat = n at *
      simp only [List.length_cons] at hL ho
      by_cases hn : n = 0
      · obtain ⟨q', h1, h2, h3⟩ := byteRun_crc_part cfg accept s q1 (by simp [hph, hn]) hidx (by omega)
        exact ⟨q', h1, ⟨h2.phase, by rw [h2.sl_eq, hsl], by rw [h2.perr_eq, hpe]⟩, by simp [h3]⟩
      · simp only [hn, if_false] at hph
        by_cases hlt : s.length < n
        · refine ⟨_, byteRun_payField cfg accept s q1 hph (by omega) (by omega) (by simp [hst]; omega), ⟨?_, hsl, hpe⟩, ?_⟩
          · simp [show ¬ s.length = q1.rem by omega]
          · simp [show ¬ s.length = q1.rem by omega]
        · have hd : (s.take n).length = n := by simp; omega
          obtain ⟨q', h1, h2, h3⟩ := byteRun_crc_part cfg accept (s.drop n)
            { q1 with
              pos := q1.pos + (s.take n).length, stage := q1.stage ++ s.take n, crcR := crcFold cfg q1.crcR (s.take n),
              rem := q1.rem - (s.take n).length, ph := .crc, idx := 0 } rfl rfl (by simp; omega)
          refine ⟨q', ?_, ⟨h2.phase, by rw [h2.sl_eq, ← hsl], by rw [h2.perr_eq, ← hpe]⟩, by simp [h3]⟩
          rw [← h1]
          conv => lhs; rw [← List.take_append_drop n s]
          rw [byteRun_append, byteRun_payField cfg accept _ q1 hph (by omega) (by omega) (by simp [hst]; omega)]
          simp only [hd, hrem, if_true]

/-- A payload that passes the capacity faults. -/
theorem byteRun_over (s : List Byte) (q : Seq) (hp : q.ph = .len) (hi : q.idx = 0) (ho : recordOver cfg s 0 = true) :
    byteRun (recordByte cfg accept) s q = .error .capacity := by
  simp only [recordOver, Nat.sub_zero, Nat.zero_add, decide_eq_true_eq] at ho
  obtain ⟨l0, l1, l2, l3, s, rfl⟩ := first_four (s := s) (by omega)
  have hl := ho.1
  simp only [List.length_cons] at hl
  obtain ⟨t0, t1, t2, t3, s, rfl⟩ := first_four (s := s) (by omega)
  obtain ⟨q1, e1, hph, hidx, hrem, hst, hsl, hpe⟩ := byteRun_head cfg accept l0 l1 l2 l3 t0 t1 t2 t3 s q hp hi
  have hsli : slice (l0 :: l1 :: l2 :: l3 :: t0 :: t1 :: t2 :: t3 :: s) 0 4 = [l0, l1, l2, l3] := by simp [slice]
  rw [hsli] at ho
  rw [e1]
  generalize (be32 [l0, l1, l2, l3]).toNat = n at *
  simp only [List.length_cons] at ho
  have hn : n ≠ 0 := by omega
  simp only [hn, if_false] at hph
  rw [← List.take_append_drop n s, byteRun_append,
    byteRun_payField_over cfg accept (s.take n) q1 hph (by simp; omega) (by simp [hst]) (by simp [hst]; omega)]

/-- A complete record within the capacity, and what follows it. -/
theorem byteRun_complete (s : List Byte) (q : Seq) (hp : q.ph = .len) (hi : q.idx = 0)
    (hL : 12 + (be32 (slice s 0 4)).toNat ≤ s.length) (ho : recordOver cfg s 0 = false) :
    ∃ (len : Word) (t : Tag) (d : List Byte) (cx : Word) (r : List Byte),
      s = be32Bytes len ++ t.toList ++ d ++ be32Bytes cx ++ r ∧ len.toNat = d.length ∧
      d.length ≤ cfg.payloadMax.toNat ∧
      parseRecord cfg s 0 =
        (match recordError cfg.errOrder (crc32 cfg (t.toList ++ d) != cx) (!utf8Ok t.toList) with
        | some e => .error e
        | none => .ok (⟨len, t, d, cx⟩, 12 + d.length)) ∧
      byteRun (recordByte cfg accept) s q =
        (match recordError cfg.errOrder (crc32 cfg (t.toList ++ d) != cx) (!utf8Ok t.toList) with
        | some e => byteRun (recordByte cfg accept) r { q.recordRead cfg len t d cx with perr := e, ph := .drain }
        | none =>
          match accept ⟨len, t, d, cx⟩ (q.recordRead cfg len t d cx) with
          | .error c => .error c
          | .ok q' => byteRun (recordByte cfg accept) r q') := by
  obtain ⟨l0, l1, l2, l3, t0, t1, t2, t3, c0, c1, c2, c3, d, r, rfl, hd⟩ := record_parts hL
  have hsli : slice ([l0, l1, l2, l3] ++ ([t0, t1, t2, t3] ++ (d ++ [c0, c1, c2, c3])) ++ r) 0 4 = [l0, l1, l2, l3] := by
    simp [slice]
  have hm : d.length ≤ cfg.payloadMax.toNat := by
    simp only [recordOver, Nat.sub_zero, Nat.zero_add, hsli, hd, decide_eq_false_iff_not] at ho
    simp at ho
    omega
  have hb : ∀ b0 b1 b2 b3 : Byte, be32Bytes (be32 [b0, b1, b2, b3]) = [b0, b1, b2, b3] := by
    intro b0 b1 b2 b3
    rw [show [b0, b1, b2, b3] = (Tag.mk b0 b1 b2 b3).toList from rfl, be32_toList, be32Bytes, Tag.ofWord_toWord]
  refine ⟨be32 [l0, l1, l2, l3], ⟨t0, t1, t2, t3⟩, d, be32 [c0, c1, c2, c3], r, ?_, hd, hm,
    parseRecord_complete cfg l0 l1 l2 l3 t0 t1 t2 t3 c0 c1 c2 c3 d r hd, ?_⟩
  · simp [hb, Tag.toList]
  · rw [byteRun_append, byteRun_record cfg accept l0 l1 l2 l3 t0 t1 t2 t3 c0 c1 c2 c3 d q hp hi hd hm, recordComplete_eq]
    cases recordError cfg.errOrder _ _ <;> rfl

end

end Sys2Proof.Machine
end

