-- ==== Sys2Proof/Laws/Header.lean ====
section
/-! SUPPORT. The header validator (43_container.md R211) and the container parse loop (R212) over any run of bytes, beside
`ct_des` (R202). -/

namespace Sys2Proof.Machine

/-- The record parser does not go back to the header. -/
theorem recordByte_ph {cfg : Config} {accept : Chunk → Seq → Except FaultCode Seq}
    (ha : ∀ c q q', accept c q = .ok q' → q'.ph ≠ .hdr) {b : Byte} {q q' : Seq} (hp : q.ph ≠ .hdr)
    (h : recordByte cfg accept b q = .ok q') : q'.ph ≠ .hdr := by
  unfold recordByte at h
  split at h
  case h_1 =>
    cases h
    simp only [lenByte]
    split
    · simp
    · simp [hp]
  case h_2 =>
    cases h
    simp only [tagByte]
    split
    · simp only
      split <;> simp
    · simp [hp]
  case h_3 =>
    unfold payByte at h
    split at h
    · cases h
    · cases h
      simp only
      split
      · simp
      · simp [hp]
  case h_4 =>
    unfold crcFieldByte at h
    simp only at h
    split at h
    · unfold recordComplete at h
      split at h
      · cases h; simp
      · exact ha _ _ _ h
    · cases h; simp [hp]
  all_goals (cases h; exact hp)

/-- Past the header, `CT.DES` runs the record parser. -/
theorem byteRun_ctDesByte (cfg : Config) (s : List Byte) (q : Seq) (hp : q.ph ≠ .hdr) :
    byteRun (ctDesByte cfg) s q = byteRun (recordByte cfg (ctDesAccept cfg)) s q := by
  induction s generalizing q with
  | nil => rfl
  | cons b bs ih =>
    have e : ctDesByte cfg b { q with pos := q.pos + 1 } =
        recordByte cfg (ctDesAccept cfg) b { q with pos := q.pos + 1 } := by simp [ctDesByte, hp]
    rw [byteRun_cons, byteRun_cons, e]
    cases h : recordByte cfg (ctDesAccept cfg) b { q with pos := q.pos + 1 } with
    | error c => rfl
    | ok q' =>
      refine ih q' (recordByte_ph ?_ (q := { q with pos := q.pos + 1 }) hp h)
      intro c q q' ha
      unfold ctDesAccept at ha
      split at ha
      · cases ha
      · cases ha; simp

/-- The header validator from the byte `q.idx` of the header, where `rest` is what is left of it. -/
theorem byteRun_header (cfg : Config) (rest s : List Byte) (q : Seq) (hp : q.ph = .hdr) (h8 : q.idx + rest.length = 8)
    (hrest : cfg.magic.toList.drop q.idx = rest) (hne : rest ≠ []) :
    (rest <+: s ∧
      byteRun (ctDesByte cfg) s q =
        byteRun (ctDesByte cfg) (s.drop rest.length) { q with pos := q.pos + rest.length, ph := .len, idx := 0 }) ∨
    (s.length < rest.length ∧ ∃ q', byteRun (ctDesByte cfg) s q = .ok q' ∧ q'.ph = .hdr) ∨
    (¬ rest <+: s ∧ ∃ q', byteRun (ctDesByte cfg) s q = .ok q' ∧ q'.ph = .drain ∧ q'.perr = .malformedHeader) := by
  induction rest generalizing s q with
  | nil => exact absurd rfl hne
  | cons m ms ih =>
    cases s with
    | nil => exact .inr (.inl ⟨by simp, q, rfl, hp⟩)
    | cons b bs =>
      have hm : cfg.magic.toList[q.idx]? = some m := by
        have := congrArg List.head? hrest
        simpa [List.head?_drop] using this
      by_cases hb : m = b
      · subst hb
        cases ms with
        | nil =>
          simp only [List.length_cons, List.length_nil] at h8
          have e : ctDesByte cfg m { q with pos := q.pos + 1 } =
              .ok { q with pos := q.pos + 1, ph := .len, idx := 0 } := by
            simp only [ctDesByte, hp, headerByte, hm, if_true]
            rw [if_pos (by omega)]
          exact .inl ⟨by simp, by rw [byteRun_cons, e]; rfl⟩
        | cons m' ms =>
          simp only [List.length_cons] at h8
          have e : ctDesByte cfg m { q with pos := q.pos + 1 } =
              .ok { q with pos := q.pos + 1, idx := q.idx + 1 } := by
            simp [ctDesByte, hp, headerByte, hm, show q.idx ≠ 7 by omega]
          have hd : cfg.magic.toList.drop (q.idx + 1) = m' :: ms := by
            rw [← List.drop_drop, hrest]; rfl
          rw [byteRun_cons, e]
          rcases ih bs { q with pos := q.pos + 1, idx := q.idx + 1 } hp (by simp; omega) hd (by simp) with
            ⟨h1, h2⟩ | ⟨h1, h2⟩ | ⟨h1, h2⟩
          · refine .inl ⟨by simpa using h1, h2.trans ?_⟩
            have hpos : q.pos + 1 + (m' :: ms).length = q.pos + (m :: m' :: ms).length := by simp; omega
            simp only [hpos]
            rfl
          · exact .inr (.inl ⟨by simpa using h1, h2⟩)
          · exact .inr (.inr ⟨by simpa using h1, h2⟩)
      · have e : ctDesByte cfg b { q with pos := q.pos + 1 } =
            .ok { q with pos := q.pos + 1, perr := .malformedHeader, ph := .drain } := by
          simp [ctDesByte, hp, headerByte, hm, hb]
        refine .inr (.inr ⟨by simp [hb], ?_⟩)
        rw [byteRun_cons, e]
        simp only
        rw [byteRun_ctDesByte cfg bs _ (by simp), byteRun_drain cfg _ bs _ rfl]
        exact ⟨_, rfl, rfl, rfl⟩

theorem recordOver_drop (cfg : Config) (s : List Byte) (off : Nat) :
    recordOver cfg s off = recordOver cfg (s.drop off) 0 := by
  simp [recordOver, slice_drop]

/-- How the sequencer stands when the packet of `CT.DES` has ended and `ct_des` gives the result. -/
def Seq.EndsAs (q : Seq) : Except ErrCode (List Chunk) → Prop
  | .ok l => q.ph = .len ∧ q.idx = 0 ∧ q.sl = l
  | .error e =>
    (q.ph = .drain ∧ q.perr = e) ∨
      (e = .truncatedStream ∧ q.ph ≠ .hdr ∧ q.ph ≠ .drain ∧ ¬ (q.ph = .len ∧ q.idx = 0))

/-- The parse loop from a record boundary. -/
theorem byteRun_loop (cfg : Config) (s : List Byte) (passes off : Nat) (q : Seq) (hp : q.ph = .len) (hi : q.idx = 0)
    (hn : s.length - off ≤ passes) :
    (loopOver cfg s passes off q.sl.length = true →
      byteRun (recordByte cfg (ctDesAccept cfg)) (s.drop off) q = .error .capacity) ∧
    (loopOver cfg s passes off q.sl.length = false →
      ∃ q', byteRun (recordByte cfg (ctDesAccept cfg)) (s.drop off) q = .ok q' ∧
        q'.EndsAs (ctDesLoop cfg s passes off q.sl)) := by
  induction passes generalizing off q with
  | zero =>
    have hd : s.drop off = [] := List.drop_eq_nil_of_le (by omega)
    simp only [hd, loopOver, ctDesLoop]
    exact ⟨by simp, fun _ => ⟨q, rfl, hp, hi, rfl⟩⟩
  | succ passes ih =>
    by_cases hoff : off < s.length
    · have hne : s.drop off ≠ [] := by simp; omega
      simp only [loopOver, ctDesLoop, hoff, if_true, decide_true, Bool.true_and, recordOver_drop cfg s off]
      cases ho : recordOver cfg (s.drop off) 0 with
      | true =>
        simp only [Bool.true_or]
        exact ⟨fun _ => byteRun_over cfg _ _ q hp hi ho, by simp⟩
      | false =>
        simp only [Bool.false_or]
        by_cases hs : (s.drop off).length < 4 ∨ (s.drop off).length < 12 + (be32 (slice (s.drop off) 0 4)).toNat
        · have hpr : parseRecord cfg s off = .error .truncatedStream := by
            rw [parseRecord_drop, parseRecord_short cfg _ hs]
          simp only [hpr]
          refine ⟨by simp, fun _ => ?_⟩
          obtain ⟨q', h1, h2, h3⟩ := byteRun_short cfg (ctDesAccept cfg) _ q hp hi hs ho
          refine ⟨q', h1, .inr ⟨rfl, ?_, ?_, fun h => hne (h3 h)⟩⟩ <;> rcases h2.phase with h | h | h | h <;> simp [h]
        · have hs' : 12 + (be32 (slice (s.drop off) 0 4)).toNat ≤ (s.drop off).length := by omega
          obtain ⟨len, t, d, cx, r, e, hlen, hmax, hpr, hrun⟩ :=
            byteRun_complete cfg (ctDesAccept cfg) _ q hp hi hs' ho
          have hpr' := parseRecord_drop cfg s off
          rw [hpr] at hpr'
          cases he : recordError cfg.errOrder (crc32 cfg (t.toList ++ d) != cx) (!utf8Ok t.toList) with
          | some err =>
            simp only [he] at hpr' hrun
            simp only [hpr']
            refine ⟨by simp, fun _ => ?_⟩
            rw [hrun, byteRun_drain cfg _ _ _ rfl]
            exact ⟨_, rfl, .inl ⟨rfl, rfl⟩⟩
          | none =>
            simp only [he] at hpr' hrun
            simp only [hpr']
            rw [hrun]
            have hr : r = s.drop (off + (12 + d.length)) := by
              have : r = (s.drop off).drop (12 + d.length) := by
                rw [e, List.append_assoc, List.append_assoc, List.append_assoc,
                  show be32Bytes len ++ (t.toList ++ (d ++ (be32Bytes cx ++ r))) =
                    (be32Bytes len ++ t.toList ++ d ++ be32Bytes cx) ++ r by simp,
                  show 12 + d.length = (be32Bytes len ++ t.toList ++ d ++ be32Bytes cx).length by simp; omega,
                  List.drop_left]
              rw [this, List.drop_drop]
            by_cases hc : q.sl.length = cfg.chunksMax.toNat
            · have ha : ctDesAccept cfg ⟨len, t, d, cx⟩ (q.recordRead cfg len t d cx) = .error .capacity := by
                simp [ctDesAccept, Seq.recordRead, hc]
              simp [ha, hc]
            · have ha : ctDesAccept cfg ⟨len, t, d, cx⟩ (q.recordRead cfg len t d cx) =
                  .ok { q.recordRead cfg len t d cx with sl := q.sl ++ [⟨len, t, d, cx⟩], ph := .len, idx := 0 } := by
                simp [ctDesAccept, Seq.recordRead, hc]
              simp only [ha, hc, decide_false, Bool.false_or]
              have := ih (off + (12 + d.length))
                { q.recordRead cfg len t d cx with sl := q.sl ++ [⟨len, t, d, cx⟩], ph := .len, idx := 0 } rfl rfl (by omega)
              rw [← hr] at this
              simpa using this
    · have hd : s.drop off = [] := List.drop_eq_nil_of_le (by omega)
      simp only [hd, loopOver, ctDesLoop, hoff]
      exact ⟨by simp, fun _ => ⟨q, rfl, hp, hi, rfl⟩⟩

/-- The whole packet of `CT.DES`, from the header: what the sequencer stands at, and when it faults. -/
theorem byteRun_container (cfg : Config) (s : List Byte) (q : Seq) (hp : q.ph = .hdr) (hi : q.idx = 0) (hsl : q.sl = []) :
    (containerOver cfg s = true → byteRun (ctDesByte cfg) s q = .error .capacity) ∧
    (containerOver cfg s = false →
      ∃ q', byteRun (ctDesByte cfg) s q = .ok q' ∧
        (q'.EndsAs (ctDes cfg s) ∨ (q'.ph = .hdr ∧ ctDes cfg s = .error .malformedHeader))) := by
  have h8 : cfg.magic.toList.length = 8 := cfg.magic.length_toList
  have hpre : cfg.magic.toList <+: s ↔ 8 ≤ s.length ∧ slice s 0 8 = cfg.magic.toList := by
    rw [List.prefix_iff_eq_take, h8]
    simp only [slice, Nat.sub_zero, List.drop_zero]
    constructor
    · intro h
      refine ⟨?_, h.symm⟩
      have := congrArg List.length h
      rw [h8, List.length_take] at this
      omega
    · exact fun h => h.2.symm
  rcases byteRun_header cfg cfg.magic.toList s q hp (by omega) (by simp [hi]) (by intro h; simp [h] at h8) with
    ⟨h1, h2⟩ | ⟨h1, q', h2, h3⟩ | ⟨h1, q', h2, h3, h4⟩
  · obtain ⟨ha, hb⟩ := hpre.mp h1
    rw [h8] at h2
    rw [h2, byteRun_ctDesByte cfg _ _ (by simp)]
    have := byteRun_loop cfg s s.length 8 { q with pos := q.pos + 8, ph := .len, idx := 0 } rfl rfl (by omega)
    simp only [hsl, List.length_nil] at this
    simp only [hsl, containerOver, ctDes, ha, hb, and_self, decide_true, Bool.true_and, ne_eq, not_true_eq_false, or_false,
      show ¬ s.length < 8 by omega, if_false]
    exact ⟨this.1, fun h => (this.2 h).imp fun q' h => ⟨h.1, .inl h.2⟩⟩
  · have hs : s.length < 8 := by omega
    have ho : containerOver cfg s = false := by simp [containerOver]; omega
    exact ⟨by simp [ho], fun _ => ⟨q', h2, .inr ⟨h3, by simp [ctDes, hs]⟩⟩⟩
  · have hn : ¬ (8 ≤ s.length ∧ slice s 0 8 = cfg.magic.toList) := fun h => h1 (hpre.mpr h)
    have ho : containerOver cfg s = false := by
      rw [containerOver, decide_eq_false hn, Bool.false_and]
    have hd : ctDes cfg s = .error .malformedHeader := by
      rw [ctDes, if_pos]
      by_cases h : s.length < 8
      · exact .inl h
      · exact .inr fun he => hn ⟨by omega, he⟩
    refine ⟨by simp [ho], fun _ => ⟨q', h2, .inl ?_⟩⟩
    rw [hd]
    exact .inl ⟨h3, h4⟩

end Sys2Proof.Machine
end

