-- ==== Sys2Proof/Laws/Commands.lean ====
section
/-! SUPPORT. The end of each command that takes a packet, as one equation: what the registers it looks at decide. -/

namespace Sys2Proof.Machine

theorem crcVfyDone_eq (expected : Word) (s : State) (c : Word) (h : crcFin s.cfg s.seq.crcR = c) :
    crcVfyDone expected s =
      s.replying { s.seq with crcX := expected } (if c = expected then .ok else .checksumMismatch) c none := by
  subst h
  simp only [crcVfyDone, crcMatch, beq_iff_eq]
  rfl

/-- `CH.DES` ends in `TruncatedStream` unless the record was complete (R166). -/
theorem chDesDone_inside (s : State) (h : s.seq.ph ≠ .drain) :
    chDesDone s = s.replying s.seq .truncatedStream 0 none := by
  simp [chDesDone, chDesResult, h, raiseError_eq_replying]

theorem chDesDone_error (s : State) (e : ErrCode) (h : s.seq.ph = .drain) (he : s.seq.perr = e) (hne : e ≠ .ok) :
    chDesDone s = s.replying s.seq e 0 none := by
  subst he
  simp [chDesDone, chDesResult, h, hne, raiseError_eq_replying]

theorem chDesDone_ok (s : State) (c : Chunk) (h : s.seq.ph = .drain) (he : s.seq.perr = .ok)
    (hc : c = ⟨s.seq.lenr, s.seq.tagr, s.seq.stage, s.seq.crcX⟩) :
    chDesDone s = State.replying { s with ck := some c } s.seq .ok 0 none := by
  subst hc
  simp [chDesDone, chDesResult, h, he, respond_eq_replying]

/-- `first_match` on the latch is `first_match` on the text (43_container.md R210). -/
theorem latchMatches_ofText (p : List Byte) (c : Chunk) : latchMatches (TypeTag.ofText p) c = tagMatches c p := by
  rw [Bool.eq_iff_iff]
  simp [latchMatches, tagMatches, ofText_eq_len4]

/-- What `first_match` says (R210): no entry matches, or the list is cut at the first that does. -/
theorem firstMatch_ofText (p : List Byte) (l : List Chunk) :
    (firstMatch (TypeTag.ofText p) l = none ∧ ∀ c ∈ l, p ≠ c.tag.toList) ∨
    ∃ before c after, l = before ++ c :: after ∧ p = c.tag.toList ∧ (∀ d ∈ before, p ≠ d.tag.toList) ∧
      firstMatch (TypeTag.ofText p) l = some before.length := by
  induction l with
  | nil => exact .inl ⟨rfl, by simp⟩
  | cons a l ih =>
    have hf : firstMatch (TypeTag.ofText p) (a :: l) =
        if p = a.tag.toList then some 0 else (firstMatch (TypeTag.ofText p) l).map (· + 1) := by
      simp [firstMatch, List.findIdx?_cons, latchMatches_ofText, tagMatches]
    by_cases ha : p = a.tag.toList
    · exact .inr ⟨[], a, l, rfl, ha, by simp, by rw [hf, if_pos ha]; rfl⟩
    · rw [if_neg ha] at hf
      rcases ih with ⟨h1, h2⟩ | ⟨before, c, after, h1, h2, h3, h4⟩
      · exact .inl ⟨by rw [hf, h1]; rfl, by simpa [ha] using h2⟩
      · exact .inr ⟨a :: before, c, after, by rw [h1]; rfl, h2, by simpa [ha] using h3, by rw [hf, h4]; rfl⟩

theorem ctRemoveDone_none (s : State) (l : List Chunk) (hl : s.cl = some l) (h : firstMatch s.seq.txt l = none) :
    ctRemoveDone s = s.replying s.seq .notFound 0 none := by
  simp only [ctRemoveDone, needList, hl, h]
  rfl

theorem ctRemoveDone_some (s : State) (before after : List Chunk) (c : Chunk) (hl : s.cl = some (before ++ c :: after))
    (h : firstMatch s.seq.txt (before ++ c :: after) = some before.length) :
    ctRemoveDone s = State.replying { s with ck := some c, cl := some (before ++ after) } s.seq .ok 0 none := by
  simp only [ctRemoveDone, needList, hl, h]
  rw [respond_eq_replying]
  congr 1
  simp [List.drop_append]

theorem ctFindDone_none (s : State) (l : List Chunk) (hl : s.cl = some l) (h : firstMatch s.seq.txt l = none) :
    ctFindDone s = s.replying s.seq .ok 0 none := by
  simp only [ctFindDone, needList, hl, h]
  rfl

theorem ctFindDone_some (s : State) (before after : List Chunk) (c : Chunk) (hl : s.cl = some (before ++ c :: after))
    (h : firstMatch s.seq.txt (before ++ c :: after) = some before.length) :
    ctFindDone s = State.replying { s with ck := some c } s.seq .ok 1 none := by
  simp only [ctFindDone, needList, hl, h]
  rw [respond_eq_replying]
  congr 1
  simp

/-- What the registers say at the end of the packet of `CT.DES` is the result they stand at (43_container.md R212). -/
theorem ctDesResult_endsAs {q : Seq} {r : Except ErrCode (List Chunk)} (h : q.EndsAs r) : ctDesResult q = r := by
  cases r with
  | ok l =>
    obtain ⟨h1, h2, rfl⟩ := h
    simp [ctDesResult, h1, h2]
  | error e =>
    rcases h with ⟨h1, rfl⟩ | ⟨rfl, h1, h2, h3⟩
    · simp [ctDesResult, h1]
    · simp [ctDesResult, h1, h2, h3]

/-- `CT.DES` answers what the sequencer stands at (43_container.md R212). -/
theorem ctDesDone_endsAs (s : State) (r : Except ErrCode (List Chunk)) (h : s.seq.EndsAs r) :
    ctDesDone s =
      match r with
      | .error e => s.replying s.seq e 0 none
      | .ok l => State.replying { s with cl := some l } s.seq .ok 0 none := by
  rw [ctDesDone, ctDesResult_endsAs h]
  cases r <;> rfl

theorem ctDesDone_header (s : State) (h : s.seq.ph = .hdr) : ctDesDone s = s.replying s.seq .malformedHeader 0 none := by
  simp [ctDesDone, ctDesResult, h, raiseError_eq_replying]

end Sys2Proof.Machine
end

