-- ==== Sys2Proof/Laws/CrcStep.lean ====
section
/-! SUPPORT. What the CRC register keeps (40_crc.md R112, R116): with a polynomial that has bit 31, no step loses anything. -/

namespace Sys2Proof.Machine

/-- An inner step loses nothing when the polynomial has bit 31: the bit that left shows there. -/
theorem crcShift_inj {p x y : Word} (hp : p.getLsbD 31 = true) (h : crcShift p x = crcShift p y) :
    x = y := by
  have b31 : ∀ z, (crcShift p z).getLsbD 31 = z.getLsbD 0 := by
    intro z
    unfold crcShift
    split <;> simp_all
  have e0 : x.getLsbD 0 = y.getLsbD 0 := by rw [← b31, ← b31, h]
  have e1 : x >>> 1 = y >>> 1 := by
    unfold crcShift at h
    rw [e0] at h
    split at h
    · have := congrArg (· ^^^ p) h
      simpa [BitVec.xor_assoc] using this
    · exact h
  apply BitVec.eq_of_getLsbD_eq
  intro i hi
  cases i with
  | zero => exact e0
  | succ i =>
    have := congrArg (·.getLsbD i) e1
    simpa [Nat.add_comm] using this

/-- See `crcShift_inj`. -/
theorem crcShifts_inj {p : Word} (hp : p.getLsbD 31 = true) (n : Nat) {x y : Word} (h : crcShifts p n x = crcShifts p n y) : x = y := by
  induction n generalizing x y with
  | zero => exact h
  | succ n ih => exact crcShift_inj hp (ih h)

/-- Different registers stay different through a byte. -/
theorem crcByte_inj_left {cfg : Config} (hp : cfg.crcPolyR.getLsbD 31 = true) {x y : Word} {b : Byte} (h : crcByte cfg x b = crcByte cfg y b) : x = y := by
  have := crcShifts_inj hp 8 h
  have := congrArg (· ^^^ b.setWidth 32) this
  simpa [BitVec.xor_assoc] using this

/-- Different registers stay different through a byte string. -/
theorem crcFold_inj {cfg : Config} (hp : cfg.crcPolyR.getLsbD 31 = true) (s : List Byte) {x y : Word} (h : crcFold cfg x s = crcFold cfg y s) : x = y := by
  induction s generalizing x y with
  | nil => exact h
  | cons b s ih => exact crcByte_inj_left hp (ih h)

/-- Different bytes give different registers. -/
theorem crcByte_inj_right {cfg : Config} (hp : cfg.crcPolyR.getLsbD 31 = true) {c : Word} {a b : Byte} (h : crcByte cfg c a = crcByte cfg c b) : a = b := by
  have := crcShifts_inj hp 8 h
  have := congrArg (c ^^^ ·) this
  simp at this
  have := congrArg (·.setWidth 8) this
  simpa using this

end Sys2Proof.Machine
end

