-- ==== Sys2Proof/Laws/Exec.lean ====
section
/-! SUPPORT. All that running a command can do (00_scope.md R7, 60_exceptions.md R244, R250), said once for the 26 commands: it
waits for the rest of its packet, or it faults, or it ends with a response. -/

namespace Sys2Proof.Machine

/-- The eight commands that take a `DIN` packet (70_reset_and_hazards.md R284). -/
def takesPacket : Instr → Bool
  | .crcGen | .crcVfy _ | .ttParse | .chNew | .chDes | .ctRemove | .ctFind | .ctDes => true
  | .ttParseb _ | .ttBytes | .ttValid | .ttCrit | .ttPub | .ttRsvd | .ttSafe | .ttDisp | .chLen | .chType | .chData
  | .chCrc | .chStr | .chSer | .ctFrom | .ctAppend | .ctChunks _ | .ctSer => false

/-- The commands that write `TT` (10_state.md R21). -/
def mayWriteTT : Instr → Bool
  | .ttParse | .ttParseb _ | .chType => true
  | .crcGen | .crcVfy _ | .ttBytes | .ttValid | .ttCrit | .ttPub | .ttRsvd | .ttSafe | .ttDisp | .chNew | .chLen | .chData
  | .chCrc | .chStr | .chSer | .chDes | .ctFrom | .ctAppend | .ctRemove | .ctFind | .ctChunks _ | .ctSer | .ctDes => false

/-- The commands that write or empty `CK` (10_state.md R22). -/
def mayWriteCK : Instr → Bool
  | .chNew | .chDes | .ctAppend | .ctRemove | .ctFind | .ctChunks _ => true
  | .crcGen | .crcVfy _ | .ttParse | .ttParseb _ | .ttBytes | .ttValid | .ttCrit | .ttPub | .ttRsvd | .ttSafe | .ttDisp
  | .chLen | .chType | .chData | .chCrc | .chStr | .chSer | .ctFrom | .ctSer | .ctDes => false

/-- The commands that write `CL` (10_state.md R24). -/
def mayWriteCL : Instr → Bool
  | .ctFrom | .ctAppend | .ctRemove | .ctDes => true
  | .crcGen | .crcVfy _ | .ttParse | .ttParseb _ | .ttBytes | .ttValid | .ttCrit | .ttPub | .ttRsvd | .ttSafe | .ttDisp
  | .chNew | .chLen | .chType | .chData | .chCrc | .chStr | .chSer | .chDes | .ctFind | .ctChunks _ | .ctSer => false

/-- The commands that can raise an error (60_exceptions.md R243). -/
def mayRaise : Instr → Bool
  | .crcVfy _ | .ttParseb _ | .chStr | .chDes | .ctRemove | .ctChunks _ | .ctDes => true
  | .crcGen | .ttParse | .ttBytes | .ttValid | .ttCrit | .ttPub | .ttRsvd | .ttSafe | .ttDisp | .chNew | .chLen | .chType
  | .chData | .chCrc | .chSer | .ctFrom | .ctAppend | .ctFind | .ctSer => false

/-- `t` is `s` after the command `i` ended with a response. -/
structure EndedBy (i : Instr) (s t : State) (q : Seq) (e : ErrCode) (r : Word) (p : Option (List Byte))
    (tt : Option TypeTag) (ck : Option Chunk) (cl : Option (List Chunk)) (rest : List Beat) : Prop where
  state_eq : t = State.replying { s.taken with tt := tt, ck := ck, cl := cl, din := rest } q e r p
  tt_eq : mayWriteTT i = false ∨ e ≠ .ok → tt = s.tt
  ck_eq : mayWriteCK i = false ∨ e ≠ .ok → ck = s.ck
  cl_eq : mayWriteCL i = false ∨ e ≠ .ok → cl = s.cl
  no_packet : e ≠ .ok → p = none
  no_error : mayRaise i = false → e = .ok
  din_eq : takesPacket i = false → rest = s.din
  packet : takesPacket i = true → ∃ x, firstPacket s.din = some (x, rest)

/-- What running `i` can do. -/
def ExecEnds (i : Instr) (s t : State) : Prop :=
  (∃ c q, t = s.taken.awaiting q c ∧ firstPacket s.din = none ∧ takesPacket i = true) ∨
  (∃ q c before rest, s.din = before ++ rest ∧ (takesPacket i = false → rest = s.din) ∧
    t = State.haltedBy { s.taken with din := rest } q c) ∨
  (∃ q e r p tt ck cl rest, EndedBy i s t q e r p tt ck cl rest)

theorem execEnds_fault {i : Instr} {s : State} {q : Seq} {c : FaultCode} : ExecEnds i s (s.taken.haltedBy q c) :=
  .inr (.inl ⟨q, c, [], s.din, rfl, fun _ => rfl, rfl⟩)

/-- A command that takes no packet and ends well. -/
theorem execEnds_ok (i : Instr) (s : State) (q : Seq) {r : Word} (p : Option (List Byte)) (tt : Option TypeTag)
    (ck : Option Chunk) (cl : Option (List Chunk)) (ht : takesPacket i = false)
    (h1 : mayWriteTT i = false → tt = s.tt) (h2 : mayWriteCK i = false → ck = s.ck)
    (h3 : mayWriteCL i = false → cl = s.cl) :
    ExecEnds i s (State.replying { s.taken with tt := tt, ck := ck, cl := cl } q .ok r p) :=
  .inr (.inr ⟨q, .ok, r, p, tt, ck, cl, s.din,
    ⟨rfl, by simpa using h1, by simpa using h2, by simpa using h3, by simp, fun _ => rfl, fun _ => rfl, by simp [ht]⟩⟩)

/-- A command that takes no packet and ends in an error. -/
theorem execEnds_raise (i : Instr) (s : State) (q : Seq) {e : ErrCode} {r : Word} (ht : takesPacket i = false)
    (hr : mayRaise i = true) : ExecEnds i s (s.taken.replying q e r none) :=
  .inr (.inr ⟨q, e, r, none, s.tt, s.ck, s.cl, s.din,
    ⟨rfl, fun _ => rfl, fun _ => rfl, fun _ => rfl, fun _ => rfl, by simp [hr], fun _ => rfl, by simp [ht]⟩⟩)

/-- A command that reads the four tag bytes and answers. -/
theorem execEnds_needFour {i : Instr} {s : State} {k : Tag → State} (h : ∀ t, ExecEnds i s (k t)) :
    ExecEnds i s (needFour (cmdTaken s) k) := by
  rcases needFour_cases s k with ⟨c, h'⟩ | ⟨t, -, h'⟩ <;> rw [h']
  · exact execEnds_fault
  · exact h t

/-- A command that reads `CK` and goes on. -/
theorem execEnds_needChunk {i : Instr} {s : State} {k : Chunk → State} (h : ∀ c, s.ck = some c → ExecEnds i s (k c)) :
    ExecEnds i s (needChunk (cmdTaken s) k) := by
  rcases needChunk_cases s k with h' | ⟨c, hc, h'⟩ <;> rw [h']
  · exact execEnds_fault
  · exact h c hc

/-- A command that reads `CL` and goes on. -/
theorem execEnds_needList {i : Instr} {s : State} {k : List Chunk → State}
    (h : ∀ l, s.cl = some l → ExecEnds i s (k l)) : ExecEnds i s (needList (cmdTaken s) k) := by
  rcases needList_cases s k with h' | ⟨l, hl, h'⟩ <;> rw [h']
  · exact execEnds_fault
  · exact h l hl

/-- A command that takes a packet, from how it ends when the packet has ended. -/
theorem execEnds_runPacket {i : Instr} {s : State} {c : Consumer} {f : ByteStep} {finish : State → State} {q0 : Seq}
    (ht : takesPacket i = true)
    (h : ∀ (q : Seq) (rest : List Beat) (x : List Byte), firstPacket s.din = some (x, rest) → byteRun f x q0 = .ok q →
      ∃ q' e r tt ck cl,
        finish { cmdTaken s with din := rest, seq := q } =
          State.replying { s.taken with tt := tt, ck := ck, cl := cl, din := rest } q' e r none ∧
        (mayWriteTT i = false ∨ e ≠ .ok → tt = s.tt) ∧ (mayWriteCK i = false ∨ e ≠ .ok → ck = s.ck) ∧
        (mayWriteCL i = false ∨ e ≠ .ok → cl = s.cl) ∧ (mayRaise i = false → e = .ok)) :
    ExecEnds i s (runPacket c f finish { cmdTaken s with seq := q0 }) := by
  obtain ⟨hw, he, hf⟩ := takeBeats_inv (f := f) (bs := s.din) (q := q0)
  rcases runPacket_cases c f finish { cmdTaken s with seq := q0 } with
    ⟨q, h1, h2⟩ | ⟨q, rest, h1, h2⟩ | ⟨code, q, rest, h1, h2⟩
  · exact .inl ⟨c, q, h2, (hw q h1).1, ht⟩
  · obtain ⟨x, hx, hr⟩ := he q rest h1
    obtain ⟨q', e, r, tt, ck, cl, hfin, a1, a2, a3, a4⟩ := h q rest x hx hr
    exact .inr (.inr ⟨q', e, r, none, tt, ck, cl, rest,
      ⟨h2.trans hfin, a1, a2, a3, fun _ => rfl, a4, by simp [ht], fun _ => ⟨x, hx⟩⟩⟩)
  · obtain ⟨⟨before, hb⟩, -⟩ := hf code q rest h1
    exact .inr (.inl ⟨q, code, before, rest, hb, by simp [ht], h2.trans (takeFault_eq_haltedBy _ _)⟩)

/-- Running a command waits, faults, or ends (00_scope.md R7). -/
theorem exec_ends (i : Instr) (s t : State) (h : exec i s = .next t) : ExecEnds i s t := by
  cases i with
  | crcGen =>
    cases h
    refine execEnds_runPacket rfl fun q rest x hx hr => ?_
    exact ⟨_, _, _, s.tt, s.ck, s.cl, rfl, by simp, by simp, by simp, by simp⟩
  | crcVfy e =>
    cases h
    refine execEnds_runPacket rfl fun q rest x hx hr => ?_
    exact ⟨_, _, _, s.tt, s.ck, s.cl, crcVfyDone_eq e _ _ rfl, by simp, by simp, by simp, by simp [mayRaise]⟩
  | ttParse =>
    cases h
    refine execEnds_runPacket rfl fun q rest x hx hr => ?_
    exact ⟨_, _, _, _, s.ck, s.cl, rfl, by simp [mayWriteTT], by simp, by simp, by simp⟩
  | ttParseb tag =>
    cases h
    split
    · exact execEnds_ok (.ttParseb tag) s s.seq none (some (.len4 tag)) s.ck s.cl rfl (by simp [mayWriteTT]) (by simp) (by simp)
    · exact execEnds_raise (.ttParseb tag) s s.seq rfl rfl
  | ttBytes => cases h; exact execEnds_needFour fun _ => execEnds_ok .ttBytes s s.seq none s.tt s.ck s.cl rfl (by simp) (by simp) (by simp)
  | ttValid =>
    cases h
    rcases needTag_cases s (fun x => respond .ok (truth (tagValid x)) (cmdTaken s)) with h' | ⟨x, -, h'⟩ <;> rw [h']
    · exact execEnds_fault
    · exact execEnds_ok .ttValid s s.seq none s.tt s.ck s.cl rfl (by simp) (by simp) (by simp)
  | ttCrit => cases h; exact execEnds_needFour fun _ => execEnds_ok .ttCrit s s.seq none s.tt s.ck s.cl rfl (by simp) (by simp) (by simp)
  | ttPub => cases h; exact execEnds_needFour fun _ => execEnds_ok .ttPub s s.seq none s.tt s.ck s.cl rfl (by simp) (by simp) (by simp)
  | ttRsvd => cases h; exact execEnds_needFour fun _ => execEnds_ok .ttRsvd s s.seq none s.tt s.ck s.cl rfl (by simp) (by simp) (by simp)
  | ttSafe => cases h; exact execEnds_needFour fun _ => execEnds_ok .ttSafe s s.seq none s.tt s.ck s.cl rfl (by simp) (by simp) (by simp)
  | ttDisp =>
    cases h
    refine execEnds_needFour fun t => ?_
    rw [respond_emitPacket]
    exact execEnds_ok .ttDisp s _ (some _) s.tt s.ck s.cl rfl (by simp) (by simp) (by simp)
  | chNew =>
    cases h
    refine execEnds_needFour fun t => ?_
    refine execEnds_runPacket rfl fun q rest x hx hr => ?_
    exact ⟨_, _, _, s.tt, _, s.cl, rfl, by simp, by simp [mayWriteCK], by simp, by simp⟩
  | chLen => cases h; exact execEnds_needChunk fun _ _ => execEnds_ok .chLen s s.seq none s.tt s.ck s.cl rfl (by simp) (by simp) (by simp)
  | chType =>
    cases h
    exact execEnds_needChunk fun c _ =>
      execEnds_ok .chType s s.seq none (some (.len4 c.tag)) s.ck s.cl rfl (by simp [mayWriteTT]) (by simp) (by simp)
  | chData =>
    cases h
    refine execEnds_needChunk fun c _ => ?_
    rw [respond_emitPacket]
    exact execEnds_ok .chData s _ (some _) s.tt s.ck s.cl rfl (by simp) (by simp) (by simp)
  | chCrc => cases h; exact execEnds_needChunk fun _ _ => execEnds_ok .chCrc s _ none s.tt s.ck s.cl rfl (by simp) (by simp) (by simp)
  | chStr =>
    cases h
    refine execEnds_needChunk fun c _ => ?_
    rw [respond_emitPacket]
    split
    · exact execEnds_ok .chStr s _ (some _) s.tt s.ck s.cl rfl (by simp) (by simp) (by simp)
    · exact execEnds_raise .chStr s s.seq rfl rfl
  | chSer =>
    cases h
    refine execEnds_needChunk fun c _ => ?_
    obtain ⟨q, -, hq⟩ := chSer_replying c (cmdTaken s)
    rw [hq]
    exact execEnds_ok .chSer s q (some _) s.tt s.ck s.cl rfl (by simp) (by simp) (by simp)
  | chDes =>
    cases h
    refine execEnds_runPacket rfl fun q rest x hx hr => ?_
    unfold chDesDone
    split
    · exact ⟨_, _, _, s.tt, s.ck, s.cl, rfl, by simp, by simp, by simp, by simp [mayRaise]⟩
    · exact ⟨_, _, _, s.tt, _, s.cl, rfl, by simp, by simp [mayWriteCK], by simp, by simp⟩
  | ctFrom =>
    cases h
    exact execEnds_ok .ctFrom s s.seq none s.tt s.ck (some []) rfl (by simp) (by simp) (by simp [mayWriteCL])
  | ctAppend =>
    cases h
    refine execEnds_needList fun l _ => execEnds_needChunk fun c _ => ?_
    split
    · rw [takeFault_cmdTaken]; exact execEnds_fault
    · exact execEnds_ok .ctAppend s s.seq none s.tt none (some (l ++ [c])) rfl (by simp) (by simp [mayWriteCK]) (by simp [mayWriteCL])
  | ctRemove =>
    cases h
    refine execEnds_needList fun l hl => ?_
    refine execEnds_runPacket rfl fun q rest x hx hr => ?_
    rw [byteRun_textFeed] at hr
    cases hr
    simp only [foldl_push]
    rcases firstMatch_ofText x l with ⟨h1, -⟩ | ⟨before, c, after, rfl, -, -, h4⟩
    · exact ⟨_, _, _, s.tt, s.ck, s.cl, ctRemoveDone_none _ l hl h1, by simp, by simp, by simp, by simp [mayRaise]⟩
    · exact ⟨_, _, _, s.tt, _, _, ctRemoveDone_some _ before after c hl h4, by simp, by simp [mayWriteCK],
        by simp [mayWriteCL], by simp⟩
  | ctFind =>
    cases h
    refine execEnds_needList fun l hl => ?_
    refine execEnds_runPacket rfl fun q rest x hx hr => ?_
    rw [byteRun_textFeed] at hr
    cases hr
    simp only [foldl_push]
    rcases firstMatch_ofText x l with ⟨h1, -⟩ | ⟨before, c, after, rfl, -, -, h4⟩
    · exact ⟨_, _, _, s.tt, s.ck, s.cl, ctFindDone_none _ l hl h1, by simp, by simp, by simp, by simp⟩
    · exact ⟨_, _, _, s.tt, _, s.cl, ctFindDone_some _ before after c hl h4, by simp, by simp [mayWriteCK],
        by simp, by simp⟩
  | ctChunks k =>
    cases h
    refine execEnds_needList fun l _ => ?_
    split
    · exact execEnds_ok (.ctChunks k) s s.seq none s.tt _ s.cl rfl (by simp) (by simp [mayWriteCK]) (by simp)
    · exact execEnds_raise (.ctChunks k) s s.seq rfl rfl
  | ctSer =>
    cases h
    refine execEnds_needList fun l _ => ?_
    obtain ⟨q, -, hq⟩ := ctSer_replying l (cmdTaken s)
    rw [hq]
    exact execEnds_ok .ctSer s q (some _) s.tt s.ck s.cl rfl (by simp) (by simp) (by simp)
  | ctDes =>
    cases h
    refine execEnds_runPacket rfl fun q rest x hx hr => ?_
    unfold ctDesDone
    split
    · exact ⟨_, _, _, s.tt, s.ck, s.cl, rfl, by simp, by simp, by simp, by simp [mayRaise]⟩
    · exact ⟨_, _, _, s.tt, s.ck, _, rfl, by simp, by simp, by simp [mayWriteCL], by simp⟩

end Sys2Proof.Machine
end

