-- ==== Sys2Proof/Laws/Memory.lean ====
section
/-! SUPPORT. The payload buffer as cells (20_memory.md R50, R52): the canonical form holds in every state, so every operation
keeps it, and a cell is there exactly where a byte reads. -/

namespace Sys2Proof.Machine

/-- The cells of `PB` are in the canonical form, whatever the state. -/
theorem pbCells_wf (s : State) : Memory.wf (pbCells s) = true := by
  have key : ∀ (d : List Byte) (k n : Nat), ((List.range' k n).zip d).Pairwise fun x y => x.1 < y.1 := by
    intro d
    induction d with
    | nil => simp
    | cons b d ih =>
      intro k n
      cases n with
      | zero => simp
      | succ n =>
        rw [List.range'_succ, List.zip_cons_cons, List.pairwise_cons]
        refine ⟨fun x hx => ?_, ih (k + 1) n⟩
        have := (List.of_mem_zip (a := x.1) (b := x.2) hx).1
        simp only [List.mem_range'_1] at this
        simp only
        omega
  unfold Memory.wf pbCells
  cases s.ck with
  | none => rfl
  | some c => simpa [List.range_eq_range'] using key c.data 0 c.data.length

/-- `PB` reads a byte exactly where a cell holds it. -/
theorem memRead_pb_iff (s : State) (addr : Nat) (b : Byte) : memRead .pb addr s = some b ↔ (addr, b) ∈ pbCells s := by
  unfold memRead pbCells
  cases s.ck with
  | none => simp
  | some c =>
    simp only [List.mem_iff_getElem?, List.getElem?_zip_eq_some]
    constructor
    · intro h
      have := (List.getElem?_eq_some_iff.mp h).1
      exact ⟨addr, by simp [this], h⟩
    · rintro ⟨i, h1, h2⟩
      rw [List.getElem?_range (List.getElem?_eq_some_iff.mp h2).1] at h1
      cases h1
      exact h2

end Sys2Proof.Machine
end

