-- ==== Sys2Proof/Laws/PerInstr.lean ====
section
/-! SUPPORT. Statements made per command (30_encoding.md R92). -/

namespace Sys2Proof.Laws

/-- The unit of a command, as the number of its group of opcodes: 1 for the CRC unit, 2 TypeTag, 3 chunk, 4 container. -/
def unitOf : Instr → Nat
  | .crcGen => 1
  | .crcVfy _ => 1
  | .ttParse => 2
  | .ttParseb _ => 2
  | .ttBytes => 2
  | .ttValid => 2
  | .ttCrit => 2
  | .ttPub => 2
  | .ttRsvd => 2
  | .ttSafe => 2
  | .ttDisp => 2
  | .chNew => 3
  | .chLen => 3
  | .chType => 3
  | .chData => 3
  | .chCrc => 3
  | .chStr => 3
  | .chSer => 3
  | .chDes => 3
  | .ctFrom => 4
  | .ctAppend => 4
  | .ctRemove => 4
  | .ctFind => 4
  | .ctChunks _ => 4
  | .ctSer => 4
  | .ctDes => 4

/-- The high digit of the opcode is the unit, and the command word carries that opcode (R90, R92). -/
def OpcodeFamily.Statement (i : Instr) : Prop :=
  (opcode i).toNat / 16 = unitOf i ∧ opOf (encode i) = opcode i

/-- The command word carries the opcode (R90). -/
theorem opOf_encode (i : Instr) : opOf (encode i) = opcode i := by
  apply BitVec.eq_of_toNat_eq
  have h := (argument i).isLt
  have h' := (opcode i).isLt
  simp only [opOf, encode, BitVec.extractLsb'_toNat, BitVec.toNat_append, Nat.shiftRight_eq_div_pow]
  rw [← Nat.shiftLeft_add_eq_or_of_lt h, Nat.shiftLeft_eq]
  omega

theorem OpcodeFamily.crcGen : OpcodeFamily.Statement .crcGen := ⟨rfl, opOf_encode _⟩
theorem OpcodeFamily.crcVfy (expected : Word) : OpcodeFamily.Statement (.crcVfy expected) := ⟨by simp [opcode, unitOf], opOf_encode _⟩
theorem OpcodeFamily.ttParse : OpcodeFamily.Statement .ttParse := ⟨rfl, opOf_encode _⟩
theorem OpcodeFamily.ttParseb (tag : Tag) : OpcodeFamily.Statement (.ttParseb tag) := ⟨by simp [opcode, unitOf], opOf_encode _⟩
theorem OpcodeFamily.ttBytes : OpcodeFamily.Statement .ttBytes := ⟨rfl, opOf_encode _⟩
theorem OpcodeFamily.ttValid : OpcodeFamily.Statement .ttValid := ⟨rfl, opOf_encode _⟩
theorem OpcodeFamily.ttCrit : OpcodeFamily.Statement .ttCrit := ⟨rfl, opOf_encode _⟩
theorem OpcodeFamily.ttPub : OpcodeFamily.Statement .ttPub := ⟨rfl, opOf_encode _⟩
theorem OpcodeFamily.ttRsvd : OpcodeFamily.Statement .ttRsvd := ⟨rfl, opOf_encode _⟩
theorem OpcodeFamily.ttSafe : OpcodeFamily.Statement .ttSafe := ⟨rfl, opOf_encode _⟩
theorem OpcodeFamily.ttDisp : OpcodeFamily.Statement .ttDisp := ⟨rfl, opOf_encode _⟩
theorem OpcodeFamily.chNew : OpcodeFamily.Statement .chNew := ⟨rfl, opOf_encode _⟩
theorem OpcodeFamily.chLen : OpcodeFamily.Statement .chLen := ⟨rfl, opOf_encode _⟩
theorem OpcodeFamily.chType : OpcodeFamily.Statement .chType := ⟨rfl, opOf_encode _⟩
theorem OpcodeFamily.chData : OpcodeFamily.Statement .chData := ⟨rfl, opOf_encode _⟩
theorem OpcodeFamily.chCrc : OpcodeFamily.Statement .chCrc := ⟨rfl, opOf_encode _⟩
theorem OpcodeFamily.chStr : OpcodeFamily.Statement .chStr := ⟨rfl, opOf_encode _⟩
theorem OpcodeFamily.chSer : OpcodeFamily.Statement .chSer := ⟨rfl, opOf_encode _⟩
theorem OpcodeFamily.chDes : OpcodeFamily.Statement .chDes := ⟨rfl, opOf_encode _⟩
theorem OpcodeFamily.ctFrom : OpcodeFamily.Statement .ctFrom := ⟨rfl, opOf_encode _⟩
theorem OpcodeFamily.ctAppend : OpcodeFamily.Statement .ctAppend := ⟨rfl, opOf_encode _⟩
theorem OpcodeFamily.ctRemove : OpcodeFamily.Statement .ctRemove := ⟨rfl, opOf_encode _⟩
theorem OpcodeFamily.ctFind : OpcodeFamily.Statement .ctFind := ⟨rfl, opOf_encode _⟩
theorem OpcodeFamily.ctChunks (index : Nat) : OpcodeFamily.Statement (.ctChunks index) := ⟨by simp [opcode, unitOf], opOf_encode _⟩
theorem OpcodeFamily.ctSer : OpcodeFamily.Statement .ctSer := ⟨rfl, opOf_encode _⟩
theorem OpcodeFamily.ctDes : OpcodeFamily.Statement .ctDes := ⟨rfl, opOf_encode _⟩

end Sys2Proof.Laws
end

