-- ==== Sys2Proof/Laws/RoundTrip.lean ====
section
/-! SUPPORT. The parsers on what the serializers give (42_chunk.md R162, R163; 43_container.md R201, R202). -/

namespace Sys2Proof.Machine

/-- A valid chunk with a text tag is parsed back from its record, whatever follows (R162, R163). -/
theorem parseRecord_serChunk (cfg : Config) (c : Chunk) (r : List Byte) (hv : c.Valid cfg) (ht : utf8Ok c.tag.toList = true) :
   parseRecord cfg (serChunk c ++ r) 0 = .ok (c, 12 + c.data.length) := by
  obtain ⟨h1, h2, h3⟩ := hv
  obtain ⟨len, tag, data, crc⟩ := c
  simp only at h1 h2 ht
  have e := parseRecord_complete cfg (Tag.ofWord len).b0 (Tag.ofWord len).b1 (Tag.ofWord len).b2 (Tag.ofWord len).b3 tag.b0 tag.b1 tag.b2 tag.b3 (Tag.ofWord crc).b0 (Tag.ofWord crc).b1 (Tag.ofWord crc).b2 (Tag.ofWord crc).b3 data r
    (by have := be32_be32Bytes len; exact (congrArg BitVec.toNat this).trans h1)
  have es : serChunk ⟨len, tag, data, crc⟩ ++ r = [(Tag.ofWord len).b0, (Tag.ofWord len).b1, (Tag.ofWord len).b2, (Tag.ofWord len).b3] ++ ([tag.b0, tag.b1, tag.b2, tag.b3] ++ (data ++ [(Tag.ofWord crc).b0, (Tag.ofWord crc).b1, (Tag.ofWord crc).b2, (Tag.ofWord crc).b3])) ++ r := by
    simp [serChunk, be32Bytes, Tag.toList]
  rw [es, e]
  have hl : be32 [(Tag.ofWord len).b0, (Tag.ofWord len).b1, (Tag.ofWord len).b2, (Tag.ofWord len).b3] = len := be32_be32Bytes len
  have hc : be32 [(Tag.ofWord crc).b0, (Tag.ofWord crc).b1, (Tag.ofWord crc).b2, (Tag.ofWord crc).b3] = crc := be32_be32Bytes crc
  rw [hl, hc]
  have : recordError cfg.errOrder (crc32 cfg (tag.toList ++ data) != crc) (!utf8Ok tag.toList) = none := by
    rw [ht, ← h2]; cases cfg.errOrder <;> simp [recordError]
  rw [show Tag.mk tag.b0 tag.b1 tag.b2 tag.b3 = tag from rfl, this]

/-- No capacity is passed on the record of a valid chunk. -/
theorem recordOver_serChunk (cfg : Config) (c : Chunk) (r : List Byte) (hv : c.Valid cfg) : recordOver cfg (serChunk c ++ r) 0 = false := by
  obtain ⟨h1, h2, h3⟩ := hv
  have : slice (serChunk c ++ r) 0 4 = be32Bytes c.len := by simp [serChunk, be32Bytes, slice, Tag.toList]
  simp only [recordOver, Nat.zero_add, this, be32_be32Bytes, decide_eq_false_iff_not]
  omega

/-- The loop of `ct_des` gives back the list whose records it reads, and passes no capacity. -/
theorem ctDesLoop_serChunks (cfg : Config) (pre : List Byte) (l : List Chunk) (acc : List Chunk) (hl : ∀ c ∈ l, c.Valid cfg) (ht : ∀ c ∈ l, utf8Ok c.tag.toList = true)
   (hn : acc.length + l.length ≤ cfg.chunksMax.toNat) (passes : Nat) (hp : l.length ≤ passes) :
   ctDesLoop cfg (pre ++ l.flatMap serChunk) passes pre.length acc = .ok (acc ++ l) ∧
   loopOver cfg (pre ++ l.flatMap serChunk) passes pre.length acc.length = false := by
  induction l generalizing pre acc passes with
  | nil => cases passes <;> simp [ctDesLoop, loopOver]
  | cons c l ih =>
    cases passes with
    | zero => simp at hp
    | succ passes =>
      have hv := hl c (by simp)
      have hcl : (serChunk c).length = 12 + c.data.length := by simp [serChunk, Tag.toList]; omega
      have e : pre ++ (c :: l).flatMap serChunk = (pre ++ serChunk c) ++ l.flatMap serChunk := by simp
      have hpar : parseRecord cfg (pre ++ (c :: l).flatMap serChunk) pre.length = .ok (c, pre.length + (12 + c.data.length)) := by
        rw [parseRecord_drop, List.drop_left, List.flatMap_cons, parseRecord_serChunk cfg c _ hv (ht c (by simp))]
      have hov : recordOver cfg (pre ++ (c :: l).flatMap serChunk) pre.length = false := by
        rw [recordOver_drop, List.drop_left, List.flatMap_cons, recordOver_serChunk cfg c _ hv]
      have hlt : pre.length < (pre ++ (c :: l).flatMap serChunk).length := by simp [hcl]
      simp only [List.length_cons] at hn hp
      have := ih (pre ++ serChunk c) (acc ++ [c]) (fun d hd => hl d (by simp [hd])) (fun d hd => ht d (by simp [hd])) (by simp; omega) passes (by omega)
      rw [← e] at this
      rw [List.length_append, hcl, List.append_assoc] at this
      constructor
      · rw [ctDesLoop, if_pos hlt, hpar]; exact this.1
      · rw [loopOver, hov, hpar]
        have h2 := this.2
        simp only [List.length_append, List.length_cons, List.length_nil, Nat.zero_add] at h2
        simp only [h2, Bool.or_false, Bool.false_or]
        rw [decide_eq_false (show ¬ acc.length = cfg.chunksMax.toNat by omega), Bool.and_false]

end Sys2Proof.Machine
end

