-- ==== Sys2Proof/Laws/Sequencers.lean ====
section
/-! SUPPORT. The sequencers compute the functions: 42_chunk.md R168 and 43_container.md R214, which the spec marks derived, are
proved here of the model for every packet. -/

namespace Sys2Proof.Machine

/-- The whole packet of `CH.DES`: what the registers say at its end (R166) is what `parse_record` gives (R163). -/
theorem byteRun_chunk (cfg : Config) (s : List Byte) (q : Seq) (ho : recordOver cfg s 0 = false) :
    ∃ q', byteRun (recordByte cfg chDesAccept) s (chDesStart q) = .ok q' ∧
      chDesResult q' = (parseRecord cfg s 0).map Prod.fst := by
  by_cases hs : s.length < 4 ∨ s.length < 12 + (be32 (slice s 0 4)).toNat
  · obtain ⟨q', h1, h2, -⟩ := byteRun_short cfg chDesAccept s (chDesStart q) rfl rfl hs ho
    refine ⟨q', h1, ?_⟩
    rw [parseRecord_short cfg s hs]
    rcases h2.phase with h | h | h | h <;> simp [chDesResult, h, Except.map]
  · obtain ⟨len, t, d, cx, r, rfl, -, -, h1, h2⟩ :=
      byteRun_complete cfg chDesAccept s (chDesStart q) rfl rfl (by omega) ho
    rw [h1, h2]
    cases he : recordError cfg.errOrder (crc32 cfg (t.toList ++ d) != cx) (!utf8Ok t.toList) with
    | some e => rcases recordError_some he with rfl | rfl <;> exact ⟨_, byteRun_drain cfg _ _ _ rfl, rfl⟩
    | none => exact ⟨_, byteRun_drain cfg _ _ _ rfl, rfl⟩

/-- A packet on which no byte faults ends where the run over its bytes ends; else the beats end in that fault. -/
theorem takeBeats_packet {f : ByteStep} {beats : List Beat} {s : List Byte} {rest : List Beat} {q : Seq}
    (hp : firstPacket beats = some (s, rest)) :
    (∀ q', byteRun f s q = .ok q' → takeBeats f beats q = .ended q' rest) ∧
    (∀ c, byteRun f s q = .error c → ∃ q' rest', takeBeats f beats q = .faulted c q' rest') := by
  refine ⟨fun q' h => takeBeats_ended hp h, fun c h => ?_⟩
  rw [← availBytes_of_firstPacket hp] at h
  obtain ⟨_, q2, _, _, _, rest', _, _, _, _, h'⟩ := takeBeats_faulted h
  exact ⟨q2, rest', h'⟩

/-- 42_chunk.md R168. -/
theorem chunkSequencers_compute (cfg : Config) : ChunkSequencersCompute cfg where
  parser beats s rest q hp := by
    cases ho : recordOver cfg s 0 with
    | true =>
      obtain ⟨q', rest', h⟩ := (takeBeats_packet hp).2 _ (byteRun_over cfg chDesAccept s (chDesStart q) rfl rfl ho)
      rw [h]
      exact ⟨rfl, rfl⟩
    | false =>
      obtain ⟨q', h, hr⟩ := byteRun_chunk cfg s q ho
      rw [(takeBeats_packet hp).1 _ h]
      exact ⟨rfl, rfl, hr⟩
  framer c t _ := by
    obtain ⟨q, -, h⟩ := emitPhases_out (s := t) (emitRecord_out true c)
    rw [h, packetBeats_eq_byteBeats (serChunk_ne_nil c)]
    rfl

/-- 43_container.md R214. -/
theorem containerSequencers_compute (cfg : Config) : ContainerSequencersCompute cfg where
  parser beats s rest q hp := by
    obtain ⟨hover, hfine⟩ := byteRun_container cfg s (ctDesStart q) rfl rfl rfl
    cases ho : containerOver cfg s with
    | true =>
      obtain ⟨q', rest', h⟩ := (takeBeats_packet hp).2 _ (hover ho)
      rw [h]
      exact ⟨rfl, rfl⟩
    | false =>
      obtain ⟨q', h, hr⟩ := hfine ho
      rw [(takeBeats_packet hp).1 _ h]
      refine ⟨rfl, rfl, ?_⟩
      rcases hr with hr | ⟨hph, hr⟩
      · exact ctDesResult_endsAs hr
      · simp [ctDesResult, hph, hr]
  multiplexer l t ht := by
    subst ht
    obtain ⟨q, -, h⟩ := emitContainer_out l { t with seq := { t.seq with plan := [] } }
    rw [emitPhases, h]
    rfl

end Sys2Proof.Machine
end

