-- ==== Sys2Proof/Laws/Status.lean ====
section
/-! SUPPORT. What a read of `STATUS` can give (20_memory.md R62 (d), U21): bit by bit, and where no bit is free. -/

namespace Sys2Proof.Machine

/-- The bits of `STATUS` as `statusWith` places them (10_state.md R26). -/
theorem statusWith_bits (s : State) (tt ck cl : Bool) :
    (statusWith s tt ck cl).getLsbD 0 = s.busy ∧ (statusWith s tt ck cl).getLsbD 1 = tt ∧
    (statusWith s tt ck cl).getLsbD 2 = ck ∧ (statusWith s tt ck cl).getLsbD 3 = cl ∧
    (statusWith s tt ck cl).getLsbD 4 = s.flt := by
  unfold statusWith
  cases s.busy <;> cases s.flt <;> cases tt <;> cases ck <;> cases cl <;> decide

/-- A changing bit reads its old or its new value. -/
theorem changing_cases (s : State) (reading bit : Nat) (old new : Bool) :
    changing s reading bit old new = old ∨ changing s reading bit old new = new := by
  unfold changing
  split
  · exact .inr rfl
  · exact .inl rfl

/-- A bit that the command does not change is not free. -/
@[simp] theorem changing_same (s : State) (reading bit : Nat) (x : Bool) : changing s reading bit x x = x :=
  (changing_cases s reading bit x x).elim id id

/-- A bit changes once: a later read keeps the new value. -/
theorem changing_stays {s : State} {reading later bit : Nat} {old new : Bool} (hl : reading ≤ later)
    (h : changing s reading bit old new = new) : changing s later bit old new = new := by
  unfold changing at *
  split
  · rfl
  · next hn => rwa [if_neg (by omega)] at h

/-- With no command in progress every bit is as `statusByte` has it. -/
theorem statusRead_between {s : State} (hc : s.cur = none) (hr : s.rsp = none) (reading : Nat) :
    statusRead reading s = statusByte s := by
  simp [statusRead, hc, hr]

/-- While output is owed by a command that changed no object register, too. -/
theorem statusRead_unchanged {s : State} {y : Response} (hr : s.rsp = some y) (hw : s.was = s.held) (reading : Nat) :
    statusRead reading s = statusByte s := by
  simp [statusRead, hr, hw, State.held, statusByte]

end Sys2Proof.Machine
end

