-- ==== Sys2Proof/Laws/Steps.lean ====
section
/-! SUPPORT. All that one step can do (00_scope.md R6, R7), said once, and when each kind of step is taken. -/

namespace Sys2Proof.Machine

/-- A `DOUT` beat that is owed goes first. -/
theorem step_dout {s : State} {b : Beat} {bs : List Beat} (h : s.dout = b :: bs) :
    step s = if s.doutRoom = 0 then .fault .waitingForDout else .next (moveDout b bs s) := by
  simp [step, codecStep, h]

/-- Then the `RSP` beat. -/
theorem step_rsp {s : State} {y : Response} (hd : s.dout = []) (h : s.rsp = some y) :
    step s = if s.rspRoom = 0 then .fault .waitingForRsp else .next (moveRsp y s) := by
  simp [step, codecStep, hd, h]

/-- With no output owed, a step takes input. -/
theorem step_input {s : State} (hd : s.dout = []) (hr : s.rsp = none) : step s = inputStep exec s := by
  simp [step, codecStep, hd, hr]

/-- A command in progress takes the beats that have come. -/
theorem step_resume {s : State} {c : Consumer} (hd : s.dout = []) (hr : s.rsp = none) (hc : s.cur = some c)
    (h : s.din ≠ []) : step s = .next (resume c s) := by
  rw [step_input hd hr, inputStep, hc]
  cases hb : s.din with
  | nil => exact absurd hb h
  | cons b bs => rfl

/-- An idle PCC takes the first command word. -/
theorem step_idle {s : State} {w : CmdWord} {rest : List CmdWord} (hi : s.Idle) (hc : s.cmd = w :: rest) :
    step s =
      match decode w with
      | .ok i => exec i { s with cmd := rest }
      | .error _ => .next (illegalWord { s with cmd := rest }) := by
  rw [step_input hi.dout_eq hi.rsp_eq, inputStep, hi.cur_eq, hi.busy_eq, hc]
  rfl

/-- A step that answers a next state has moved an output beat, gone on with the command in progress, or taken a command
word. -/
theorem step_cases {s t : State} (h : step s = .next t) :
    (∃ b bs, s.dout = b :: bs ∧ 0 < s.doutRoom ∧ t = moveDout b bs s) ∨
    (∃ y, s.dout = [] ∧ s.rsp = some y ∧ 0 < s.rspRoom ∧ t = moveRsp y s) ∨
    (∃ c, s.dout = [] ∧ s.rsp = none ∧ s.cur = some c ∧ s.din ≠ [] ∧ t = resume c s) ∨
    (∃ w rest, s.Idle ∧ s.cmd = w :: rest ∧
      ((∃ i, decode w = .ok i ∧ exec i { s with cmd := rest } = .next t) ∨
        ∃ why, decode w = .error why ∧ t = illegalWord { s with cmd := rest })) := by
  cases hd : s.dout with
  | cons b bs =>
    rw [step_dout hd] at h
    split at h
    · cases h
    · cases h
      exact .inl ⟨b, bs, rfl, by omega, rfl⟩
  | nil =>
    cases hr : s.rsp with
    | some y =>
      rw [step_rsp hd hr] at h
      split at h
      · cases h
      · cases h
        exact .inr (.inl ⟨y, rfl, rfl, by omega, rfl⟩)
    | none =>
      rw [step_input hd hr] at h
      cases hc : s.cur with
      | some c =>
        cases hb : s.din with
        | nil => simp [inputStep, hc, hb] at h
        | cons b bs =>
          simp only [inputStep, hc, hb, Host.Outcome.next.injEq] at h
          exact .inr (.inr (.inl ⟨c, rfl, rfl, rfl, by simp, h.symm⟩))
      | none =>
        cases hy : s.busy with
        | true => simp [inputStep, hc, hy] at h
        | false =>
          cases hm : s.cmd with
          | nil => simp [inputStep, hc, hy, hm] at h
          | cons w rest =>
            have hi : s.Idle := ⟨hc, hd, hr, hy⟩
            rw [← step_input hd hr, step_idle hi hm] at h
            refine .inr (.inr (.inr ⟨w, rest, hi, rfl, ?_⟩))
            cases hw : decode w with
            | ok i => exact .inl ⟨i, rfl, by simpa only [hw, hc, hd, hr, hy] using h⟩
            | error why =>
              simp only [hw, hc, hd, hr, hy, Host.Outcome.next.injEq] at h
              exact .inr ⟨why, rfl, h.symm⟩

end Sys2Proof.Machine
end

