-- ==== Sys2Proof/Tests/Slice0.lean ====
section
/-! SUPPORT. Tests. Expected results come from spec/95_test_vectors.md; each test names its section or vector. Then, for each
obligation that has hypotheses, a concrete state that meets them. The theorems are checked one after another
(`Elab.async false`): all at once they would start more threads than the memory of a check holds. -/

set_option Elab.async false

namespace Sys2Proof.Tests

open Sys2Proof Sys2Proof.Machine

/-! ## Data of 95_test_vectors.md -/

/-- "teSt". -/
def teSt : Tag := ⟨0x74, 0x65, 0x53, 0x74⟩

/-- "IEND". -/
def iend : Tag := ⟨0x49, 0x45, 0x4E, 0x44⟩

/-- "hello". -/
def hello : List Byte := [0x68, 0x65, 0x6C, 0x6C, 0x6F]

/-- The chunk of section 3.3, line 1. -/
def helloChunk : Chunk := ⟨5, teSt, hello, 0xA1F1C5CE⟩

/-- The chunk of section 3.3, line 2. -/
def iendChunk : Chunk := ⟨0, iend, [], 0xAE426082⟩

/-- The record `r` of section 3.3. -/
def r : List Byte :=
  [0x00, 0x00, 0x00, 0x05, 0x74, 0x65, 0x53, 0x74, 0x68, 0x65, 0x6C, 0x6C, 0x6F, 0xA1, 0xF1, 0xC5, 0xCE]

/-- The record `r0` of section 3.3. -/
def r0 : List Byte := [0x00, 0x00, 0x00, 0x00, 0x49, 0x45, 0x4E, 0x44, 0xAE, 0x42, 0x60, 0x82]

/-- `M` of section 3.5. -/
def magic : List Byte := [0x89, 0x50, 0x4E, 0x47, 0x0D, 0x0A, 0x1A, 0x0A]

/-- A machine right after reset but for the contents of its object registers. -/
def loaded : State :=
  { State.reset with
    tt := some (.len4 teSt)
    ck := some helloChunk
    cl := some [helloChunk, iendChunk] }

/-- `PAYLOAD_MAX = 4` and `CHUNKS_MAX = 1` (section 3.6). -/
def small : Config := { Config.standard with payloadMax := 4, chunksMax := 1 }

/-- `s` with one packet on `DIN`. -/
def sent (p : List Byte) (s : State) : State := { s with din := packetBeats p }

/-- `s` with the bytes `p` on `DIN` and no `last` beat. -/
def sentPart (p : List Byte) (s : State) : State := { s with din := p.map fun b => ⟨some b, false⟩ }

/-- A test of the next state, false where there is none. -/
def after (o : Out) (p : State → Bool) : Bool :=
  match o with
  | .next t => p t
  | .fault _ => false
  | .refused _ => false

/-- The step has no next state, because of `f`. -/
def stuck (o : Out) (f : Fault) : Bool :=
  match o with
  | .next _ => false
  | .fault g => g = f
  | .refused _ => false

/-- `t` owes the response `(e, v)`. -/
def owes (t : State) (e : ErrCode) (v : Word) : Bool := t.rsp = some ⟨e, v⟩

/-- The command answers `(e, v)` and, where it emits one, the packet `p`; nothing has moved. -/
def gives (o : Out) (e : ErrCode) (v : Word) (p : List Beat) : Bool :=
  after o fun t => owes t e v && decide (t.dout = p) && t.out = []

/-! ## Well-formed commands -/

theorem test_wf_refuses_a_wide_index : (Instr.ctChunks (2 ^ 32)).wf = false := by decide
theorem test_wf_takes_the_widest_index : (Instr.ctChunks (2 ^ 32 - 1)).wf = true := by decide

/-! ## Decoding (section 2) -/

theorem test_decode_crc :
    decodeBytes [0x10, 0, 0, 0, 0] = .ok .crcGen ∧
    decodeBytes [0x11, 0xCB, 0xF4, 0x39, 0x26] = .ok (.crcVfy 0xCBF43926#32) := by decide +kernel

theorem test_decode_tt :
    decodeBytes [0x20, 0, 0, 0, 0] = .ok .ttParse ∧
    decodeBytes [0x21, 0x74, 0x65, 0x53, 0x74] = .ok (.ttParseb teSt) ∧
    decodeBytes [0x22, 0, 0, 0, 0] = .ok .ttBytes ∧
    decodeBytes [0x23, 0, 0, 0, 0] = .ok .ttValid ∧
    decodeBytes [0x24, 0, 0, 0, 0] = .ok .ttCrit ∧
    decodeBytes [0x25, 0, 0, 0, 0] = .ok .ttPub ∧
    decodeBytes [0x26, 0, 0, 0, 0] = .ok .ttRsvd ∧
    decodeBytes [0x27, 0, 0, 0, 0] = .ok .ttSafe ∧
    decodeBytes [0x28, 0, 0, 0, 0] = .ok .ttDisp := by decide +kernel

theorem test_decode_ch :
    decodeBytes [0x30, 0, 0, 0, 0] = .ok .chNew ∧
    decodeBytes [0x31, 0, 0, 0, 0] = .ok .chLen ∧
    decodeBytes [0x32, 0, 0, 0, 0] = .ok .chType ∧
    decodeBytes [0x33, 0, 0, 0, 0] = .ok .chData ∧
    decodeBytes [0x34, 0, 0, 0, 0] = .ok .chCrc ∧
    decodeBytes [0x35, 0, 0, 0, 0] = .ok .chStr ∧
    decodeBytes [0x36, 0, 0, 0, 0] = .ok .chSer ∧
    decodeBytes [0x37, 0, 0, 0, 0] = .ok .chDes := by decide +kernel

theorem test_decode_ct :
    decodeBytes [0x40, 0, 0, 0, 0] = .ok .ctFrom ∧
    decodeBytes [0x41, 0, 0, 0, 0] = .ok .ctAppend ∧
    decodeBytes [0x42, 0, 0, 0, 0] = .ok .ctRemove ∧
    decodeBytes [0x43, 0, 0, 0, 0] = .ok .ctFind ∧
    decodeBytes [0x44, 0, 0, 0, 1] = .ok (.ctChunks 1) ∧
    decodeBytes [0x45, 0, 0, 0, 0] = .ok .ctSer ∧
    decodeBytes [0x46, 0, 0, 0, 0] = .ok .ctDes := by decide +kernel

/-- The illegal words of section 2. -/
theorem test_decode_refuses :
    ([0x0000000000, 0xFFFFFFFFFF, 0x1200000000, 0x2900000000, 0x3800000000, 0x4700000000, 0x2200000005, 0x4600000001] :
      List CmdWord).all (fun w => (decode w).toOption = none) = true := by decide +kernel

theorem test_table_word : decodeTableWord 40 0x2174655374 = some (.ttParseb teSt) := by decide +kernel

/-! ## The CRC unit (section 3.1) -/

theorem test_crc_byte :
    crcByte Config.standard 0 1 = 0x77073096 ∧ crcByte Config.standard 0xFFFFFFFF 0x61 = 0x174841BC := by decide +kernel

theorem test_crc_check_value :
    gives (exec .crcGen (sent [0x31, 0x32, 0x33, 0x34, 0x35, 0x36, 0x37, 0x38, 0x39] State.reset)) .ok 0xCBF43926 [] = true := by
  decide +kernel

theorem test_crc_vfy_wrong :
    gives (exec (.crcVfy 0xA1F1C5CF#32) (sent (teSt.toList ++ hello) State.reset)) .checksumMismatch 0xA1F1C5CE [] = true := by
  decide +kernel

theorem test_crc_vfy_empty : gives (exec (.crcVfy 0#32) (sent [] State.reset)) .ok 0 [] = true := by decide +kernel

/-! ## The TypeTag unit (section 3.2) -/

theorem test_tt_parse_long :
    after (exec .ttParse (sent [0x74, 0x65, 0x53, 0x74, 0x78] State.reset)) (fun t => t.tt = some (.long teSt)) = true := by
  decide +kernel

theorem test_tt_parse_three :
    after (exec .ttParse (sent [0x74, 0x65, 0x53] State.reset)) (fun t => t.tt = some (.len3 0x74 0x65 0x53)) = true := by
  decide +kernel

/-- The table of section 3.2 for `TT.PARSEB`. -/
theorem test_text_accepted :
    ([0x00000000, 0x7F7F7F7F, 0x4142C3A9, 0xC2804142, 0xDFBF4142, 0xE0A08041, 0xE282AC41, 0xED9FBF41, 0xEFBFBF41, 0xF0908080,
      0xF09F9880, 0xF48FBFBF] : List Word).all (fun v => utf8Ok (Tag.ofWord v).toList) = true := by decide +kernel

/-- The same table, its second half. -/
theorem test_text_refused :
    ([0xFF414243, 0x80414243, 0xC0804142, 0xC1BF4142, 0xC3284142, 0x414243C3, 0xE2824141, 0xE09F8041, 0xEDA08041, 0xF08F8080,
      0xF4908080, 0xF5808080] : List Word).any (fun v => utf8Ok (Tag.ofWord v).toList) = false := by decide +kernel

theorem test_tt_parseb_not_text :
    after (exec (.ttParseb ⟨0xFF, 0x41, 0x42, 0x43⟩) loaded)
      (fun t => owes t .invalidTypeTagEncoding 0 && t.tt = some (.len4 teSt)) = true := by decide +kernel

theorem test_tt_bytes : gives (exec .ttBytes loaded) .ok 0x74655374 [] = true := by decide +kernel

/-- `loaded` with another tag. -/
def tagged (t : Tag) : State := { loaded with tt := some (.len4 t) }

theorem test_tt_valid_just_outside : gives (exec .ttValid (tagged ⟨0x40, 0x5B, 0x60, 0x7B⟩)) .ok 0 [] = true := by decide +kernel
theorem test_tt_valid_range_ends : gives (exec .ttValid (tagged ⟨0x41, 0x5A, 0x61, 0x7A⟩)) .ok 1 [] = true := by decide +kernel
theorem test_tt_crit : gives (exec .ttCrit (tagged ⟨0x52, 0x75, 0x73, 0x74⟩)) .ok 1 [] = true := by decide +kernel
theorem test_tt_pub : gives (exec .ttPub (tagged ⟨0x74, 0x45, 0x73, 0x74⟩)) .ok 1 [] = true := by decide +kernel
theorem test_tt_rsvd_lower : gives (exec .ttRsvd loaded) .ok 0 [] = true := by decide +kernel

theorem test_tt_rsvd_upper :
    gives (exec .ttRsvd { loaded with cfg := { Config.standard with rsvdExpect := .upper } }) .ok 1 [] = true := by decide +kernel

theorem test_tt_safe : gives (exec .ttSafe (tagged ⟨0x54, 0x45, 0x53, 0x54⟩)) .ok 0 [] = true := by decide +kernel

theorem test_tt_disp :
    gives (exec .ttDisp loaded) .ok 0
      [⟨some 0x74, false⟩, ⟨some 0x65, false⟩, ⟨some 0x53, false⟩, ⟨some 0x74, true⟩] = true := by decide +kernel

/-! ## The chunk unit (section 3.3, 3.6) -/

theorem test_ch_new :
    after (exec .chNew (sent hello { loaded with ck := none })) (fun t => t.ck = some helloChunk) = true := by decide +kernel

/-- X7. -/
theorem test_ch_new_over :
    after (exec .chNew (sent hello { loaded with cfg := small, ck := none }))
      (fun t => t.fault = some .capacity && t.ck = none && decide (t.seq.pos = 5)) = true := by decide +kernel

theorem test_ch_len : gives (exec .chLen loaded) .ok 5 [] = true := by decide +kernel

/-- X1, once the host has taken the `RSP` beat. -/
theorem test_ch_len_from_reset :
    after (exec .chLen (willTake 0 1 State.reset)) (fun t => after (step t) fun u => statusByte u = 0x11#8 &&
      u.fault = some .unwritten && u.out = [.rsp .faulted 2] && rspWord u.err u.res = 0xFF00000002#40 &&
      stuck (step u) .halted) = true := by decide +kernel

theorem test_ch_type :
    after (exec .chType { loaded with ck := some iendChunk })
      (fun t => owes t .ok 0x49454E44 && t.tt = some (.len4 iend)) = true := by decide +kernel

theorem test_ch_data_empty : gives (exec .chData { loaded with ck := some iendChunk }) .ok 0 [⟨none, true⟩] = true := by
  decide +kernel

theorem test_ch_crc : gives (exec .chCrc loaded) .ok 0xA1F1C5CE [] = true := by decide +kernel

theorem test_ch_str_not_text :
    gives (exec .chStr { loaded with ck := some ⟨1, teSt, [0xC3], 0xE14C0932⟩ }) .payloadNotText 0 [] = true := by decide +kernel

theorem test_ch_ser : gives (exec .chSer loaded) .ok 0 (packetBeats r) = true := by decide +kernel

/-- `r ++ [FF FF]`, and Length `FF FF FF FF`, where a 32-bit sum would wrap (R84). -/
theorem test_ch_des :
    after (exec .chDes (sent (r ++ [0xFF, 0xFF]) { loaded with ck := none })) (fun t => t.ck = some helloChunk && owes t .ok 0) =
      true ∧
    gives (exec .chDes (sent ([0xFF, 0xFF, 0xFF, 0xFF] ++ r.drop 4) loaded)) .truncatedStream 0 [] = true := by
  decide +kernel

/-! ## The container unit (section 3.5, 3.6) -/

theorem test_ct_from :
    after (exec .ctFrom (willTake 0 1 State.reset))
      (fun t => after (step t) fun u => u.cl = some [] && statusByte u = 0x08#8) = true := by decide +kernel

/-- The last line of X9. -/
theorem test_ct_append_full :
    after (exec .ctAppend { loaded with cfg := small, cl := some [iendChunk] })
      (fun t => t.fault = some .capacity && t.ck = some helloChunk && t.cl = some [iendChunk]) = true := by decide +kernel

theorem test_ct_append :
    after (exec .ctAppend { loaded with cl := some [iendChunk] })
      (fun t => t.ck = none && t.cl = some [iendChunk, helloChunk]) = true := by decide +kernel

/-- K17. -/
theorem test_ct_remove :
    after (exec .ctRemove (sent teSt.toList loaded)) (fun t => t.ck = some helloChunk && t.cl = some [iendChunk]) = true := by
  decide +kernel

/-- K18. -/
theorem test_ct_remove_absent : gives (exec .ctRemove (sent [0x74, 0x65, 0x73, 0x74] loaded)) .notFound 0 [] = true := by
  decide +kernel

/-- K15. -/
theorem test_ct_find :
    after (exec .ctFind (sent iend.toList loaded)) (fun t => owes t .ok 1 && t.ck = some iendChunk) = true := by decide +kernel

/-- K16, "IENDx". -/
theorem test_ct_find_long : gives (exec .ctFind (sent (iend.toList ++ [0x78]) loaded)) .ok 0 [] = true := by decide +kernel

/-- K20. -/
theorem test_ct_chunks :
    after (exec (.ctChunks 1) loaded) (fun t => owes t .ok 2 && t.ck = some iendChunk) = true ∧
    gives (exec (.ctChunks 0xFFFFFFFF) loaded) .noSuchIndex 2 [] = true := by decide +kernel

/-- K3. -/
theorem test_ct_ser : gives (exec .ctSer loaded) .ok 0 (packetBeats (magic ++ r ++ r0)) = true := by decide +kernel

/-- K3. -/
theorem test_ct_des :
    after (exec .ctDes (sent (magic ++ r ++ r0) State.reset)) (fun t => t.cl = some [helloChunk, iendChunk]) = true := by
  decide +kernel

/-- The row `pos = 20` of the sequencer table of section 3.5. -/
theorem test_ct_des_sequencer :
    after (exec .ctDes (sentPart (magic ++ r.take 13) State.reset)) (fun t => t.seq.ph = .crc && t.seq.idx == 0 &&
      t.seq.rem == 0 && t.seq.lenr = 5 && t.seq.crcR = 0x5E0E3A31 && t.cur = some .ctDes && t.busy) = true := by decide +kernel

/-- Section 3.4, `tag_first`: bit 7 of byte 4. -/
theorem test_error_order :
    gives (exec .chDes (sent (r.set 4 0xF4) loaded)) .checksumMismatch 0 [] = true ∧
    gives (exec .chDes (sent (r.set 4 0xF4) { loaded with cfg := { Config.standard with errOrder := .tagFirst } }))
      .invalidTypeTagEncoding 0 [] = true := by decide +kernel

/-! ## Steps -/

/-- `withFetchWord` makes the next step run the word, from reset. -/
theorem test_fetch : after (step (State.reset.withFetchWord 40 0x4000000000)) (fun t => t.cl = some [] && t.cmd = []) = true := by
  decide +kernel

/-- An illegal word of section 2. -/
theorem test_step_illegal :
    after (step (State.reset.withFetchWord 40 0x2200000005))
      (fun t => t.fault = some .illegal && owes t .faulted 1) = true := by decide +kernel

/-- `CH.SER` with its first three `DOUT` beats moved (R167: the sequencer stands at the fourth byte of Length). -/
def midOutput : State :=
  match exec .chSer { loaded with err := .notFound, res := 7, doutRoom := 3 } with
  | .next t => (t.dout.take 3).foldl (fun s b => moveDout b (s.dout.drop 1) s) t
  | .fault _ => loaded
  | .refused _ => loaded

/-- In the middle of the output `CSR` reads (20_memory.md R62 (d)): `BUSY`, all three object registers held, `ERR` and `RES` of the
command before. The host that takes no more beats leaves PCC stuck (U19). -/
theorem test_csr_mid_output (reading : Nat) :
    csrRead reading 0 midOutput = 0x0F#32 ∧ csrRead reading 1 midOutput = 5#32 ∧ csrRead reading 2 midOutput = 7#32 ∧
    midOutput.dout.length = 14 ∧ midOutput.seq.ph = .sLen ∧ midOutput.seq.idx = 3 ∧
    stuck (step midOutput) .waitingForDout = true := by
  have hr : midOutput.rsp = some ⟨.ok, 0⟩ := by decide +kernel
  have hw : midOutput.was = midOutput.held := by decide +kernel
  have h1 : csrRead reading 1 midOutput = midOutput.err.code.setWidth 32 := rfl
  have h2 : csrRead reading 2 midOutput = midOutput.res := rfl
  rw [h1, h2, show csrRead reading 0 midOutput = (statusByte midOutput).setWidth 32 by
    rw [← statusRead_unchanged hr hw reading]; rfl]
  decide +kernel

/-! ## Witnesses: for each obligation, a state and operands that meet its hypotheses -/

theorem test_witness_EncodeThenDecodeGivesTheCommand :
    (Instr.ctChunks (2 ^ 32 - 1)).wf = true ∧ (Instr.crcVfy 0xFFFFFFFF#32).wf = true ∧ Instr.ctDes.wf = true := by decide

theorem test_witness_DecodedWordIsTheEncoding : decode 0x44FFFFFFFF#40 = .ok (.ctChunks (2 ^ 32 - 1)) := by decide +kernel

/-- A faulted machine that still owes its `RSP` beat, and the same with that beat moved. -/
def faulted : State := State.reset.taken.haltedBy Seq.reset .capacity

def halted : State := moveRsp ⟨.faulted, 4⟩ faulted

/-- Both kinds of illegal word, first on `CMD` of an idle machine. -/
theorem test_witness_IllegalWordsFault :
    loaded.Idle ∧
    decode 0x4700000000#40 = .error (.unknownOp 0x47) ∧ decode 0x2200000005#40 = .error (.argNotZero 0x22 5) :=
  ⟨⟨rfl, rfl, rfl, rfl⟩, by decide +kernel⟩

theorem test_witness_StepRunsTheDecodedCommand :
    let s := loaded.withFetchWord 40 0x2174655374
    s.Idle ∧ s.cmd = 0x2174655374#40 :: [] ∧ decode 0x2174655374#40 = .ok (.ttParseb teSt) :=
  ⟨⟨rfl, rfl, rfl, rfl⟩, by decide +kernel⟩

theorem test_reset_list : ListValid Config.standard [] := ⟨by decide, by simp⟩

theorem test_faulted_inv : (willTake 0 1 faulted).Inv where
  ck_valid := fun _ h => nomatch h
  cl_valid := fun _ h => nomatch h
  sl_valid := test_reset_list
  flt_eq := rfl
  busy_eq := rfl
  one_end := fun h => absurd rfl h
  dout_ok := fun h => absurd rfl h
  fault_rsp := fun y h => by cases h; decide
  idle_between := fun _ h => nomatch h
  waiting := fun _ h => nomatch h
  held_eq := fun _ => rfl

theorem test_halted_inv : halted.Inv where
  ck_valid := fun _ h => nomatch h
  cl_valid := fun _ h => nomatch h
  sl_valid := test_reset_list
  flt_eq := rfl
  busy_eq := rfl
  one_end := fun h => absurd rfl h
  dout_ok := fun h => absurd rfl h
  fault_rsp := fun _ h => nomatch h
  idle_between := fun _ _ => rfl
  waiting := fun _ h => nomatch h
  held_eq := fun _ => rfl

/-- The block before and after the `RSP` beat of the fault has moved. -/
theorem test_witness_FaultedBlockHaltsUntilReset :
    (halted.Inv ∧ halted.fault ≠ none ∧ halted.rsp = none) ∧
    (willTake 0 1 faulted).Inv ∧ (willTake 0 1 faulted).fault ≠ none ∧
    after (step (willTake 0 1 faulted)) (fun _ => true) = true :=
  ⟨⟨test_halted_inv, by decide, by decide⟩, test_faulted_inv, by decide, by decide +kernel⟩

/-- A step stuck in each of the five ways, and one that is not. -/
theorem test_witness_WhichStuckStateAStepIsIn :
    stuck (step { loaded with busy := true, dout := packetBeats hello, rsp := some ⟨.ok, 0⟩, rspRoom := 1 }) .waitingForDout =
      true ∧
    stuck (step { loaded with busy := true, rsp := some ⟨.ok, 0⟩, doutRoom := 1 }) .waitingForRsp = true ∧
    stuck (step { loaded with cur := some .crcGen, busy := true }) .waitingForDin = true ∧
    stuck (step loaded) .waitingForCmd = true ∧
    stuck (step (willTake 1 1 halted)) .halted = true ∧
    after (step (sent hello { loaded with cur := some .crcGen, busy := true })) (fun _ => true) = true := by decide +kernel

/-- Clause by clause: no `last` beat; a payload of exactly `PAYLOAD_MAX` bytes; a record of exactly the capacity, and one that
an 8-byte head begins; a container with a full list. -/
theorem test_witness_ConsumingCommandsWaitForTheirPacket :
    firstPacket (sentPart [0x68, 0x65, 0x6C, 0x6C] loaded).din = none ∧ firstPacket [] = none ∧
    (availBytes (sentPart [0x68, 0x65, 0x6C, 0x6C] loaded).din).length = small.payloadMax.toNat ∧
    loaded.tt = some (.len4 teSt) ∧ loaded.cl ≠ none ∧
    recordOver small (availBytes (sentPart (r.take 12) loaded).din) 0 = false ∧
    recordOver small (availBytes (sentPart (r.take 8) loaded).din) 0 = false ∧
    containerOver small (availBytes (sentPart (magic ++ r0) loaded).din) = false := by decide +kernel

theorem test_witness_LateBeatsGiveTheSameResult :
    after (exec .ctDes { loaded with din := (packetBeats (magic ++ r)).take 20 }) (fun t => t.cur ≠ none) = true ∧
    (packetBeats (magic ++ r)).drop 20 ≠ [] ∧ loaded.dout = [] ∧ loaded.rsp = none := by decide +kernel

/-- The packet that the statements about consuming commands ask for: with bytes, empty, and with null beats inside. -/
theorem test_witness_packets :
    firstPacket (sent hello loaded).din = some (hello, []) ∧ firstPacket (packetBeats []) = some ([], []) ∧
    firstPacket [⟨some 0x61, false⟩, ⟨none, false⟩, ⟨none, true⟩, ⟨some 0x62, true⟩] = some ([0x61], [⟨some 0x62, true⟩]) := by
  decide +kernel

theorem test_witness_CrcGenAnswersTheChecksum : firstPacket (sent hello loaded).din = some (hello, []) := by decide

theorem test_witness_CrcVfyComparesTheChecksum :
    firstPacket (sent (teSt.toList ++ hello) loaded).din = some (teSt.toList ++ hello, []) ∧
    crc32 loaded.cfg (teSt.toList ++ hello) = 0xA1F1C5CE ∧ crc32 loaded.cfg (teSt.toList ++ hello) ≠ 0xA1F1C5CF := by
  decide +kernel

theorem test_witness_SingleBitChangesTheChecksum : Config.standard.crcPolyR = 0xEDB88320#32 ∧ 7 < 8 := by decide

theorem test_witness_TtParseStoresTheText :
    firstPacket (sent [] loaded).din = some ([], []) ∧
    firstPacket (sent (teSt.toList ++ hello) loaded).din = some (teSt.toList ++ hello, []) := by decide

theorem test_witness_TtParsebTestsTheText : utf8Ok teSt.toList = true ∧ utf8Ok [0xFF, 0x41, 0x42, 0x43] = false := by decide

theorem test_witness_TtBytesAndDispGiveTheFourBytes : loaded.tt = some (.len4 teSt) := by decide

theorem test_witness_TtValidAnswersTheValidity :
    loaded.tt = some (.len4 teSt) ∧ ({ loaded with tt := some .len0 } : State).tt = some .len0 := by decide

theorem test_witness_TtFlagsAnswerTheSelectors :
    loaded.tt = some (.len4 teSt) ∧ loaded.cfg.rsvdExpect = .lower ∧
    ({ Config.standard with rsvdExpect := .upper } : Config).rsvdExpect = .upper := by decide

/-- Lengths 3 and 5, either side of 4. -/
theorem test_witness_TagReadersFault :
    State.reset.tt = none ∧ (TypeTag.len3 0x74 0x65 0x53).n ≠ 4 ∧ (TypeTag.long teSt).n ≠ 4 ∧
    ({ loaded with tt := some (.long teSt) } : State).tt = some (.long teSt) := by decide

/-- X6: a payload of exactly `PAYLOAD_MAX` bytes. -/
theorem test_witness_ChNewBuildsTheChunk :
    let s := sent [0x68, 0x65, 0x6C, 0x6C] { loaded with cfg := small }
    s.tt = some (.len4 teSt) ∧ firstPacket s.din = some ([0x68, 0x65, 0x6C, 0x6C], []) ∧ 4 ≤ s.cfg.payloadMax.toNat := by
  decide +kernel

/-- X7: one byte more. -/
theorem test_witness_ChNewFaultsPastTheCapacity :
    let s := sent hello { loaded with cfg := small }
    s.tt = some (.len4 teSt) ∧ s.cfg.payloadMax.toNat < (availBytes s.din).length := by decide +kernel

theorem test_witness_chunk : loaded.ck = some helloChunk := by decide

theorem test_valid_hello : helloChunk.Valid Config.standard := ⟨by decide, by decide +kernel, by decide +kernel⟩
theorem test_valid_iend : iendChunk.Valid small := ⟨by decide, by decide +kernel, by decide +kernel⟩

/-- For `ChAccessorsAnswerTheFields`, `ChTypeDeliversTheTagTwice`, `ChStrEmitsOnlyText`, `ChSerEmitsTheRecord`. -/
theorem test_witness_ChSerEmitsTheRecord : loaded.ck = some helloChunk ∧ helloChunk.Valid loaded.cfg :=
  ⟨by decide, test_valid_hello⟩

theorem test_witness_ChStrEmitsOnlyText : utf8Ok helloChunk.data = true ∧ utf8Ok [0xC3] = false := by decide

/-- A record that parses, one that is short, and one of exactly `PAYLOAD_MAX` payload bytes. -/
theorem test_witness_ChDesParsesOneRecord :
    firstPacket (sent r loaded).din = some (r, []) ∧ recordOver loaded.cfg r 0 = false ∧
    recordOver small (r.set 3 0x04) 0 = false ∧ recordOver small (r.take 12) 0 = false := by decide +kernel

/-- The 13th byte is payload byte 5. -/
theorem test_witness_ChDesFaultsPastTheCapacity :
    let s := sentPart (r.take 13) { loaded with cfg := small }
    recordOver s.cfg (availBytes s.din) 0 = true := by decide +kernel

theorem test_witness_ChunkReadersFault : State.reset.ck = none := by decide

/-- A full list, one with room, and each register empty. -/
theorem test_witness_CtAppendMovesTheChunk :
    loaded.cl = some [helloChunk, iendChunk] ∧ loaded.ck = some helloChunk ∧ [iendChunk].length = small.chunksMax.toNat ∧
    [helloChunk, iendChunk].length ≠ Config.standard.chunksMax.toNat ∧
    ({ loaded with ck := none } : State).ck = none ∧ State.reset.cl = none := by decide +kernel

/-- For `CT.REMOVE` and `CT.FIND`: a text that matches, and one that does not. -/
theorem test_witness_CtRemoveTakesTheFirstMatch :
    loaded.cl = some [helloChunk, iendChunk] ∧ firstPacket (sent iend.toList loaded).din = some (iend.toList, []) ∧
    firstPacket (sent hello loaded).din = some (hello, []) := by decide

theorem test_witness_CtFindCopiesTheFirstMatch :
    loaded.cl = some [helloChunk, iendChunk] ∧ firstPacket (sent teSt.toList loaded).din = some (teSt.toList, []) := by decide

/-- The last index of the list and the one after it. -/
theorem test_witness_CtChunksEnumerates :
    loaded.cl = some [helloChunk, iendChunk] ∧ 1 < [helloChunk, iendChunk].length ∧ [helloChunk, iendChunk].length ≤ 2 := by decide

theorem test_witness_CtSerEmitsTheStream : loaded.cl = some [helloChunk, iendChunk] := by decide

/-- K3; and with both capacities just reached. -/
theorem test_witness_CtDesParsesTheStream :
    firstPacket (sent (magic ++ r ++ r0) loaded).din = some (magic ++ r ++ r0, []) ∧
    containerOver loaded.cfg (magic ++ r ++ r0) = false ∧ containerOver small (magic ++ r0) = false := by decide +kernel

/-- X8, at stream byte 20, and X10, at the last byte of the second record. -/
theorem test_witness_CtDesFaultsPastTheCapacity :
    containerOver small (availBytes (sentPart (magic ++ r.take 13) loaded).din) = true ∧
    containerOver { Config.standard with chunksMax := 1 } (availBytes (sent (magic ++ r ++ r0) loaded).din) = true := by
  decide +kernel

theorem test_witness_ListReadersFault : State.reset.cl = none := by decide

theorem test_witness_ChunkRoundTrip :
    let s := sent hello loaded
    s.tt = some (.len4 teSt) ∧ utf8Ok teSt.toList = true ∧ firstPacket s.din = some (hello, []) ∧
    hello.length ≤ s.cfg.payloadMax.toNat := by decide +kernel

/-- The first bit of the type field and the last of the Checksum field. -/
theorem test_witness_FlippedBitGivesChecksumMismatch :
    (loaded.cfg.crcPolyR = 0xEDB88320#32 ∧ loaded.cfg.errOrder = .crcFirst ∧ 16 < 12 + helloChunk.len.toNat ∧
      firstPacket (sent ((serChunk helloChunk).modify 4 (· ^^^ BitVec.twoPow 8 7)) loaded).din =
        some ((serChunk helloChunk).modify 4 (· ^^^ BitVec.twoPow 8 7), []) ∧
      firstPacket (sent ((serChunk helloChunk).modify 16 (· ^^^ BitVec.twoPow 8 0)) loaded).din =
        some ((serChunk helloChunk).modify 16 (· ^^^ BitVec.twoPow 8 0), [])) ∧ helloChunk.Valid loaded.cfg :=
  ⟨by decide +kernel, test_valid_hello⟩

theorem test_witness_ContainerRoundTrip :
    (loaded.cl = some [helloChunk, iendChunk] ∧ ∀ c ∈ [helloChunk, iendChunk], utf8Ok c.tag.toList = true) ∧
    ListValid loaded.cfg [helloChunk, iendChunk] := by
  refine ⟨by decide, by decide +kernel, fun c hc => ?_⟩
  simp only [List.mem_cons, List.not_mem_nil, or_false] at hc
  rcases hc with rfl | rfl
  · exact test_valid_hello
  · exact ⟨by decide, by decide +kernel, by decide +kernel⟩

/-- A short header and one wrong byte. -/
theorem test_witness_HeaderGate :
    firstPacket (sent (magic.take 7) loaded).din = some (magic.take 7, []) ∧
    (magic.take 7).take 8 ≠ loaded.cfg.magic.toList ∧
    (magic.set 7 0x0B ++ r).take 8 ≠ loaded.cfg.magic.toList := by decide +kernel

/-- `[A, B, A]`. -/
theorem test_witness_FindAndRemoveOnABA :
    let s := sent teSt.toList { loaded with cl := some [helloChunk, iendChunk, { helloChunk with data := [] }] }
    s.cl = some [helloChunk, iendChunk, { helloChunk with data := [] }] ∧ iendChunk.tag ≠ helloChunk.tag ∧
    firstPacket s.din = some (helloChunk.tag.toList, []) := by decide

/-- For the statements about every next state: one that answers, one that raises an error, one that faults, one that waits. -/
theorem test_witness_next_states :
    after (exec .chStr loaded) (fun t => t.cur = none && owes t .ok 0) = true ∧
    after (exec (.ctChunks 2) loaded) (fun t => t.cur = none && owes t .noSuchIndex 2) = true ∧
    after (exec .chStr State.reset) (fun t => t.cur = none && owes t .faulted 2 && t.fault ≠ none) = true ∧
    after (exec .crcGen loaded) (fun t => t.cur ≠ none) = true := by decide +kernel

/-- Output owed, with a host that takes exactly all of it: a whole packet and its response; and the response alone. -/
theorem test_witness_OneResponsePerCommand :
    after (exec .chSer (willTake 17 1 loaded)) (fun t => decide (t.dout.length ≤ t.doutRoom ∧ 0 < t.rspRoom ∧ t.dout ≠ []) &&
      owes t .ok 0) = true ∧
    after (exec .chLen (willTake 0 1 loaded)) (fun t => decide (t.dout.length ≤ t.doutRoom ∧ 0 < t.rspRoom ∧ t.dout = []) &&
      owes t .ok 5) = true := by decide +kernel

theorem test_witness_FailedCommandsChangeNoObjectRegister :
    after (exec (.ctChunks 2) loaded) (fun t => t.cur = none && owes t .noSuchIndex 2) = true ∧
    ErrCode.noSuchIndex ≠ .ok ∧ ErrCode.faulted ≠ .ok := by decide +kernel

theorem test_witness_CommandsThatRaiseNoError :
    after (exec .ctSer loaded) (fun t => t.cur = none) = true ∧ after (exec .ctSer State.reset) (fun t => t.cur = none) = true := by
  decide +kernel

theorem test_witness_FaultEntry :
    State.reset.fault = none ∧ State.reset.dout = [] ∧ 0 < (willTake 0 1 State.reset).rspRoom ∧
    after (exec .ctSer (willTake 0 1 State.reset)) (fun t => t.fault ≠ none) = true := by decide +kernel

/-- The frames: one command of each of the four groups that answers, and one of each that can fault and does. -/
theorem test_witness_frames :
    after (exec .ttValid loaded) (fun t => owes t .ok 1 || owes t .ok 0) = true ∧
    after (exec .chType loaded) (fun t => owes t .ok 0x74655374) = true ∧
    after (exec (.ctChunks 0) loaded) (fun t => owes t .ok 2) = true ∧
    after (exec (.ctChunks 2) loaded) (fun t => owes t .noSuchIndex 2) = true ∧
    after (exec .ctFrom loaded) (fun t => owes t .ok 0) = true := by decide +kernel

theorem test_witness_WholePacketIsConsumed :
    after (exec .crcGen (sent hello loaded)) (fun t => t.cur = none && t.din = [] && decide (t.rsp.map Response.err = some .ok)) =
      true ∧
    after (exec .chLen (sent hello loaded)) (fun t => t.cur = none && owes t .ok 5 && t.din = packetBeats hello) = true := by
  decide +kernel

theorem test_fetch_inv : (State.reset.withFetchWord 40 0x4000000000).Inv where
  ck_valid := fun _ h => nomatch h
  cl_valid := fun _ h => nomatch h
  sl_valid := test_reset_list
  flt_eq := rfl
  busy_eq := rfl
  one_end := fun h => absurd rfl h
  dout_ok := fun h => absurd rfl h
  fault_rsp := fun _ h => nomatch h
  idle_between := fun _ _ => rfl
  waiting := fun _ h => nomatch h
  held_eq := fun _ => rfl

theorem test_witness_StepKeepsTheInvariant :
    (State.reset.withFetchWord 40 0x4000000000).Inv ∧
    after (step (State.reset.withFetchWord 40 0x4000000000)) (fun _ => true) = true := ⟨test_fetch_inv, by decide +kernel⟩

theorem test_witness_StatusRegistersRead :
    loaded.cur = none ∧ loaded.rsp = none ∧ loaded.fault = none ∧ halted.fault = some .capacity ∧
    4 ≤ (7#3).toNat ∧ 4 ≤ (4#3).toNat := by decide

/-- A command that waits for its packet, one that can only succeed, and one that has accepted its record; and one that owes output,
with three of its beats moved. -/
theorem test_witness_StatusWhileACommandWaits :
    after (exec .ctDes State.reset) (fun t => t.cur ≠ none && t.rsp = none) = true ∧
    after (exec .ttParse State.reset) (fun t => t.cur ≠ none && t.rsp = none) = true ∧
    after (exec .chDes (sentPart r State.reset))
      (fun t => t.cur ≠ none && t.rsp = none && t.seq.ph = .drain && t.seq.perr = .ok) = true ∧
    after (exec .chSer { loaded with doutRoom := 3 }) (fun t => t.cur = none && decide (3 ≤ t.dout.length) &&
      after (step t) fun u => after (step u) fun v => after (step v) fun w => t.dout.drop 3 = w.dout) = true := by
  decide +kernel

theorem test_witness_ResetEmptiesEveryRegister :
    ({ halted with cmd := [0x4000000000#40] } : State).cmd = 0x4000000000#40 :: [] := by decide

/-- `CH.SER` owes 17 `DOUT` beats: a reset after 3 of them. -/
theorem test_witness_ResetAbandonsTheCommand :
    loaded.dout = [] ∧
    after (exec .chSer { loaded with doutRoom := 3 }) (fun t => t.dout.length = 17 &&
      after (step t) fun u => after (step u) fun v => after (step v) fun w => w.dout ≠ []) = true := by decide +kernel

theorem test_witness_ChMakeBuildsTheChunk :
    (willTake 0 2 State.reset).Good ∧ State.reset.din = [] ∧ 2 ≤ (willTake 0 2 State.reset).rspRoom ∧
    utf8Ok teSt.toList = true ∧ hello.length ≤ State.reset.cfg.payloadMax.toNat :=
  ⟨⟨rfl, ⟨rfl, rfl, rfl, rfl⟩, rfl⟩, by decide +kernel⟩

end Sys2Proof.Tests
end

/-! PROOFS. The statements of 00_scope.md: a step of an idle PCC runs the decoded command (R7), and a command ends by one
response, after at most one packet (R6, R7). -/

namespace Sys2Proof.Machine

/-! ## Owed output moves -/

/-- A willing host gets the first `DOUT` beat that is owed. -/
theorem step_eq_moveDout {s : State} {b : Beat} {bs : List Beat} (hd : s.dout = b :: bs) (hroom : 0 < s.doutRoom) :
    step s = .next (moveDout b bs s) := by
  rw [step_dout hd, if_neg (by omega)]

/-- With no `DOUT` beat owed, moving the `RSP` beat ends the command. -/
theorem moveRsp_eq_delivered {s : State} (y : Response) (hd : s.dout = []) :
    moveRsp y s = s.delivered { s.seq with plan := [] } y := by
  simp [moveRsp, State.delivered, hd]

/-- A willing host gets the `RSP` beat once no `DOUT` beat is owed. -/
theorem step_eq_delivered {s : State} {y : Response} (hd : s.dout = []) (hy : s.rsp = some y) (hroom : 0 < s.rspRoom) :
    step s = .next (s.delivered { s.seq with plan := [] } y) := by
  rw [step_rsp hd hy, if_neg (by omega), moveRsp_eq_delivered y hd]

/-- Whether the first owed beat has moved or not, the same output is delivered in the end. -/
theorem delivered_moveDout {s : State} {b : Beat} {bs : List Beat} (hd : s.dout = b :: bs) (q : Seq) (y : Response) :
    (moveDout b bs s).delivered q y = s.delivered q y := by
  have hroom : s.doutRoom - 1 - bs.length = s.doutRoom - (bs.length + 1) := by omega
  simp [moveDout, State.delivered, hd, hroom]

/-- A host that takes every beat gets all that is owed, one beat per step. -/
theorem reaches_delivered {n : Nat} {s : State} {y : Response} (hn : s.dout.length = n) (hy : s.rsp = some y)
    (hdroom : n ≤ s.doutRoom) (hrroom : 0 < s.rspRoom) : ∃ q, Reaches (n + 1) s (s.delivered q y) := by
  induction n generalizing s with
  | zero => exact ⟨_, _, step_eq_delivered (List.length_eq_zero_iff.mp hn) hy hrroom, rfl⟩
  | succ n ih =>
    obtain ⟨b, bs, hd⟩ := List.exists_cons_of_length_eq_add_one hn
    have hbs : bs.length = n := by simpa [hd] using hn
    obtain ⟨q, hq⟩ := ih (s := moveDout b bs s) hbs hy (Nat.le_sub_one_of_lt hdroom) hrroom
    exact ⟨q, _, step_eq_moveDout hd (by omega), delivered_moveDout hd q y ▸ hq⟩

/-! ## What a command owes -/

/-- Running a command moves no beat, shows no response and keeps `BUSY` at 1 (R6, R62 (d)). -/
theorem exec_moves_nothing {i : Instr} {s t : State} (h : exec i s = .next t) :
    t.out = s.out ∧ t.err = s.err ∧ t.res = s.res ∧ t.busy = true ∧ t.doutRoom = s.doutRoom ∧ t.rspRoom = s.rspRoom := by
  rcases exec_ends i s t h with ⟨c, q, rfl, -, -⟩ | ⟨q, c, before, rest, -, -, rfl⟩ |
    ⟨q, e, r, p, tt, ck, cl, rest, hend⟩
  · exact ⟨rfl, rfl, rfl, rfl, rfl, rfl⟩
  · exact ⟨rfl, rfl, rfl, rfl, rfl, rfl⟩
  · rw [hend.state_eq]
    exact ⟨rfl, rfl, rfl, rfl, rfl, rfl⟩

/-- A command waits and owes nothing new, or it owes one response, and a packet before it only when it succeeds (R7, R244). -/
theorem exec_waits_or_owes_response {i : Instr} {s t : State} (h : exec i s = .next t) :
    (t.cur ≠ none ∧ t.dout = s.dout ∧ t.rsp = s.rsp) ∨
      (t.cur = none ∧ ∃ y, t.rsp = some y ∧
        (t.dout = s.dout ∨ (y.err = .ok ∧ ∃ p, t.dout = s.dout ++ packetBeats p))) := by
  rcases exec_ends i s t h with ⟨c, q, rfl, -, -⟩ | ⟨q, c, before, rest, -, -, rfl⟩ |
    ⟨q, e, r, p, tt, ck, cl, rest, hend⟩
  · exact .inl ⟨Option.some_ne_none c, rfl, rfl⟩
  · exact .inr ⟨rfl, _, rfl, .inl rfl⟩
  · rw [hend.state_eq]
    refine .inr ⟨rfl, ⟨e, r⟩, rfl, ?_⟩
    cases p with
    | none => exact .inl rfl
    | some bytes =>
      have he : e = .ok := by_contra fun hne => Option.some_ne_none bytes (hend.no_packet hne)
      exact .inr ⟨he, bytes, rfl⟩

/-! ## The statements -/

/-- Settles O43: a command leaves its output owed (`exec_moves_nothing`, `exec_waits_or_owes_response`), and later steps move
it, by induction on the number of `DOUT` beats (`reaches_delivered`). -/
theorem oneResponsePerCommand : Obligations.OneResponsePerCommand := by
  refine ⟨fun i s t h => ?_, fun s b bs hd hroom => ?_, fun s y hd hy hroom => ?_, fun s y hy hdroom hrroom => ?_⟩
  · obtain ⟨hout, herr, hres, hbusy, hdroom, hrroom⟩ := exec_moves_nothing h
    exact ⟨hout, herr, hres, hbusy, hdroom, hrroom, exec_waits_or_owes_response h⟩
  · exact ⟨s.seq.advance, step_eq_moveDout hd hroom⟩
  · exact ⟨_, step_eq_delivered hd hy hroom⟩
  · exact reaches_delivered rfl hy hdroom hrroom

/-- Settles O5: with nothing in progress and nothing owed a step takes the first command word (`step_idle`), and this one
decodes. -/
theorem stepRunsTheDecodedCommand : Obligations.StepRunsTheDecodedCommand := by
  intro s w rest i hidle hcmd hdecode
  rw [step_idle hidle hcmd, hdecode]

end Sys2Proof.Machine

/-! PROOFS. The statements of 10_state.md: the values after reset (R33), and what a read of each status register gives (R26). -/

namespace Sys2Proof.Machine

/-! ## `STATUS` as a number -/

/-- A bit appended at the right is the new bit 0. -/
theorem toNat_append_ofBool {w : Nat} (x : BitVec w) (b : Bool) : (x ++ BitVec.ofBool b).toNat = 2 * x.toNat + b.toNat := by
  rw [← BitVec.concat, BitVec.toNat_concat, Nat.mul_comm]

/-- The weights of the bits of `STATUS`: bits 7 to 5 add nothing (R26). -/
theorem statusWith_toNat (s : State) (ttw ckv clv : Bool) :
    (statusWith s ttw ckv clv).toNat =
      s.busy.toNat + 2 * ttw.toNat + 4 * ckv.toNat + 8 * clv.toNat + 16 * s.flt.toNat := by
  simp only [statusWith, toNat_append_ofBool, BitVec.toNat_ofNat]
  omega

/-! ## A read of `CSR`, one lemma per number (the 8-bit registers widened with zeros) -/

theorem csrRead_zero (reading : Nat) (s : State) : csrRead reading 0 s = (statusRead reading s).setWidth 32 := rfl

theorem csrRead_one (reading : Nat) (s : State) : csrRead reading 1 s = s.err.code.setWidth 32 := rfl

theorem csrRead_two (reading : Nat) (s : State) : csrRead reading 2 s = s.res := rfl

theorem csrRead_three_of_no_fault {s : State} (hf : s.fault = none) (reading : Nat) : csrRead reading 3 s = 0#32 := by
  simp [csrRead, hf]

theorem csrRead_three_of_fault {s : State} {c : FaultCode} (hf : s.fault = some c) (reading : Nat) :
    csrRead reading 3 s = c.code.setWidth 32 := by
  simp [csrRead, hf]

/-- Numbers 4 to 7 name no register. -/
theorem csrRead_of_four_le {k : BitVec 3} (hk : 4 ≤ k.toNat) (reading : Nat) (s : State) : csrRead reading k s = 0#32 := by
  obtain ⟨m, hm⟩ := Nat.exists_eq_add_of_le' hk
  rw [csrRead, hm]
  rfl

/-! ## The statements -/

/-- Settles O56: between commands no bit of `STATUS` is free (`statusRead_between`), and the bits have the weights of
`statusWith_toNat`; the other numbers by the lemma for each. -/
theorem statusRegistersRead : Obligations.StatusRegistersRead := by
  refine ⟨fun n s hcur hrsp => ?_, fun n s => ⟨?_, csrRead_two n s, fun hf => csrRead_three_of_no_fault hf n,
    fun c hf => ?_, fun k hk => csrRead_of_four_le hk n s⟩⟩
  · rw [csrRead_zero, BitVec.toNat_setWidth_of_le (by decide), statusRead_between hcur hrsp, statusByte, statusWith_toNat]
  · rw [csrRead_one, BitVec.toNat_setWidth_of_le (by decide)]
  · rw [csrRead_three_of_fault hf, BitVec.toNat_setWidth_of_le (by decide)]

/-- Settles O53: every register has the value written in `State.resetWith`; after reset no command is in progress, so `STATUS`
reads as `statusByte` at every read (`statusRead_between`). -/
theorem resetValues : Obligations.ResetValues := by
  have hstatus : statusByte State.reset = 0#8 := rfl
  have hreads : ∀ n : Nat, csrRead n 0 State.reset = 0#32 ∧ csrRead n 1 State.reset = 0#32 ∧
      csrRead n 2 State.reset = 0#32 ∧ csrRead n 3 State.reset = 0#32 := fun n =>
    ⟨by rw [csrRead_zero, statusRead_between rfl rfl, hstatus]; rfl, rfl, rfl, csrRead_three_of_no_fault rfl n⟩
  exact ⟨rfl, rfl, rfl, hstatus, rfl, rfl, rfl, rfl, rfl, rfl, rfl, hreads, rfl⟩

end Sys2Proof.Machine

/-! PROOFS. The statements of 20_memory.md: a command that takes a packet consumes all of it (R58), and what the status registers
read while `BUSY` is 1 (R62 (d)). -/

namespace Sys2Proof.Machine

/-! ## Consuming commands -/

/-- The eight commands that take a packet, as the statements list them (R92). -/
theorem takesPacket_iff (i : Instr) :
    takesPacket i = true ↔
      i ∈ [Instr.crcGen, .ttParse, .chNew, .chDes, .ctRemove, .ctFind, .ctDes] ∨ ∃ e, i = .crcVfy e := by
  cases i <;> simp [takesPacket]

/-- The command that a consumer is the waiting form of (30_encoding.md R92; log 9). -/
def Consumer.instr : Consumer → Instr
  | .crcGen => .crcGen
  | .crcVfy expected => .crcVfy expected
  | .ttParse => .ttParse
  | .chNew _ => .chNew
  | .chDes => .chDes
  | .ctRemove => .ctRemove
  | .ctFind => .ctFind
  | .ctDes => .ctDes

/-- A packet that ends or faults leaves no command in progress, so a command that waits afterwards is the one that ran. -/
theorem runPacket_cur {c c' : Consumer} {f : ByteStep} {finish : State → State} {s : State}
    (hfin : ∀ u, (finish u).cur = none) (hcur : (runPacket c f finish s).cur = some c') : c' = c := by
  rcases runPacket_cases c f finish s with ⟨q, -, h⟩ | ⟨q, rest, -, h⟩ | ⟨code, q, rest, -, h⟩ <;> rw [h] at hcur
  · exact (Option.some.inj hcur).symm
  · rw [hfin] at hcur; cases hcur
  · cases hcur

/-- A command that waits after reading the four tag bytes has not faulted on them. -/
theorem needFour_cur_some {s : State} {k : Tag → State} {c : Consumer} (h : (needFour (cmdTaken s) k).cur = some c) :
    ∃ tag, (k tag).cur = some c := by
  rcases needFour_cases s k with ⟨code, hhalt⟩ | ⟨tag, -, hrun⟩
  · rw [hhalt] at h; cases h
  · exact ⟨tag, hrun ▸ h⟩

/-- A command that waits after reading `CL` has not faulted on it. -/
theorem needList_cur_some {s : State} {k : List Chunk → State} {c : Consumer} (h : (needList (cmdTaken s) k).cur = some c) :
    ∃ l, (k l).cur = some c := by
  rcases needList_cases s k with hhalt | ⟨l, -, hrun⟩
  · rw [hhalt] at h; cases h
  · exact ⟨l, hrun ▸ h⟩

/-- The fault of an empty `CL` leaves no command in progress. -/
theorem needList_cur_none {s : State} {k : List Chunk → State} (hk : ∀ l, (k l).cur = none) : (needList s k).cur = none := by
  unfold needList
  split
  · rfl
  · exact hk _

theorem chDesDone_cur (s : State) : (chDesDone s).cur = none := by
  unfold chDesDone
  split <;> rfl

theorem ctRemoveDone_cur (s : State) : (ctRemoveDone s).cur = none :=
  needList_cur_none fun l => by split <;> rfl

theorem ctFindDone_cur (s : State) : (ctFindDone s).cur = none :=
  needList_cur_none fun l => by split <;> rfl

theorem ctDesDone_cur (s : State) : (ctDesDone s).cur = none := by
  unfold ctDesDone
  split <;> rfl

/-- Only the commands that take a packet wait for one. -/
theorem takesPacket_of_cur {i : Instr} {s t : State} {c : Consumer} (h : exec i s = .next t) (hcur : t.cur = some c) :
    takesPacket i = true := by
  rcases exec_ends i s t h with ⟨c', q, -, -, htakes⟩ | ⟨q, code, before, rest, -, -, rfl⟩ |
    ⟨q, e, r, p, tt, ck, cl, rest, hend⟩
  · exact htakes
  · cases hcur
  · rw [hend.state_eq] at hcur; cases hcur

/-- A command that waits is held as the consumer of its own instruction. -/
theorem exec_cur_instr {i : Instr} {s t : State} {c : Consumer} (h : exec i s = .next t) (hcur : t.cur = some c) :
    c.instr = i := by
  have htakes := takesPacket_of_cur h hcur
  cases i with
  | crcGen => cases h; rw [runPacket_cur (fun _ => rfl) hcur]; rfl
  | crcVfy expected => cases h; rw [runPacket_cur (fun _ => rfl) hcur]; rfl
  | ttParse => cases h; rw [runPacket_cur (fun _ => rfl) hcur]; rfl
  | chDes => cases h; rw [runPacket_cur chDesDone_cur hcur]; rfl
  | ctDes => cases h; rw [runPacket_cur ctDesDone_cur hcur]; rfl
  | chNew =>
    cases h
    obtain ⟨tag, hrun⟩ := needFour_cur_some hcur
    rw [runPacket_cur (fun _ => rfl) hrun]
    rfl
  | ctRemove =>
    cases h
    obtain ⟨l, hrun⟩ := needList_cur_some hcur
    rw [runPacket_cur ctRemoveDone_cur hrun]
    rfl
  | ctFind =>
    cases h
    obtain ⟨l, hrun⟩ := needList_cur_some hcur
    rw [runPacket_cur ctFindDone_cur hrun]
    rfl
  | _ => cases htakes

/-! ## Which registers a waiting command is sure to write -/

theorem surelyWritesTT_iff (c : Consumer) : surelyWritesTT c = true ↔ c = .ttParse := by
  cases c <;> simp [surelyWritesTT]

theorem surelyWritesCK_iff (q : Seq) (c : Consumer) :
    surelyWritesCK q c = true ↔ c = .chDes ∧ q.ph = .drain ∧ q.perr = .ok := by
  cases c <;> simp [surelyWritesCK]

/-- A bit that can only be set reads as before, or reads 1 and is sure to be set. -/
theorem changing_or (s : State) (reading bit : Nat) (old sure : Bool) :
    changing s reading bit old (old || sure) = old ∨ (sure = true ∧ changing s reading bit old (old || sure) = true) := by
  cases sure with
  | false => exact .inl (by rw [Bool.or_false, changing_same])
  | true => exact (changing_cases s reading bit old (old || true)).imp_right fun h => ⟨rfl, h.trans (Bool.or_true old)⟩

/-! ## Reads of `STATUS` while `BUSY` is 1 -/

/-- The bits of a read of `STATUS`, from the bits of the object registers that it shows (10_state.md R26). -/
theorem csrRead_zero_bits {reading : Nat} {s : State} {ttw ckv clv : Bool} (h : statusRead reading s = statusWith s ttw ckv clv) :
    (csrRead reading 0 s).getLsbD 0 = s.busy ∧ (csrRead reading 0 s).getLsbD 1 = ttw ∧
    (csrRead reading 0 s).getLsbD 2 = ckv ∧ (csrRead reading 0 s).getLsbD 3 = clv ∧
    (csrRead reading 0 s).getLsbD 4 = s.flt := by
  rw [csrRead_zero, h]
  simpa [BitVec.getLsbD_setWidth] using statusWith_bits s ttw ckv clv

/-- A read of `FAULT` depends on nothing but `FAULT`. -/
theorem csrRead_three_congr {s t : State} (h : t.fault = s.fault) (reading : Nat) : csrRead reading 3 t = csrRead reading 3 s := by
  cases hfault : s.fault with
  | none => rw [csrRead_three_of_no_fault hfault, csrRead_three_of_no_fault (h.trans hfault)]
  | some c => rw [csrRead_three_of_fault hfault, csrRead_three_of_fault (h.trans hfault)]

/-- While output is owed, each bit is between its value before the command and its value now. -/
theorem statusRead_owed {s : State} {y : Response} (hrsp : s.rsp = some y) (reading : Nat) :
    statusRead reading s =
      statusWith s (changing s reading 1 s.was.ttw s.tt.isSome) (changing s reading 2 s.was.ckv s.ck.isSome)
        (changing s reading 3 s.was.clv s.cl.isSome) := by
  simp only [statusRead, hrsp]

/-- While a command waits, a bit can show a new value only where the command is sure to write (log 21). -/
theorem statusRead_waiting {s : State} {c : Consumer} (hcur : s.cur = some c) (hrsp : s.rsp = none) (reading : Nat) :
    statusRead reading s =
      statusWith s (changing s reading 1 s.tt.isSome (s.tt.isSome || surelyWritesTT c))
        (changing s reading 2 s.ck.isSome (s.ck.isSome || surelyWritesCK s.seq c)) s.cl.isSome := by
  simp only [statusRead, hrsp, hcur]

/-- The move of a `DOUT` beat shows in no status register while the `RSP` beat is owed. -/
theorem csrRead_moveDout {s : State} {y : Response} (hrsp : s.rsp = some y) (b : Beat) (bs : List Beat) (reading : Nat)
    (number : BitVec 3) : csrRead reading number (moveDout b bs s) = csrRead reading number s := by
  have hstatus : statusRead reading (moveDout b bs s) = statusRead reading s := by
    rw [statusRead_owed hrsp, statusRead_owed (s := moveDout b bs s) hrsp]
    rfl
  simp only [csrRead, hstatus, moveDout_err, moveDout_res, moveDout_fault]

/-- So no number of moved `DOUT` beats does. -/
theorem csrRead_reaches {k : Nat} {t u : State} {y : Response} (hreach : Reaches k t u) (hk : k ≤ t.dout.length)
    (hrsp : t.rsp = some y) (reading : Nat) (number : BitVec 3) : csrRead reading number u = csrRead reading number t := by
  induction k generalizing t with
  | zero => rw [show t = u from hreach]
  | succ k ih =>
    obtain ⟨v, hstep, hreach⟩ := hreach
    obtain ⟨b, bs, hd⟩ := List.exists_cons_of_ne_nil (List.ne_nil_of_length_pos (Nat.zero_lt_of_lt hk))
    rw [step_dout hd] at hstep
    split at hstep
    · cases hstep
    · cases hstep
      have hbs : k ≤ bs.length := by simpa [hd] using hk
      rw [ih hreach hbs hrsp, csrRead_moveDout hrsp]

/-- The bits kept for the reads of `STATUS` are those before the command (log 12). -/
theorem exec_was {i : Instr} {s t : State} (h : exec i s = .next t) : t.was = s.held := by
  rcases exec_ends i s t h with ⟨c, q, rfl, -, -⟩ | ⟨q, c, before, rest, -, -, rfl⟩ |
    ⟨q, e, r, p, tt, ck, cl, rest, hend⟩
  · rfl
  · rfl
  · rw [hend.state_eq]; rfl

/-- A command that waits has only taken the beats that were there (70_reset_and_hazards.md R285). -/
theorem exec_awaiting {i : Instr} {s t : State} (h : exec i s = .next t) (hcur : t.cur ≠ none) :
    ∃ c q, t = s.taken.awaiting q c := by
  rcases exec_ends i s t h with ⟨c, q, ht, -, -⟩ | ⟨q, c, before, rest, -, -, rfl⟩ |
    ⟨q, e, r, p, tt, ck, cl, rest, hend⟩
  · exact ⟨c, q, ht⟩
  · exact absurd rfl hcur
  · rw [hend.state_eq] at hcur; exact absurd rfl hcur

/-! ## The statements -/

/-- Settles O47: of the three ways a command can leave PCC (`exec_ends`), waiting and faulting are excluded, and a response comes
after the whole packet of a command that takes one (`takesPacket_iff`). -/
theorem wholePacketIsConsumed : Obligations.WholePacketIsConsumed := by
  intro i s t h hcur hnofault
  rw [← takesPacket_iff]
  rcases exec_ends i s t h with ⟨c, q, rfl, -, -⟩ | ⟨q, c, before, rest, -, -, rfl⟩ |
    ⟨q, e, r, p, tt, ck, cl, rest, hend⟩
  · cases hcur
  · exact absurd ⟨_, rfl, rfl⟩ hnofault
  · have hdin : t.din = rest := by rw [hend.state_eq]; rfl
    rw [hdin]
    exact ⟨hend.packet, fun hnot => hend.din_eq (Bool.not_eq_true _ ▸ hnot)⟩

/-- Settles O57. A command that waits has changed no register a read shows (`exec_awaiting`), and a bit that reads new names the
command (`changing_or`, `exec_cur_instr`). A command that owes output reads the same however many `DOUT` beats have moved
(`csrRead_reaches`), and each bit is old or new (`statusRead_owed`, `exec_was`). -/
theorem statusWhileACommandWaits : Obligations.StatusWhileACommandWaits := by
  refine ⟨fun n i s t h hcur hrsp => ?_, fun n i s t u k h hcur hk hreach => ?_⟩
  · obtain ⟨c, q, rfl⟩ := exec_awaiting h hcur
    have hinstr : c.instr = i := exec_cur_instr h rfl
    obtain ⟨hbusy, httw, hckv, hclv, hflt⟩ := csrRead_zero_bits (statusRead_waiting rfl hrsp n)
    refine ⟨hbusy, hflt, rfl, rfl, csrRead_three_congr rfl n, ?_, ?_, hclv⟩
    · rw [httw]
      refine (changing_or _ n 1 _ _).imp_right fun ⟨hsure, hread⟩ => ⟨?_, hread⟩
      rw [← hinstr, (surelyWritesTT_iff c).mp hsure]
      rfl
    · rw [hckv]
      refine (changing_or _ n 2 _ _).imp_right fun ⟨hsure, hread⟩ => ?_
      obtain ⟨rfl, hph, hperr⟩ := (surelyWritesCK_iff _ c).mp hsure
      exact ⟨hinstr.symm, hph, hperr, hread⟩
  · obtain ⟨hwaits, -, -⟩ | ⟨-, y, hrsp, -⟩ := exec_waits_or_owes_response h
    · exact absurd hcur hwaits
    obtain ⟨-, herr, hres, hbusy, -, -⟩ := exec_moves_nothing h
    obtain ⟨hbit0, httw, hckv, hclv, hflt⟩ := csrRead_zero_bits (statusRead_owed hrsp n)
    have hsame : ∀ number, csrRead n number u = csrRead n number t := csrRead_reaches hreach hk hrsp n
    rw [hsame 0, hsame 1, hsame 2, hsame 3, hbit0, httw, hckv, hclv, exec_was h]
    exact ⟨hbusy, hflt, by rw [csrRead_one, herr, csrRead_one], hres, rfl, changing_cases t n 1 _ _,
      changing_cases t n 2 _ _, changing_cases t n 3 _ _⟩

end Sys2Proof.Machine

/-! PROOFS. The statements of 30_encoding.md: the decoder and the encoder are inverse to each other (R90 to R92), which words are
illegal and what one does (R93), and the pseudo-instruction `CH.MAKE` (R96). -/

namespace Sys2Proof.Machine

/-! ## The opcode map (30_encoding.md R92) -/

/-- The three commands whose `arg` is an operand; the `arg` of the other 23 is zero (R91, R93). -/
def hasOperand : Instr → Bool
  | .crcVfy _ | .ttParseb _ | .ctChunks _ => true
  | .crcGen | .ttParse | .ttBytes | .ttValid | .ttCrit | .ttPub | .ttRsvd | .ttSafe | .ttDisp | .chNew | .chLen | .chType
  | .chData | .chCrc | .chStr | .chSer | .chDes | .ctFrom | .ctAppend | .ctRemove | .ctFind | .ctSer | .ctDes => false

/-- The 26 values of `op` that stand for a command (R92). -/
def InOpcodeMap (op : Byte) : Prop :=
  (0x10 ≤ op.toNat ∧ op.toNat ≤ 0x11) ∨ (0x20 ≤ op.toNat ∧ op.toNat ≤ 0x28) ∨ (0x30 ≤ op.toNat ∧ op.toNat ≤ 0x37) ∨
    (0x40 ≤ op.toNat ∧ op.toNat ≤ 0x46)

theorem opcode_inOpcodeMap (i : Instr) : InOpcodeMap (opcode i) := by
  cases i <;> simp [InOpcodeMap, opcode]

theorem hasOperand_iff_opcode (i : Instr) :
    hasOperand i = true ↔ (opcode i).toNat = 0x11 ∨ (opcode i).toNat = 0x21 ∨ (opcode i).toNat = 0x44 := by
  cases i <;> simp [hasOperand, opcode]

theorem argument_eq_zero {i : Instr} (h : hasOperand i = false) : argument i = 0 := by
  cases i with
  | crcVfy | ttParseb | ctChunks => cases h
  | _ => rfl

theorem wf_of_no_operand {i : Instr} (h : hasOperand i = false) : i.wf = true := by
  cases i with
  | crcVfy | ttParseb | ctChunks => cases h
  | _ => rfl

theorem wf_ctChunks_iff (index : Nat) : (Instr.ctChunks index).wf = true ↔ index < 2 ^ 32 := decide_eq_true_iff

/-! ## All that the decoder can do -/

/-- The fields of a word decide the command: one without an operand, subject to `arg = 0`; one with the operand that `arg`
carries; or none (R92, R93). -/
theorem decode_cases (w : CmdWord) :
    (∃ i, hasOperand i = false ∧ opOf w = opcode i ∧ decode w = zeroArg (opOf w) (argOf w) i) ∨
    (∃ i, hasOperand i = true ∧ i.wf = true ∧ opOf w = opcode i ∧ argOf w = argument i ∧ decode w = .ok i) ∨
    (¬ InOpcodeMap (opOf w) ∧ decode w = .error (.unknownOp (opOf w))) := by
  generalize hdec : decode w = answer
  simp only [decode] at hdec
  split at hdec <;> subst hdec
  -- the arms of `CRC.VFY`, `TT.PARSEB`, `CT.CHUNKS`, and of a word that is no `op`; the others are `zeroArg`
  case h_2 hop => exact .inr (.inl ⟨.crcVfy (argOf w), rfl, rfl, BitVec.eq_of_toNat_eq hop, rfl, rfl⟩)
  case h_4 hop =>
    exact .inr (.inl ⟨.ttParseb (Tag.ofWord (argOf w)), rfl, rfl, BitVec.eq_of_toNat_eq hop,
      (Tag.toWord_ofWord _).symm, rfl⟩)
  case h_24 hop =>
    exact .inr (.inl ⟨.ctChunks (argOf w).toNat, rfl, (wf_ctChunks_iff _).mpr (argOf w).isLt, BitVec.eq_of_toNat_eq hop,
      by simp [argument], rfl⟩)
  case h_27 =>
    refine .inr (.inr ⟨?_, rfl⟩)
    simp only [imp_false] at *
    unfold InOpcodeMap
    omega
  all_goals exact .inl ⟨_, rfl, BitVec.eq_of_toNat_eq ‹_›, rfl⟩

/-! ## Encode, then decode -/

/-- Commands without an operand have one word each; an operand is read back from `arg`. -/
theorem decode_encode {i : Instr} (h : i.wf = true) : decode (encode i) = .ok i := by
  cases i with
  | crcVfy expected => simp [decode, encode, opcode, argument]
  | ttParseb tag => simp [decode, encode, opcode, argument]
  | ctChunks index =>
    simpa [decode, encode, opcode, argument] using (wf_ctChunks_iff index).mp h
  | _ => rfl

/-- The five bytes are the fields of the command word (R90). -/
theorem decodeBytes_encodeBytes {i : Instr} (h : i.wf = true) : decodeBytes (encodeBytes i) = .ok i := by
  have hword : opcode i ++ (Tag.ofWord (argument i)).toWord = encode i := by rw [Tag.toWord_ofWord, encode]
  simp only [encodeBytes, Tag.toList, decodeBytes, hword, decode_encode h]

/-- Settles O2: the word by `decode_encode`, the five bytes by `decodeBytes_encodeBytes`. -/
theorem encodeThenDecodeGivesTheCommand : Obligations.EncodeThenDecodeGivesTheCommand := fun _ h =>
  ⟨decode_encode h, decodeBytes_encodeBytes h⟩

/-- Settles O1: each word is the encoding of its command, so it decodes to it (`decode_encode`, `decodeBytes_encodeBytes`). -/
theorem writtenWordsDecode : Obligations.WrittenWordsDecode :=
  ⟨decode_encode (i := .crcGen) rfl, decode_encode (i := .crcVfy 0xCBF43926) rfl,
    decode_encode (i := .ttParseb ⟨0x74, 0x65, 0x53, 0x74⟩) rfl, decode_encode (i := .ttDisp) rfl,
    decode_encode (i := .chNew) rfl, decode_encode (i := .chDes) rfl, decode_encode (i := .ctChunks 1) rfl,
    decode_encode (i := .ctDes) rfl, decodeBytes_encodeBytes (i := .crcVfy 0xCBF43926) rfl⟩

/-! ## Decode, then encode -/

/-- A word is the encoding of the command whose fields it has (R90). -/
theorem encode_eq_of_fields {w : CmdWord} {i : Instr} (hop : opOf w = opcode i) (harg : argOf w = argument i) :
    encode i = w := by
  rw [encode, ← hop, ← harg, opOf_append_argOf]

/-- Settles O3: a word that decodes has the fields of its command (`decode_cases`), so it is the encoding of it
(`encode_eq_of_fields`). -/
theorem decodedWordIsTheEncoding : Obligations.DecodedWordIsTheEncoding := by
  intro w i h
  rcases decode_cases w with ⟨j, hno, hop, hdec⟩ | ⟨j, -, hwf, hop, harg, hdec⟩ | ⟨-, hdec⟩ <;> rw [hdec] at h
  · obtain ⟨harg, rfl⟩ := (zeroArg_eq_ok ..).mp h
    exact ⟨wf_of_no_operand hno, encode_eq_of_fields hop (harg.trans (argument_eq_zero hno).symm)⟩
  · cases h
    exact ⟨hwf, encode_eq_of_fields hop harg⟩
  · cases h

/-! ## Illegal words -/

/-- `zeroArg` rejects every other `arg` (R93). -/
theorem zeroArg_error_iff (op : Byte) (arg : Word) (i : Instr) : (∃ why, zeroArg op arg i = .error why) ↔ arg ≠ 0 := by
  unfold zeroArg
  split <;> simp_all

/-- The words that R93 calls illegal. -/
theorem decode_error_iff (w : CmdWord) :
    (∃ why, decode w = .error why) ↔
      ¬ InOpcodeMap (opOf w) ∨
        ((opOf w).toNat ≠ 0x11 ∧ (opOf w).toNat ≠ 0x21 ∧ (opOf w).toNat ≠ 0x44 ∧ argOf w ≠ 0) := by
  rcases decode_cases w with ⟨i, hno, hop, hdec⟩ | ⟨i, hoperand, -, hop, -, hdec⟩ | ⟨hmap, hdec⟩
  · have hop_no_operand := (hasOperand_iff_opcode i).not.mp (by simp [hno])
    have hmap := opcode_inOpcodeMap i
    rw [← hop] at hop_no_operand hmap
    rw [hdec, zeroArg_error_iff]
    tauto
  · have hop_operand := (hasOperand_iff_opcode i).mp hoperand
    have hmap := opcode_inOpcodeMap i
    rw [← hop] at hop_operand hmap
    refine iff_of_false ?_ (by tauto)
    rintro ⟨why, hwhy⟩
    cases hdec.symm.trans hwhy
  · exact ⟨fun _ => .inl hmap, fun _ => ⟨_, hdec⟩⟩

/-- Settles O4: the words by `decode_error_iff`; an idle PCC takes the word and faults at once (`step_idle`). -/
theorem illegalWordsFault : Obligations.IllegalWordsFault := by
  refine ⟨decode_error_iff, fun s w rest why hidle hcmd hdec => ?_⟩
  rw [step_idle hidle hcmd, hdec]
  exact congrArg _ (takeFault_cmdTaken .illegal { s with cmd := rest })

/-! ## `CH.MAKE` -/

theorem reaches_append {m n : Nat} {s t u : State} (h : Reaches m s t) (h' : Reaches n t u) : Reaches (m + n) s u := by
  induction m generalizing s with
  | zero => rw [Nat.zero_add, show s = t from h]; exact h'
  | succ m ih =>
    obtain ⟨v, hstep, hrest⟩ := h
    rw [Nat.add_right_comm]
    exact ⟨v, hstep, ih hrest⟩

/-- A command of an idle PCC that answers without a packet ends in two steps, when the host takes the `RSP` beat (R7). -/
theorem reaches_answer {i : Instr} {s t : State} {rest : List CmdWord} {q : Seq} {e : ErrCode} {r : Word} (hidle : s.Idle)
    (hcmd : s.cmd = encode i :: rest) (hwf : i.wf = true)
    (hexec : exec i { s with cmd := rest } = .next (t.replying q e r none)) (hdout : t.dout = []) (hfault : t.fault = none)
    (hroom : 0 < t.rspRoom) : ∃ u, Reaches 2 s u ∧ u.Idle ∧ ∃ q', u = (t.replying q e r none).delivered q' ⟨e, r⟩ := by
  obtain ⟨q', hmove⟩ := reaches_delivered (s := t.replying q e r none) (y := ⟨e, r⟩) (n := 0)
    (by rw [State.replying_dout_none, hdout]; rfl) rfl (Nat.zero_le _) hroom
  have hrun : step s = .next (t.replying q e r none) := by
    rw [step_idle hidle hcmd, decode_encode hwf]
    exact hexec
  exact ⟨_, ⟨_, hrun, hmove⟩, ⟨rfl, rfl, rfl, by simp [hfault]⟩, q', rfl⟩

/-- `TT.PARSEB` of well-formed text (41_typetag.md R136). -/
theorem exec_ttParseb_of_text {t : Tag} (s : State) (h : utf8Ok t.toList = true) :
    exec (.ttParseb t) s = .next (State.replying { s.taken with tt := some (.len4 t) } s.seq .ok 0 none) := by
  rw [exec, execTtParseb, if_pos h]
  rfl

/-- `CH.NEW` from its start, the tag bytes fed to the CRC unit, with a payload within `PAYLOAD_MAX` that is all there (42_chunk.md
R161, R170). -/
theorem chNewRun_of_payload {s : State} {t : Tag} {p : List Byte} {rest : List Beat} (hstage : s.seq.stage = [])
    (hcrc : s.seq.crcR = crcFold s.cfg s.cfg.crcInit t.toList) (hp : firstPacket s.din = some (p, rest))
    (hmax : p.length ≤ s.cfg.payloadMax.toNat) :
    ∃ q, chNewRun t s = State.replying { s with din := rest, ck := some (newChunk s.cfg t p) } q .ok 0 none := by
  have hchunk : newChunk s.cfg t p = ⟨BitVec.ofNat 32 p.length, t, p, crcFin s.cfg (crcFold s.cfg s.seq.crcR p)⟩ := by
    rw [newChunk, crc32, crcFold_append, hcrc]
  rw [chNewRun, runPacket_ended hp (byteRun_chNewByte s.cfg p s.seq (by simpa [hstage] using hmax)), hchunk, hstage,
    List.nil_append]
  exact ⟨_, rfl⟩

/-- `CH.NEW` while `TT` holds four bytes (42_chunk.md R169, R170). -/
theorem exec_chNew_of_payload {s : State} {t : Tag} {p : List Byte} {rest : List Beat} (htt : s.tt = some (.len4 t))
    (hp : firstPacket s.din = some (p, rest)) (hmax : p.length ≤ s.cfg.payloadMax.toNat) :
    ∃ q, exec .chNew s =
      .next (State.replying { s.taken with din := rest, ck := some (newChunk s.cfg t p) } q .ok 0 none) := by
  rw [exec, execChNew, needFour_some htt]
  obtain ⟨q, hq⟩ := chNewRun_of_payload (t := t)
    (s := { cmdTaken s with
      seq := { s.seq with pos := 0, stage := [], crcR := crcFold s.cfg s.cfg.crcInit t.toList } }) rfl rfl hp hmax
  exact ⟨q, congrArg _ hq⟩

/-- `TT.PARSEB` and `CH.NEW` from `CMD`, with the payload on `DIN`: each ends in two steps, the first leaves the tag in `TT` and
the beats on `DIN` for the second. -/
theorem reaches_newChunk {s : State} {t : Tag} {p : List Byte} (hidle : s.Idle) (hfault : s.fault = none)
    (hcmd : s.cmd = [encode (.ttParseb t), encode .chNew]) (hdin : firstPacket s.din = some (p, [])) (hroom : 2 ≤ s.rspRoom)
    (htext : utf8Ok t.toList = true) (hmax : p.length ≤ s.cfg.payloadMax.toNat) :
    ∃ u, Reaches 4 s u ∧ u.Good ∧ u.ck = some (newChunk s.cfg t p) ∧ u.err = .ok ∧ u.cl = s.cl ∧ u.din = [] ∧
      u.out = s.out ++ [.rsp .ok 0, .rsp .ok 0] := by
  obtain ⟨v, hfirst, hvidle, q₁, hv⟩ := reaches_answer hidle hcmd rfl (exec_ttParseb_of_text _ htext) hidle.dout_eq hfault
    (Nat.zero_lt_of_lt hroom)
  have hvfault : v.fault = none := by rw [hv]; exact hfault
  obtain ⟨q, hexec⟩ := exec_chNew_of_payload (s := { v with cmd := [] }) (t := t) (by rw [hv]; rfl)
    (by rw [hv]; exact hdin) (by rw [hv]; exact hmax)
  obtain ⟨u, hsecond, huidle, q₂, hu⟩ := reaches_answer hvidle (by rw [hv]; rfl) rfl hexec hvidle.dout_eq hvfault
    (by rw [hv]; exact Nat.sub_pos_of_lt hroom)
  refine ⟨u, reaches_append hfirst hsecond, ⟨?_, huidle, ?_⟩, ?_⟩ <;> subst hu hv
  · rfl
  · exact hfault
  · exact ⟨rfl, rfl, rfl, rfl, by simp [hidle.dout_eq]⟩

/-- What `CH.MAKE` puts on the ports of a PCC whose `CMD` and `DIN` are empty. -/
theorem issue_chMake {s : State} (hcmd : s.cmd = []) (hdin : s.din = []) (t : Tag) (p : List Byte) :
    issue (chMake t p) s = { s with cmd := [encode (.ttParseb t), encode .chNew], din := packetBeats p } := by
  simp [issue, chMake, sendCmd, sendBeats, hcmd, hdin]

/-- Settles O60: the words and the packet that `CH.MAKE` sends (`issue_chMake`) are those of `reaches_newChunk`; the beats are
one packet (`firstPacket_packetBeats`). -/
theorem chMakeBuildsTheChunk : Obligations.ChMakeBuildsTheChunk := by
  intro s t p hgood hdin hroom htext hmax
  obtain ⟨hcmd, ⟨hcur, hdout, hrsp, hbusy⟩, hfault⟩ := hgood
  have hpacket : firstPacket (packetBeats p) = some (p, []) := by simpa using firstPacket_packetBeats p []
  rw [issue_chMake hcmd hdin]
  exact reaches_newChunk ⟨hcur, hdout, hrsp, hbusy⟩ hfault rfl hpacket hroom htext hmax

end Sys2Proof.Machine

/-! PROOFS. The statements of 40_crc.md: `CRC.GEN` answers the checksum of its packet (R117), and `CRC.VFY` compares it with the
value that `arg` carries (R118). -/

namespace Sys2Proof.Machine

/-! ## The one word of a command without an operand (30_encoding.md R92, R93) -/

/-- The decoder knows the command by its `op` and then looks at `arg`. -/
theorem decode_opcode_append {i : Instr} (h : hasOperand i = false) (arg : Word) :
    decode (opcode i ++ arg) = zeroArg (opcode i) arg i := by
  cases i with
  | crcVfy | ttParseb | ctChunks => cases h
  | _ => simp [decode, opcode]

theorem hasOpcode_of_no_operand {i : Instr} (h : hasOperand i = false) : HasOpcode i (opcode i) :=
  ⟨congrArg (opcode i ++ ·) (argument_eq_zero h), by rw [decode_opcode_append h]; rfl,
    fun arg harg => by rw [decode_opcode_append h, zeroArg, if_neg harg]⟩

/-! ## The packet of `CRC.GEN` and `CRC.VFY` -/

/-- A packet fed to the CRC unit from its initial value leaves the checksum in `crc_r`, not yet finalised (R113). -/
theorem runPacket_crcFeed {c : Consumer} {finish : State → State} {s : State} {p : List Byte} {rest : List Beat}
    (hinit : s.seq.crcR = s.cfg.crcInit) (hp : firstPacket s.din = some (p, rest)) :
    ∃ q, crcFin s.cfg q.crcR = crc32 s.cfg p ∧
      runPacket c (crcFeed s.cfg) finish s = finish { s with din := rest, seq := q } :=
  ⟨_, by rw [crc32, ← hinit], runPacket_ended hp (byteRun_crcFeed s.cfg p s.seq)⟩

/-- `CRC.GEN` from the initial value of the CRC unit, with a packet that is all there (R117). -/
theorem crcGenRun_of_packet {s : State} {p : List Byte} {rest : List Beat} (hinit : s.seq.crcR = s.cfg.crcInit)
    (hp : firstPacket s.din = some (p, rest)) :
    ∃ q, crcGenRun s = State.replying { s with din := rest } q .ok (crc32 s.cfg p) none := by
  obtain ⟨q, hcrc, hrun⟩ := runPacket_crcFeed (c := .crcGen) (finish := crcGenDone) hinit hp
  refine ⟨q, ?_⟩
  rw [crcGenRun, hrun, crcGenDone, respond_eq_replying, ← hcrc]
  rfl

/-- `CRC.VFY` from the initial value of the CRC unit, with a packet that is all there (R118). -/
theorem crcVfyRun_of_packet {s : State} {p : List Byte} {rest : List Beat} (expected : Word)
    (hinit : s.seq.crcR = s.cfg.crcInit) (hp : firstPacket s.din = some (p, rest)) :
    ∃ q, q.crcX = expected ∧
      crcVfyRun expected s =
        State.replying { s with din := rest } q (if crc32 s.cfg p = expected then .ok else .checksumMismatch)
          (crc32 s.cfg p) none := by
  obtain ⟨q, hcrc, hrun⟩ := runPacket_crcFeed (c := .crcVfy expected) (finish := crcVfyDone expected) hinit hp
  refine ⟨{ q with crcX := expected }, rfl, ?_⟩
  rw [crcVfyRun, hrun, crcVfyDone_eq expected _ _ hcrc]
  rfl

/-- Settles O10: the word by `hasOpcode_of_no_operand`; the command starts the CRC unit and takes its packet
(`crcGenRun_of_packet`). -/
theorem crcGenAnswersTheChecksum : Obligations.CrcGenAnswersTheChecksum := by
  refine ⟨hasOpcode_of_no_operand (i := .crcGen) rfl, fun s p rest hp => ?_⟩
  obtain ⟨q, hq⟩ := crcGenRun_of_packet
    (s := { cmdTaken s with seq := { s.seq with pos := 0, crcR := s.cfg.crcInit } }) rfl hp
  exact ⟨q, congrArg _ hq⟩

/-- Settles O11: the command starts the CRC unit, takes its packet, and compares (`crcVfyRun_of_packet`). -/
theorem crcVfyComparesTheChecksum : Obligations.CrcVfyComparesTheChecksum := by
  refine fun expected s p rest => ⟨rfl, fun hp => ?_⟩
  obtain ⟨q, hcrcX, hq⟩ := crcVfyRun_of_packet expected
    (s := { cmdTaken s with seq := { s.seq with pos := 0, crcR := s.cfg.crcInit } }) rfl hp
  exact ⟨q, hcrcX, congrArg _ hq⟩

end Sys2Proof.Machine

/-! PROOFS. The statements of 41_typetag.md: what each command of the TypeTag unit answers (R134 to R143), the faults of the
readers of `TT` (R144), and well-formed text as a concatenation of rows of the table (R132). -/

namespace Sys2Proof.Machine

/-! ## `TT.PARSE` and `TT.PARSEB` -/

/-- `TT.PARSE` from an empty text latch, with a packet that is all there (R135). -/
theorem ttParseRun_of_packet {s : State} {p : List Byte} {rest : List Beat} (htxt : s.seq.txt = .len0)
    (hp : firstPacket s.din = some (p, rest)) :
    ∃ q, ttParseRun s = State.replying { s with din := rest, tt := some (.ofText p) } q .ok 0 none := by
  rw [ttParseRun, runPacket_ended hp (byteRun_textFeed p s.seq), htxt, foldl_push]
  exact ⟨_, rfl⟩

/-- Settles O13: the word by `hasOpcode_of_no_operand`; the command starts with an empty latch and takes its packet
(`ttParseRun_of_packet`), of which `TT` keeps length and bytes (`ofText_n`, `ofText_b`). -/
theorem ttParseStoresTheText : Obligations.TtParseStoresTheText := by
  refine ⟨hasOpcode_of_no_operand (i := .ttParse) rfl, fun s p rest hp => ?_⟩
  obtain ⟨q, hq⟩ := ttParseRun_of_packet (s := { cmdTaken s with seq := { s.seq with pos := 0, txt := .len0 } }) rfl hp
  exact ⟨q, .ofText p, ofText_n p, ofText_b p, congrArg _ hq⟩

/-- `TT.PARSEB` of bytes that are no text (R136). -/
theorem exec_ttParseb_of_not_text {t : Tag} (s : State) (h : utf8Ok t.toList ≠ true) :
    exec (.ttParseb t) s = .next (s.taken.replying s.seq .invalidTypeTagEncoding 0 none) := by
  rw [exec, execTtParseb, if_neg h, raiseError_eq_replying]
  rfl

/-- Settles O14: the two answers are `exec_ttParseb_of_text` and `exec_ttParseb_of_not_text`. -/
theorem ttParsebTestsTheText : Obligations.TtParsebTestsTheText := by
  refine fun tag s => ⟨rfl, ?_⟩
  split
  · next htext => exact exec_ttParseb_of_text s htext
  · next htext => exact exec_ttParseb_of_not_text s htext

/-! ## `TT.BYTES` and `TT.DISP` -/

/-- The packed value of four bytes, the first one most significant (30_encoding.md R91). -/
theorem toWord_eq_ofNat (t : Tag) :
    t.toWord = BitVec.ofNat 32 (t.b0.toNat * 2 ^ 24 + t.b1.toNat * 2 ^ 16 + t.b2.toNat * 2 ^ 8 + t.b3.toNat) := by
  rw [← toNat_toWord, BitVec.ofNat_toNat, BitVec.setWidth_eq]

/-- Settles O15: both commands read the four bytes (`needFour_some`). -/
theorem ttBytesAndDispGiveTheFourBytes : Obligations.TtBytesAndDispGiveTheFourBytes := by
  refine ⟨hasOpcode_of_no_operand (i := .ttBytes) rfl, hasOpcode_of_no_operand (i := .ttDisp) rfl, fun s t htt => ⟨?_, ?_⟩⟩
  · rw [exec, execTtBytes, needFour_some htt, respond_eq_replying, toWord_eq_ofNat]
    rfl
  · rw [exec, execTtDisp, needFour_some htt, respond_emitPacket]
    exact ⟨_, rfl⟩

/-! ## Byte classes (R131) -/

theorem inRange_iff (lo hi b : Byte) : inRange lo hi b = true ↔ lo.toNat ≤ b.toNat ∧ b.toNat ≤ hi.toNat := by
  simp [inRange]

theorem isUpper_iff (b : Byte) : isUpper b = true ↔ 0x41 ≤ b.toNat ∧ b.toNat ≤ 0x5A := inRange_iff 0x41 0x5A b

theorem isLower_iff (b : Byte) : isLower b = true ↔ 0x61 ≤ b.toNat ∧ b.toNat ≤ 0x7A := inRange_iff 0x61 0x7A b

theorem isAlpha_iff (b : Byte) :
    isAlpha b = true ↔ (0x41 ≤ b.toNat ∧ b.toNat ≤ 0x5A) ∨ (0x61 ≤ b.toNat ∧ b.toNat ≤ 0x7A) := by
  rw [isAlpha, Bool.or_eq_true, isUpper_iff, isLower_iff]

/-! ## `TT.VALID` and the flag commands -/

/-- The bytes of a text of another length do not matter (R134). -/
theorem tagValid_iff (x : TypeTag) : tagValid x = true ↔ x.n = 4 ∧ ∀ b ∈ x.b, isAlpha b = true := by
  cases x with
  | len4 t => simp [tagValid, TypeTag.four, TypeTag.n, TypeTag.b, Tag.toList, and_assoc]
  | _ => simp [tagValid, TypeTag.four, TypeTag.n]

/-- Settles O16: the command reads `TT` of any length (`needTag_some`) and answers `tagValid` (`tagValid_iff`, `isAlpha_iff`). -/
theorem ttValidAnswersTheValidity : Obligations.TtValidAnswersTheValidity := by
  refine ⟨hasOpcode_of_no_operand (i := .ttValid) rfl, fun s x htt => ⟨tagValid x, ?_, ?_⟩⟩
  · rw [exec, execTtValid, needTag_some htt, respond_eq_replying]
    rfl
  · simp only [tagValid_iff, isAlpha_iff]

/-- A flag command while `TT` holds four bytes answers 1 where the flag holds, else 0 (R144, 30_encoding.md R91). -/
theorem answerFlag_some {s : State} {t : Tag} {flag : Tag → Bool} {P : Prop} [Decidable P] (htt : s.tt = some (.len4 t))
    (hflag : flag t = true ↔ P) : answerFlag flag s = s.taken.replying s.seq .ok (if P then 1 else 0) none := by
  rw [answerFlag, needFour_some htt, respond_eq_replying, truth, if_congr hflag rfl rfl]
  rfl

/-- Settles O17: each flag is a byte class of one tag byte (`isUpper_iff`, `isLower_iff`), and each command answers its flag
(`answerFlag_some`). -/
theorem ttFlagsAnswerTheSelectors : Obligations.TtFlagsAnswerTheSelectors := by
  refine ⟨hasOpcode_of_no_operand (i := .ttCrit) rfl, hasOpcode_of_no_operand (i := .ttPub) rfl,
    hasOpcode_of_no_operand (i := .ttRsvd) rfl, hasOpcode_of_no_operand (i := .ttSafe) rfl,
    fun s t htt => ⟨?_, ?_, fun hlower => ?_, fun hupper => ?_, ?_⟩⟩
  · exact congrArg _ (answerFlag_some htt (isUpper_iff t.b0))
  · exact congrArg _ (answerFlag_some htt (isUpper_iff t.b1))
  · exact congrArg _ (answerFlag_some htt (by rw [hlower]; exact isLower_iff t.b2))
  · exact congrArg _ (answerFlag_some htt (by rw [hupper]; exact isUpper_iff t.b2))
  · exact congrArg _ (answerFlag_some htt (isLower_iff t.b3))

/-! ## The faults of the readers -/

/-- The commands that need four bytes in `TT` begin by reading them (R144, 42_chunk.md R169). -/
theorem exec_eq_needFour {i : Instr} (s : State)
    (h : i ∈ [Instr.ttBytes, .ttCrit, .ttPub, .ttRsvd, .ttSafe, .ttDisp, .chNew]) :
    ∃ k, exec i s = .next (needFour (cmdTaken s) k) := by
  cases i with
  | ttBytes | ttCrit | ttPub | ttRsvd | ttSafe | ttDisp | chNew => exact ⟨_, rfl⟩
  | _ => simp at h

/-- `TT.VALID` while `TT` is unwritten (R144). -/
theorem exec_ttValid_none {s : State} (htt : s.tt = none) :
    exec .ttValid s = .next (s.taken.haltedBy s.seq .unwritten) := by
  rw [exec, execTtValid, needTag_none htt]

/-- Settles O18: a reader other than `TT.VALID` begins with the read of the four bytes (`exec_eq_needFour`), which faults
(`needFour_none`, `needFour_short`). -/
theorem tagReadersFault : Obligations.TagReadersFault := by
  refine ⟨fun s i hi htt => ?_, fun s x i hi htt hn => ?_⟩
  · by_cases hvalid : i = .ttValid
    · rw [hvalid, exec_ttValid_none htt]
    · obtain ⟨k, hk⟩ := exec_eq_needFour s (by simpa [hvalid] using hi)
      rw [hk, needFour_none htt]
  · obtain ⟨k, hk⟩ := exec_eq_needFour s hi
    rw [hk, needFour_short htt hn]

/-! ## Well-formed text (R132) -/

/-- The nine rows of the table, each a list of byte ranges. -/
def utf8Rows : List (List (Nat × Nat)) := [
  [(0x00, 0x7F)],
  [(0xC2, 0xDF), (0x80, 0xBF)],
  [(0xE0, 0xE0), (0xA0, 0xBF), (0x80, 0xBF)],
  [(0xE1, 0xEC), (0x80, 0xBF), (0x80, 0xBF)],
  [(0xED, 0xED), (0x80, 0x9F), (0x80, 0xBF)],
  [(0xEE, 0xEF), (0x80, 0xBF), (0x80, 0xBF)],
  [(0xF0, 0xF0), (0x90, 0xBF), (0x80, 0xBF), (0x80, 0xBF)],
  [(0xF1, 0xF3), (0x80, 0xBF), (0x80, 0xBF), (0x80, 0xBF)],
  [(0xF4, 0xF4), (0x80, 0x8F), (0x80, 0xBF), (0x80, 0xBF)]]

/-- The byte sequence matches a row of the table byte by byte. -/
def MatchesRow (part : List Byte) : Prop :=
  ∃ row ∈ utf8Rows, List.Forall₂ (fun (b : Byte) (r : Nat × Nat) => r.1 ≤ b.toNat ∧ b.toNat ≤ r.2) part row

/-- The byte string is a concatenation of sequences of the table. -/
def RowConcat (s : List Byte) : Prop :=
  ∃ parts : List (List Byte), s = parts.flatten ∧ ∀ part ∈ parts, MatchesRow part

theorem rowConcat_nil : RowConcat [] := ⟨[], rfl, by simp⟩

theorem RowConcat.append {part s : List Byte} (hs : RowConcat s) (hpart : MatchesRow part) : RowConcat (part ++ s) := by
  obtain ⟨parts, rfl, hparts⟩ := hs
  exact ⟨part :: parts, rfl, List.forall_mem_cons.mpr ⟨hpart, hparts⟩⟩

/-! ### The rows of each length are one test of `utf8Ok` -/

theorem matchesRow_one (b0 : Byte) : MatchesRow [b0] ↔ inRange 0x00 0x7F b0 = true := by
  simp [MatchesRow, utf8Rows, inRange_iff]

theorem matchesRow_two (b0 b1 : Byte) : MatchesRow [b0, b1] ↔ utf8Two b0 b1 = true := by
  simp [MatchesRow, utf8Rows, utf8Two, isCont, inRange_iff]

theorem matchesRow_three (b0 b1 b2 : Byte) : MatchesRow [b0, b1, b2] ↔ utf8Three b0 b1 b2 = true := by
  simp [MatchesRow, utf8Rows, utf8Three, isCont, inRange_iff, and_assoc, or_assoc]

theorem matchesRow_four (b0 b1 b2 b3 : Byte) : MatchesRow [b0, b1, b2, b3] ↔ utf8Four b0 b1 b2 b3 = true := by
  simp [MatchesRow, utf8Rows, utf8Four, isCont, inRange_iff, and_assoc, or_assoc]

/-- The rows above are all of them: none is empty or longer than four bytes. -/
theorem MatchesRow.length {part : List Byte} (h : MatchesRow part) : 1 ≤ part.length ∧ part.length ≤ 4 := by
  have hrows : ∀ row ∈ utf8Rows, 1 ≤ row.length ∧ row.length ≤ 4 := by decide
  obtain ⟨row, hrow, hpart⟩ := h
  rw [hpart.length_eq]
  exact hrows row hrow

/-! ### The first byte tells sequences of different lengths apart -/

theorem utf8Two_lead {b0 b1 : Byte} (h : utf8Two b0 b1 = true) : 0xC2 ≤ b0.toNat ∧ b0.toNat ≤ 0xDF := by
  rw [utf8Two, Bool.and_eq_true, inRange_iff] at h
  exact h.1

theorem utf8Three_lead {b0 b1 b2 : Byte} (h : utf8Three b0 b1 b2 = true) : 0xE0 ≤ b0.toNat ∧ b0.toNat ≤ 0xEF := by
  simp [utf8Three, inRange_iff] at h
  omega

theorem utf8Four_lead {b0 b1 b2 b3 : Byte} (h : utf8Four b0 b1 b2 b3 = true) : 0xF0 ≤ b0.toNat ∧ b0.toNat ≤ 0xF4 := by
  simp [utf8Four, inRange_iff] at h
  omega

theorem not_ascii_of_lead {b0 : Byte} (h : 0x80 ≤ b0.toNat) : ¬ inRange 0x00 0x7F b0 = true := by
  simp [inRange_iff]
  omega

theorem not_utf8Two_of_lead {b0 : Byte} (h : 0xE0 ≤ b0.toNat) (b1 : Byte) : ¬ utf8Two b0 b1 = true := fun htwo => by
  have := utf8Two_lead htwo
  omega

theorem not_utf8Three_of_lead {b0 : Byte} (h : 0xF0 ≤ b0.toNat) (b1 b2 : Byte) : ¬ utf8Three b0 b1 b2 = true :=
  fun hthree => by
    have := utf8Three_lead hthree
    omega

/-! ### `utf8Ok` takes one sequence of the table after the other -/

theorem utf8Ok_one {b0 : Byte} (h : inRange 0x00 0x7F b0 = true) (s : List Byte) : utf8Ok (b0 :: s) = utf8Ok s := by
  rw [utf8Ok.eq_def]
  exact if_pos h

theorem utf8Ok_two {b0 b1 : Byte} (h : utf8Two b0 b1 = true) (s : List Byte) : utf8Ok (b0 :: b1 :: s) = utf8Ok s := by
  have hlead := utf8Two_lead h
  have hascii := not_ascii_of_lead (b0 := b0) (by omega)
  rw [utf8Ok.eq_def]
  exact (if_neg hascii).trans (if_pos h)

theorem utf8Ok_three {b0 b1 b2 : Byte} (h : utf8Three b0 b1 b2 = true) (s : List Byte) :
    utf8Ok (b0 :: b1 :: b2 :: s) = utf8Ok s := by
  have hlead := utf8Three_lead h
  have hascii := not_ascii_of_lead (b0 := b0) (by omega)
  have htwo := not_utf8Two_of_lead (b0 := b0) (by omega) b1
  rw [utf8Ok.eq_def]
  exact (if_neg hascii).trans ((if_neg htwo).trans (if_pos h))

theorem utf8Ok_four {b0 b1 b2 b3 : Byte} (h : utf8Four b0 b1 b2 b3 = true) (s : List Byte) :
    utf8Ok (b0 :: b1 :: b2 :: b3 :: s) = utf8Ok s := by
  have hlead := utf8Four_lead h
  have hascii := not_ascii_of_lead (b0 := b0) (by omega)
  have htwo := not_utf8Two_of_lead (b0 := b0) (by omega) b1
  have hthree := not_utf8Three_of_lead (b0 := b0) (by omega) b1 b2
  calc utf8Ok (b0 :: b1 :: b2 :: b3 :: s)
    _ = (utf8Four b0 b1 b2 b3 && utf8Ok s) := by
      rw [utf8Ok.eq_def]
      exact (if_neg hascii).trans ((if_neg htwo).trans (if_neg hthree))
    _ = utf8Ok s := by rw [h, Bool.true_and]

/-- A sequence of the table in front of a byte string does not matter. -/
theorem utf8Ok_append {part : List Byte} (h : MatchesRow part) (s : List Byte) : utf8Ok (part ++ s) = utf8Ok s := by
  obtain ⟨hpos, hle⟩ := h.length
  match part with
  | [b0] => exact utf8Ok_one ((matchesRow_one b0).mp h) s
  | [b0, b1] => exact utf8Ok_two ((matchesRow_two b0 b1).mp h) s
  | [b0, b1, b2] => exact utf8Ok_three ((matchesRow_three b0 b1 b2).mp h) s
  | [b0, b1, b2, b3] => exact utf8Ok_four ((matchesRow_four b0 b1 b2 b3).mp h) s

theorem utf8Ok_of_rowConcat {s : List Byte} (h : RowConcat s) : utf8Ok s = true := by
  obtain ⟨parts, rfl, hparts⟩ := h
  induction parts with
  | nil => rfl
  | cons part parts ih =>
    obtain ⟨hpart, hparts⟩ := List.forall_mem_cons.mp hparts
    rw [List.flatten_cons, utf8Ok_append hpart, ih hparts]

/-- Along the recursion of `utf8Ok`: each test that succeeds is a row matched by the bytes taken. -/
theorem rowConcat_of_utf8Ok {s : List Byte} (h : utf8Ok s = true) : RowConcat s := by
  fun_induction utf8Ok s with
  | case1 => exact rowConcat_nil
  | case2 b0 r0 hone ih => exact (ih h).append ((matchesRow_one b0).mpr hone)
  | case4 b0 _ b1 r1 htwo ih => exact (ih h).append ((matchesRow_two b0 b1).mpr htwo)
  | case6 b0 _ b1 _ b2 r2 hthree ih => exact (ih h).append ((matchesRow_three b0 b1 b2).mpr hthree)
  | case8 b0 _ b1 _ b2 _ b3 r3 ih =>
    obtain ⟨hfour, hrest⟩ := Bool.and_eq_true_iff.mp h
    exact (ih hrest).append ((matchesRow_four b0 b1 b2 b3).mpr hfour)
  | case3 | case5 | case7 => cases h

/-- Settles O19: a concatenation is text row by row (`utf8Ok_of_rowConcat`), and text is cut into rows as `utf8Ok` takes its bytes
(`rowConcat_of_utf8Ok`). -/
theorem textIsAConcatenationOfTableRows : Obligations.TextIsAConcatenationOfTableRows :=
  fun _ => ⟨rowConcat_of_utf8Ok, utf8Ok_of_rowConcat⟩

end Sys2Proof.Machine

/-! PROOFS. The statements of 42_chunk.md: what each command of the chunk unit answers (R169 to R178), where `CH.NEW` and `CH.DES`
pass `PAYLOAD_MAX` (R165, R170), and what the spec derives of `CH.NEW`, `CH.SER` and `CH.DES` together (R179, R180). -/

namespace Sys2Proof.Machine

/-! ## Readers of `CK` -/

/-- The readers of `CK` begin by reading it (R169). -/
theorem exec_eq_needChunk {i : Instr} (s : State) (h : i ∈ [Instr.chLen, .chType, .chData, .chCrc, .chStr, .chSer]) :
    ∃ k, exec i s = .next (needChunk (cmdTaken s) k) := by
  cases i with
  | chLen | chType | chData | chCrc | chStr | chSer => exact ⟨_, rfl⟩
  | _ => simp at h

/-- Settles O28: each reader begins with the read of `CK` (`exec_eq_needChunk`), which faults (`needChunk_none`). -/
theorem chunkReadersFault : Obligations.ChunkReadersFault := by
  intro s i hi hck
  obtain ⟨k, hk⟩ := exec_eq_needChunk s hi
  rw [hk, needChunk_none hck]

/-- Settles O22: the three commands read `CK` (`needChunk_some`). -/
theorem chAccessorsAnswerTheFields : Obligations.ChAccessorsAnswerTheFields := by
  refine ⟨hasOpcode_of_no_operand (i := .chLen) rfl, hasOpcode_of_no_operand (i := .chData) rfl,
    hasOpcode_of_no_operand (i := .chCrc) rfl, fun s c hck => ⟨?_, ?_, ?_⟩⟩
  · rw [exec, execChLen, needChunk_some hck, respond_eq_replying]
    rfl
  · rw [exec, execChData, needChunk_some hck, respond_emitPacket]
    exact ⟨_, rfl⟩
  · rw [exec, execChCrc, needChunk_some hck, respond_eq_replying]
    exact ⟨_, rfl⟩

/-- Settles O23: the command reads `CK` (`needChunk_some`), and `RES` holds the packed tag (`toWord_eq_ofNat`). -/
theorem chTypeDeliversTheTagTwice : Obligations.ChTypeDeliversTheTagTwice := by
  refine ⟨hasOpcode_of_no_operand (i := .chType) rfl, fun s c hck => ?_⟩
  rw [exec, execChType, needChunk_some hck, respond_eq_replying, toWord_eq_ofNat]
  rfl

/-- Settles O24: the command reads `CK` (`needChunk_some`); its two answers leave different sequencers. -/
theorem chStrEmitsOnlyText : Obligations.ChStrEmitsOnlyText := by
  refine ⟨hasOpcode_of_no_operand (i := .chStr) rfl, fun s c hck => ?_⟩
  rw [exec, execChStr, needChunk_some hck, respond_emitPacket, raiseError_eq_replying]
  by_cases htext : utf8Ok c.data = true
  · simp only [if_pos htext]
    exact ⟨_, rfl⟩
  · simp only [if_neg htext]
    exact ⟨_, rfl⟩

/-! ## `CH.SER` -/

/-- The record has three fields of four bytes, and the payload (R162). -/
theorem length_serChunk (c : Chunk) : (serChunk c).length = 12 + c.data.length := by
  simp only [serChunk, List.length_append, length_be32Bytes, Tag.length_toList]
  omega

/-- `CH.SER` while `CK` holds a chunk (R177). -/
theorem exec_chSer_of_chunk {s : State} {c : Chunk} (hck : s.ck = some c) :
    ∃ q, exec .chSer s = .next (s.taken.replying q .ok 0 (some (serChunk c))) := by
  obtain ⟨q, -, hq⟩ := chSer_replying c (cmdTaken s)
  exact ⟨q, by rw [exec, execChSer, needChunk_some hck, hq, cmdTaken_eq_taken]⟩

/-- Settles O25: the framer owes the record (`exec_chSer_of_chunk`), whose length is `length_serChunk`. -/
theorem chSerEmitsTheRecord : Obligations.ChSerEmitsTheRecord := by
  refine ⟨hasOpcode_of_no_operand (i := .chSer) rfl, fun s c hck => ?_⟩
  obtain ⟨q, hq⟩ := exec_chSer_of_chunk hck
  exact ⟨q, serChunk c, rfl, fun hvalid => by rw [length_serChunk, hvalid.1], hq⟩

/-! ## `CH.NEW` -/

/-- A payload within `PAYLOAD_MAX` makes a valid chunk (10_state.md R23, R161). -/
theorem newChunk_valid {cfg : Config} {t : Tag} {d : List Byte} (hmax : d.length ≤ cfg.payloadMax.toNat) :
    (newChunk cfg t d).Valid cfg :=
  ⟨by simpa [newChunk] using hmax.trans_lt cfg.payloadMax.isLt, rfl, hmax⟩

/-- Settles O20: the command builds `newChunk` (`exec_chNew_of_payload`), whose length is the payload's (`newChunk_valid`). -/
theorem chNewBuildsTheChunk : Obligations.ChNewBuildsTheChunk := by
  refine ⟨hasOpcode_of_no_operand (i := .chNew) rfl, fun s t p rest htt hp hmax => ?_⟩
  obtain ⟨q, hq⟩ := exec_chNew_of_payload htt hp hmax
  exact ⟨q, newChunk s.cfg t p, (newChunk_valid hmax).1, rfl, rfl, rfl, hq⟩

/-! ## The byte at which a packet faults (60_exceptions.md R246 point (5), R250) -/

/-- When the bytes there satisfy `P`, and a run over some first ones of them faults exactly when these satisfy `P`: the packet is
taken up to and including the first byte with which they do. -/
theorem runPacket_faults_at {P : List Byte → Prop} {c : Consumer} {f : ByteStep} {finish : State → State} {s : State}
    {code : FaultCode} (hrun : ∀ x, x <+: availBytes s.din → (byteRun f x s.seq = .error code ↔ P x))
    (hall : P (availBytes s.din)) :
    ∃ (q : Seq) (before : List Beat) (b : Byte) (last : Bool) (rest : List Beat),
      s.din = before ++ ⟨some b, last⟩ :: rest ∧ ¬ P (before.flatMap Beat.bytes) ∧
        P (before.flatMap Beat.bytes ++ [b]) ∧
        runPacket c f finish s = State.haltedBy { s with din := rest } q code := by
  obtain ⟨q1, q2, before, b, last, rest, hdin, hbefore, hb, hprefix, htaken⟩ :=
    takeBeats_faulted ((hrun _ List.prefix_rfl).mpr hall)
  refine ⟨q2, before, b, last, rest, hdin, fun hP => ?_, (hrun _ hprefix).mp ?_, ?_⟩
  · have herror := (hrun _ ((List.prefix_append _ _).trans hprefix)).mpr hP
    cases hbefore.symm.trans herror
  · simp only [byteRun_append, hbefore, byteRun_cons, hb]
  · rw [runPacket_faulted htaken, takeFault_eq_haltedBy]
    rfl

/-- The same for a limit on the number of bytes. -/
theorem runPacket_faults_past {limit : Nat} {c : Consumer} {f : ByteStep} {finish : State → State} {s : State}
    {code : FaultCode} (hrun : ∀ x, x <+: availBytes s.din → (byteRun f x s.seq = .error code ↔ limit < x.length))
    (hall : limit < (availBytes s.din).length) :
    ∃ (q : Seq) (before : List Beat) (b : Byte) (last : Bool) (rest : List Beat),
      s.din = before ++ ⟨some b, last⟩ :: rest ∧ (before.flatMap Beat.bytes).length = limit ∧
        runPacket c f finish s = State.haltedBy { s with din := rest } q code := by
  obtain ⟨q, before, b, last, rest, hdin, hnot, hover, hq⟩ := runPacket_faults_at hrun hall
  rw [List.length_append, List.length_singleton] at hover
  exact ⟨q, before, b, last, rest, hdin, by omega, hq⟩

/-- `CH.NEW` from an empty payload faults exactly past `PAYLOAD_MAX` bytes (R170). -/
theorem byteRun_chNewByte_error_iff (cfg : Config) (x : List Byte) {q : Seq} (hstage : q.stage = []) :
    byteRun (chNewByte cfg) x q = .error .capacity ↔ cfg.payloadMax.toNat < x.length := by
  refine ⟨fun herror => ?_, fun hover => byteRun_chNewByte_over cfg x q ?_ ?_⟩
  · by_contra hwithin
    cases (byteRun_chNewByte cfg x q (by simpa [hstage] using hwithin)).symm.trans herror
  · simpa [hstage] using hover
  · simp [hstage]

/-- Settles O21: the command starts with an empty payload and faults past the limit (`byteRun_chNewByte_error_iff`,
`runPacket_faults_past`). -/
theorem chNewFaultsPastTheCapacity : Obligations.ChNewFaultsPastTheCapacity := by
  intro s t htt hover
  rw [exec, execChNew, needFour_some htt]
  obtain ⟨q, before, b, last, rest, hdin, hlen, hq⟩ :=
    runPacket_faults_past (c := .chNew t) (finish := chNewDone t) (s := { cmdTaken s with
      seq := { s.seq with pos := 0, stage := [], crcR := crcFold s.cfg s.cfg.crcInit t.toList } })
      (fun x _ => byteRun_chNewByte_error_iff s.cfg x rfl) hover
  exact ⟨q, before, b, last, rest, hdin, hlen, congrArg _ hq⟩

/-! ## `CH.DES` -/

/-- `CH.DES` answers what the registers say (R166, R178). -/
theorem chDesDone_eq (s : State) :
    chDesDone s =
      match chDesResult s.seq with
      | .error e => s.replying s.seq e 0 none
      | .ok c => State.replying { s with ck := some c } s.seq .ok 0 none := by
  rw [chDesDone]
  cases chDesResult s.seq <;> rfl

/-- `CH.DES` with a packet that is all there and passes no capacity: the registers say what `parse_record` gives (R168). -/
theorem exec_chDes_of_packet {s : State} {p : List Byte} {rest : List Beat} (hp : firstPacket s.din = some (p, rest))
    (hwithin : recordOver s.cfg p 0 = false) :
    ∃ q, chDesResult q = (parseRecord s.cfg p 0).map Prod.fst ∧
      exec .chDes s = .next (chDesDone { s.taken with din := rest, seq := q }) := by
  obtain ⟨q, hrun, hresult⟩ := byteRun_chunk s.cfg p s.seq hwithin
  exact ⟨q, hresult, congrArg _ (runPacket_ended (s := { cmdTaken s with seq := chDesStart s.seq }) hp hrun)⟩

/-- Settles O26: at the end of the packet the registers say what `parse_record` gives (`exec_chDes_of_packet`), and the command
answers it (`chDesDone_eq`). -/
theorem chDesParsesOneRecord : Obligations.ChDesParsesOneRecord := by
  refine ⟨hasOpcode_of_no_operand (i := .chDes) rfl, fun s p rest hp hwithin => ?_⟩
  obtain ⟨q, hresult, hexec⟩ := exec_chDes_of_packet hp hwithin
  refine ⟨q, ?_⟩
  rw [hexec, chDesDone_eq, hresult]
  cases parseRecord s.cfg p 0 <;> rfl

/-- Of a record that passes the capacity, some first bytes pass it exactly when they reach payload byte `PAYLOAD_MAX + 1`. -/
theorem recordOver_prefix_iff {cfg : Config} {s x : List Byte} (hover : recordOver cfg s 0 = true) (hx : x <+: s) :
    recordOver cfg x 0 = true ↔ 8 + cfg.payloadMax.toNat < x.length := by
  obtain ⟨r, rfl⟩ := hx
  simp only [recordOver, decide_eq_true_eq, Nat.sub_zero, Nat.zero_add] at *
  refine ⟨And.left, fun hlong => ⟨hlong, ?_⟩⟩
  rw [← slice_append_right x r 0 4 (by omega)]
  exact hover.2

/-- `CH.DES` faults exactly when the capacity is passed (R165). -/
theorem byteRun_chDes_error_iff (cfg : Config) (x : List Byte) (q : Seq) :
    byteRun (recordByte cfg chDesAccept) x (chDesStart q) = .error .capacity ↔ recordOver cfg x 0 = true := by
  refine ⟨fun herror => ?_, byteRun_over cfg chDesAccept x (chDesStart q) rfl rfl⟩
  by_contra hwithin
  obtain ⟨q', hok, -⟩ := byteRun_chunk cfg x q (Bool.eq_false_iff.mpr hwithin)
  cases hok.symm.trans herror

/-- Settles O27: the first bytes of the packet fault exactly when they pass the limit (`byteRun_chDes_error_iff`,
`recordOver_prefix_iff`), so the packet is taken up to there (`runPacket_faults_past`). -/
theorem chDesFaultsPastTheCapacity : Obligations.ChDesFaultsPastTheCapacity := by
  intro s hover
  obtain ⟨q, before, b, last, rest, hdin, hlen, hq⟩ :=
    runPacket_faults_past (c := .chDes) (finish := chDesDone) (s := { cmdTaken s with seq := chDesStart s.seq })
      (fun x hx => (byteRun_chDes_error_iff s.cfg x s.seq).trans (recordOver_prefix_iff hover hx))
      ((recordOver_prefix_iff hover List.prefix_rfl).mp hover)
  exact ⟨q, before, b, last, rest, hdin, hlen, congrArg _ hq⟩

/-! ## `CH.NEW`, `CH.SER`, `CH.DES` (R179) -/

/-- `CH.DES` of the record of a valid chunk with a text tag (R178, R162). -/
theorem exec_chDes_of_record {s : State} {c : Chunk} {rest : List Beat} (hvalid : c.Valid s.cfg)
    (htext : utf8Ok c.tag.toList = true) (hdin : s.din = packetBeats (serChunk c) ++ rest) :
    ∃ q, exec .chDes s = .next (State.replying { s.taken with din := rest, ck := some c } q .ok 0 none) := by
  have hparse := parseRecord_serChunk s.cfg c [] hvalid htext
  have hover := recordOver_serChunk s.cfg c [] hvalid
  rw [List.append_nil] at hparse hover
  obtain ⟨q, hq⟩ := chDesParsesOneRecord.2 s (serChunk c) rest (by rw [hdin, firstPacket_packetBeats]) hover
  rw [hparse] at hq
  exact ⟨q, hq⟩

/-- `CH.SER` of a valid chunk with a text tag and, its output taken, `CH.DES` of the record that was owed. -/
theorem chSer_then_chDes {s : State} {c : Chunk} (hck : s.ck = some c) (hdout : s.dout = []) (hvalid : c.Valid s.cfg)
    (htext : utf8Ok c.tag.toList = true) {rest : List Beat} :
    ∃ s2, exec .chSer s = .next s2 ∧ s2.rsp = some ⟨.ok, 0⟩ ∧ s2.dout = packetBeats (serChunk c) ∧
      ∀ (q : Seq) (x : Option Chunk), ∃ s3,
        exec .chDes { s2.delivered q ⟨.ok, 0⟩ with ck := x, din := packetBeats (serChunk c) ++ rest } = .next s3 ∧
        s3.rsp = some ⟨.ok, 0⟩ ∧ s3.ck = some c ∧ s3.din = rest := by
  obtain ⟨q', hser⟩ := exec_chSer_of_chunk hck
  refine ⟨_, hser, rfl, by simp [hdout], fun q x => ?_⟩
  obtain ⟨q'', hdes⟩ := exec_chDes_of_record
    (s := { (s.taken.replying q' .ok 0 (some (serChunk c))).delivered q ⟨.ok, 0⟩ with
      ck := x, din := packetBeats (serChunk c) ++ rest }) hvalid htext rfl
  exact ⟨_, hdes, rfl, rfl, rfl⟩

/-- Settles O38: `CH.NEW` leaves a valid chunk (`exec_chNew_of_payload`, `newChunk_valid`), and the two other commands give it
back (`chSer_then_chDes`). -/
theorem chunkRoundTrip : Obligations.ChunkRoundTrip := by
  intro s t d rest htt htext hp hmax
  obtain ⟨q, hnew⟩ := exec_chNew_of_payload htt hp hmax
  refine ⟨newChunk s.cfg t d, serChunk (newChunk s.cfg t d), _, hnew, rfl, rfl, fun q1 => ?_⟩
  refine chSer_then_chDes rfl rfl ?_ htext
  exact newChunk_valid hmax

/-! ## One flipped bit (R180) -/

/-- One bit of a byte flipped. -/
def flipBit (bit : Nat) (x : Byte) : Byte := x ^^^ BitVec.twoPow 8 bit

theorem flipBit_ne {bit : Nat} (hbit : bit < 8) (x : Byte) : flipBit bit x ≠ x := by
  intro h
  have := congrArg (·.getLsbD bit) h
  simp [flipBit, hbit] at this

theorem modify_append_left {α : Type*} {f : α → α} {a b : List α} {i : Nat} (hi : i < a.length) :
    (a ++ b).modify i f = a.modify i f ++ b := by
  induction a generalizing i with
  | nil => simp at hi
  | cons x a ih =>
    cases i with
    | zero => rfl
    | succ i => simpa using ih (by simpa using hi)

theorem modify_append_right {α : Type*} {f : α → α} {a b : List α} {i : Nat} :
    (a ++ b).modify (a.length + i) f = a ++ b.modify i f := by
  induction a with
  | nil => simp
  | cons x a ih => simpa [Nat.add_right_comm] using ih

theorem modify_flipBit_ne {s : List Byte} {i bit : Nat} (hi : i < s.length) (hbit : bit < 8) :
    s.modify i (flipBit bit) ≠ s := by
  obtain ⟨a, x, b, hs, -, hmod⟩ := List.exists_of_modify (flipBit bit) hi
  rw [hmod, hs]
  simpa using flipBit_ne hbit x

/-- With a polynomial that has bit 31 no step of the register loses a difference, so the verifier sees one flipped bit (40_crc.md
R116). -/
theorem detectsSingleBit_of_poly {cfg : Config} (hpoly : cfg.crcPolyR.getLsbD 31 = true) : DetectsSingleBit cfg := by
  intro a b x bit hbit h
  simp only [crc32, crcFin, BitVec.xor_left_inj, crcFold_append] at h
  exact flipBit_ne hbit x (crcByte_inj_right hpoly (crcFold_inj hpoly b h))

/-- R116 at a byte given by its index. -/
theorem crc32_modify_flipBit_ne {cfg : Config} (hdetects : DetectsSingleBit cfg) {s : List Byte} {i bit : Nat}
    (hi : i < s.length) (hbit : bit < 8) : crc32 cfg (s.modify i (flipBit bit)) ≠ crc32 cfg s := by
  obtain ⟨a, x, b, hs, -, hmod⟩ := List.exists_of_modify (flipBit bit) hi
  rw [hmod, hs]
  exact hdetects a b x bit hbit

/-- A four-byte string is `BE32` of its value (00_scope.md section 6). -/
theorem be32Bytes_be32 {s : List Byte} (h : s.length = 4) : be32Bytes (be32 s) = s := by
  obtain ⟨b0, b1, b2, b3, r, rfl⟩ := first_four h.ge
  obtain rfl : r = [] := by simpa using h
  rw [show [b0, b1, b2, b3] = (Tag.mk b0 b1 b2 b3).toList from rfl, be32_toList, be32Bytes, Tag.ofWord_toWord]

/-- The byte string is a record with the Length field of the record of `c` and as many payload bytes, whose Checksum field does not
match its type and payload fields. -/
def SpoiltRecord (cfg : Config) (c : Chunk) (record : List Byte) : Prop :=
  ∃ c' : Chunk, record = serChunk c' ∧ c'.len = c.len ∧ c'.data.length = c.data.length ∧
    crc32 cfg (c'.tag.toList ++ c'.data) ≠ c'.crc

/-- A flipped bit of the type or payload field changes the checksum, and the Checksum field stays. -/
theorem spoiltRecord_of_flip_in_body {cfg : Config} {c : Chunk} {i bit : Nat} (hdetects : DetectsSingleBit cfg)
    (hcrc : c.crc = crc32 cfg (c.tag.toList ++ c.data)) (hi : i < (c.tag.toList ++ c.data).length) (hbit : bit < 8) :
    SpoiltRecord cfg c (be32Bytes c.len ++ ((c.tag.toList ++ c.data).modify i (flipBit bit) ++ be32Bytes c.crc)) := by
  have hne := crc32_modify_flipBit_ne hdetects hi hbit
  have hlength : ((c.tag.toList ++ c.data).modify i (flipBit bit)).length = 4 + c.data.length := by simp
  obtain ⟨t0, t1, t2, t3, d, hmod⟩ := first_four (hlength.symm ▸ Nat.le_add_right 4 c.data.length)
  rw [hmod] at hne hlength ⊢
  have hd : d.length = c.data.length := by
    simp only [List.length_cons] at hlength
    omega
  exact ⟨⟨c.len, ⟨t0, t1, t2, t3⟩, d, c.crc⟩, by simp [serChunk, Tag.toList], rfl, hd, hcrc ▸ hne⟩

/-- A flipped bit of the Checksum field changes its value, and the checksum stays. -/
theorem spoiltRecord_of_flip_in_checksum {cfg : Config} {c : Chunk} {i bit : Nat}
    (hcrc : c.crc = crc32 cfg (c.tag.toList ++ c.data)) (hi : i < 4) (hbit : bit < 8) :
    SpoiltRecord cfg c (be32Bytes c.len ++ ((c.tag.toList ++ c.data) ++ (be32Bytes c.crc).modify i (flipBit bit))) := by
  have hne : (be32Bytes c.crc).modify i (flipBit bit) ≠ be32Bytes c.crc := modify_flipBit_ne hi hbit
  have hfield : be32Bytes (be32 ((be32Bytes c.crc).modify i (flipBit bit))) = (be32Bytes c.crc).modify i (flipBit bit) :=
    be32Bytes_be32 (by simp)
  refine ⟨{ c with crc := be32 ((be32Bytes c.crc).modify i (flipBit bit)) }, by simp [serChunk, hfield], rfl, rfl,
    fun hmatch => hne ?_⟩
  exact hfield.symm.trans (congrArg be32Bytes (hmatch.symm.trans hcrc.symm))

/-- The record of a valid chunk with one bit flipped after the Length field. -/
theorem spoiltRecord_of_flip {cfg : Config} {c : Chunk} {i bit : Nat} (hdetects : DetectsSingleBit cfg)
    (hvalid : c.Valid cfg) (hi : i < 8 + c.len.toNat) (hbit : bit < 8) :
    SpoiltRecord cfg c ((serChunk c).modify (4 + i) (flipBit bit)) := by
  obtain ⟨hlen, hcrc, -⟩ := hvalid
  have hserial : serChunk c = be32Bytes c.len ++ ((c.tag.toList ++ c.data) ++ be32Bytes c.crc) := by simp [serChunk]
  have hbody : (c.tag.toList ++ c.data).length = 4 + c.data.length := by simp
  rw [hserial, ← length_be32Bytes c.len, modify_append_right]
  rcases Nat.lt_or_ge i (c.tag.toList ++ c.data).length with hin | hout
  · rw [modify_append_left hin]
    exact spoiltRecord_of_flip_in_body hdetects hcrc hin hbit
  · obtain ⟨j, rfl⟩ := Nat.exists_eq_add_of_le hout
    rw [modify_append_right]
    exact spoiltRecord_of_flip_in_checksum hcrc (by omega) hbit

/-- `parse_record` reads the Length of a record, and tests its Checksum field against type and payload (R163). -/
theorem parseRecord_of_bad_checksum {cfg : Config} {c : Chunk} (horder : cfg.errOrder = .crcFirst)
    (hlen : c.len.toNat = c.data.length) (hbad : crc32 cfg (c.tag.toList ++ c.data) ≠ c.crc) :
    parseRecord cfg (serChunk c) 0 = .error .checksumMismatch := by
  obtain ⟨len, ⟨t0, t1, t2, t3⟩, d, crc⟩ := c
  obtain ⟨⟨l0, l1, l2, l3⟩, rfl⟩ : ∃ l : Tag, be32 l.toList = len := ⟨_, be32_be32Bytes len⟩
  obtain ⟨⟨c0, c1, c2, c3⟩, rfl⟩ : ∃ x : Tag, be32 x.toList = crc := ⟨_, be32_be32Bytes crc⟩
  have hparse := parseRecord_complete cfg l0 l1 l2 l3 t0 t1 t2 t3 c0 c1 c2 c3 d [] hlen
  have hne : (crc32 cfg ((Tag.mk t0 t1 t2 t3).toList ++ d) != be32 [c0, c1, c2, c3]) = true := bne_iff_ne.mpr hbad
  rw [hne, horder] at hparse
  simpa [serChunk, be32Bytes_be32, Tag.toList, recordError] using hparse

/-- A record with a Length within `PAYLOAD_MAX` passes no capacity (R165). -/
theorem recordOver_serChunk_of_len {cfg : Config} {c : Chunk} (hmax : c.len.toNat ≤ cfg.payloadMax.toNat) :
    recordOver cfg (serChunk c) 0 = false := by
  have hfirst : slice (serChunk c) 0 4 = be32Bytes c.len := rfl
  simp only [recordOver, Nat.zero_add, hfirst, be32_be32Bytes, decide_eq_false_iff_not]
  omega

/-- Settles O39: the packet is a record with the same Length and a Checksum field that does not match (`spoiltRecord_of_flip`, with
`detectsSingleBit_of_poly`), which `CH.DES` takes (`recordOver_serChunk_of_len`) and rejects (`parseRecord_of_bad_checksum`). -/
theorem flippedBitGivesChecksumMismatch : Obligations.FlippedBitGivesChecksumMismatch := by
  intro s c i bit rest hpoly horder hvalid hi hlt hbit hp
  obtain ⟨k, rfl⟩ := Nat.exists_eq_add_of_le hi
  obtain ⟨c', hrecord, hlen, hdata, hbad⟩ :=
    spoiltRecord_of_flip (i := k) (detectsSingleBit_of_poly (by rw [hpoly]; rfl)) hvalid (by omega) hbit
  obtain ⟨hvalidLen, -, hmax⟩ := hvalid
  rw [← hlen] at hvalidLen
  have hpacket : firstPacket s.din = some (serChunk c', rest) := hrecord ▸ hp
  obtain ⟨q, hq⟩ := chDesParsesOneRecord.2 s (serChunk c') rest hpacket (recordOver_serChunk_of_len (by omega))
  rw [parseRecord_of_bad_checksum horder (by omega) hbad] at hq
  exact ⟨q, hq⟩

end Sys2Proof.Machine

/-! PROOFS. The statements of 43_container.md: the list commands (R203 to R207, R219), the multiplexer of `CT.SER` (R208, R213), the
header validator and the parse loop of `CT.DES` (R209, R211, R212), and what the spec derives of them (R215 to R217). -/

namespace Sys2Proof.Machine

/-! ## Readers of `CL` -/

/-- The readers of `CL` begin by reading it (R219). -/
theorem exec_eq_needList {i : Instr} (s : State)
    (h : i ∈ [Instr.ctAppend, .ctRemove, .ctFind, .ctSer] ∨ ∃ k, i = .ctChunks k) :
    ∃ k, exec i s = .next (needList (cmdTaken s) k) := by
  cases i with
  | ctAppend | ctRemove | ctFind | ctChunks | ctSer => exact ⟨_, rfl⟩
  | _ => simp at h

/-- Settles O37: each reader begins with the read of `CL` (`exec_eq_needList`), which faults (`needList_none`). -/
theorem listReadersFault : Obligations.ListReadersFault := by
  intro s i hi hcl
  obtain ⟨k, hk⟩ := exec_eq_needList s hi
  rw [hk, needList_none hcl]

/-! ## `CT.FROM`, `CT.APPEND`, `CT.CHUNKS` -/

/-- Settles O29: the word by `hasOpcode_of_no_operand`; the command reads nothing, so its end is the same in every state. -/
theorem ctFromMakesTheEmptyContainer : Obligations.CtFromMakesTheEmptyContainer :=
  ⟨hasOpcode_of_no_operand (i := .ctFrom) rfl, fun _ => rfl⟩

/-- `CT.APPEND` with a container and a chunk is the test of the capacity (R204). -/
theorem exec_ctAppend_of_chunk {s : State} {l : List Chunk} {c : Chunk} (hcl : s.cl = some l) (hck : s.ck = some c) :
    exec .ctAppend s = .next
      (if l.length = s.cfg.chunksMax.toNat then s.taken.haltedBy s.seq .capacity
      else State.replying { s.taken with cl := some (l ++ [c]), ck := none } s.seq .ok 0 none) := by
  rw [exec, execCtAppend, needList_some hcl, needChunk_some hck, takeFault_cmdTaken, respond_eq_replying]
  rfl

/-- `CT.APPEND` reads `CL`, then `CK` (R219). -/
theorem exec_ctAppend_unwritten {s : State} (h : s.cl = none ∨ s.ck = none) :
    exec .ctAppend s = .next (s.taken.haltedBy s.seq .unwritten) := by
  rw [exec, execCtAppend]
  cases hcl : s.cl with
  | none => rw [needList_none hcl]
  | some l => rw [needList_some hcl, needChunk_none (h.resolve_left (by simp [hcl]))]

/-- Settles O30: both registers hold a value (`exec_ctAppend_of_chunk`), or one is empty (`exec_ctAppend_unwritten`). -/
theorem ctAppendMovesTheChunk : Obligations.CtAppendMovesTheChunk :=
  ⟨hasOpcode_of_no_operand (i := .ctAppend) rfl, fun _ _ _ => exec_ctAppend_of_chunk, fun _ => exec_ctAppend_unwritten⟩

/-- Settles O33: the command reads `CL` (`needList_some`), and the index is inside the list or not. -/
theorem ctChunksEnumerates : Obligations.CtChunksEnumerates := by
  intro s l index hcl
  rw [exec, execCtChunks, needList_some hcl]
  refine ⟨fun hin => ?_, fun hout => ?_⟩
  · rw [if_pos hin, List.getElem?_eq_getElem hin, respond_eq_replying]
    rfl
  · rw [if_neg (by omega), respond_eq_replying]
    rfl

/-! ## `CT.REMOVE` and `CT.FIND` -/

/-- A text packet that is all there, taken with an empty text latch, is in the latch at its end (R210; log 7). -/
theorem runPacket_textFeed {c : Consumer} {finish : State → State} {s : State} {x : List Byte} {rest : List Beat}
    (htxt : s.seq.txt = .len0) (hp : firstPacket s.din = some (x, rest)) :
    ∃ q, q.txt = .ofText x ∧ runPacket c textFeed finish s = finish { s with din := rest, seq := q } :=
  ⟨_, by rw [htxt, foldl_push], runPacket_ended hp (byteRun_textFeed x s.seq)⟩

section
variable {s : State} {x : List Byte} {rest : List Beat}

/-- `CT.REMOVE` with a container and its packet looks for the text (R205). -/
theorem exec_ctRemove_of_packet {l : List Chunk} (hcl : s.cl = some l) (hp : firstPacket s.din = some (x, rest)) :
    ∃ q, q.txt = .ofText x ∧ exec .ctRemove s = .next (ctRemoveDone { s.taken with din := rest, seq := q }) := by
  rw [exec, execCtRemove, needList_some hcl]
  obtain ⟨q, htxt, hq⟩ := runPacket_textFeed (c := .ctRemove) (finish := ctRemoveDone)
    (s := { cmdTaken s with seq := { s.seq with pos := 0, txt := .len0 } }) rfl hp
  exact ⟨q, htxt, congrArg _ hq⟩

/-- `CT.FIND` with a container and its packet looks for the text (R206). -/
theorem exec_ctFind_of_packet {l : List Chunk} (hcl : s.cl = some l) (hp : firstPacket s.din = some (x, rest)) :
    ∃ q, q.txt = .ofText x ∧ exec .ctFind s = .next (ctFindDone { s.taken with din := rest, seq := q }) := by
  rw [exec, execCtFind, needList_some hcl]
  obtain ⟨q, htxt, hq⟩ := runPacket_textFeed (c := .ctFind) (finish := ctFindDone)
    (s := { cmdTaken s with seq := { s.seq with pos := 0, txt := .len0 } }) rfl hp
  exact ⟨q, htxt, congrArg _ hq⟩

theorem exec_ctRemove_of_no_match {l : List Chunk} (hcl : s.cl = some l) (hp : firstPacket s.din = some (x, rest))
    (hmatch : firstMatch (.ofText x) l = none) :
    ∃ q, exec .ctRemove s = .next (State.replying { s.taken with din := rest } q .notFound 0 none) := by
  obtain ⟨q, htxt, hq⟩ := exec_ctRemove_of_packet hcl hp
  rw [← htxt] at hmatch
  exact ⟨q, hq.trans (congrArg _ (ctRemoveDone_none _ l hcl hmatch))⟩

theorem exec_ctFind_of_no_match {l : List Chunk} (hcl : s.cl = some l) (hp : firstPacket s.din = some (x, rest))
    (hmatch : firstMatch (.ofText x) l = none) :
    ∃ q, exec .ctFind s = .next (State.replying { s.taken with din := rest } q .ok 0 none) := by
  obtain ⟨q, htxt, hq⟩ := exec_ctFind_of_packet hcl hp
  rw [← htxt] at hmatch
  exact ⟨q, hq.trans (congrArg _ (ctFindDone_none _ l hcl hmatch))⟩

variable {before after : List Chunk} {c : Chunk}

theorem exec_ctRemove_of_match (hcl : s.cl = some (before ++ c :: after)) (hp : firstPacket s.din = some (x, rest))
    (hmatch : firstMatch (.ofText x) (before ++ c :: after) = some before.length) :
    ∃ q, exec .ctRemove s = .next
      (State.replying { s.taken with din := rest, ck := some c, cl := some (before ++ after) } q .ok 0 none) := by
  obtain ⟨q, htxt, hq⟩ := exec_ctRemove_of_packet hcl hp
  rw [← htxt] at hmatch
  exact ⟨q, hq.trans (congrArg _ (ctRemoveDone_some _ before after c hcl hmatch))⟩

theorem exec_ctFind_of_match (hcl : s.cl = some (before ++ c :: after)) (hp : firstPacket s.din = some (x, rest))
    (hmatch : firstMatch (.ofText x) (before ++ c :: after) = some before.length) :
    ∃ q, exec .ctFind s = .next (State.replying { s.taken with din := rest, ck := some c } q .ok 1 none) := by
  obtain ⟨q, htxt, hq⟩ := exec_ctFind_of_packet hcl hp
  rw [← htxt] at hmatch
  exact ⟨q, hq.trans (congrArg _ (ctFindDone_some _ before after c hcl hmatch))⟩

end

/-- Settles O31: no entry has the text, or the list is cut at the first that does (`firstMatch_ofText`). -/
theorem ctRemoveTakesTheFirstMatch : Obligations.CtRemoveTakesTheFirstMatch := by
  refine ⟨hasOpcode_of_no_operand (i := .ctRemove) rfl, fun s l x rest hcl hp => ?_⟩
  rcases firstMatch_ofText x l with ⟨hmatch, hnone⟩ | ⟨before, c, after, rfl, htext, hfirst, hmatch⟩
  · obtain ⟨q, hq⟩ := exec_ctRemove_of_no_match hcl hp hmatch
    exact .inl ⟨q, hnone, hq⟩
  · obtain ⟨q, hq⟩ := exec_ctRemove_of_match hcl hp hmatch
    exact .inr ⟨q, before, c, after, rfl, htext, hfirst, hq⟩

/-- Settles O32: no entry has the text, or the list is cut at the first that does (`firstMatch_ofText`). -/
theorem ctFindCopiesTheFirstMatch : Obligations.CtFindCopiesTheFirstMatch := by
  refine ⟨hasOpcode_of_no_operand (i := .ctFind) rfl, fun s l x rest hcl hp => ?_⟩
  rcases firstMatch_ofText x l with ⟨hmatch, hnone⟩ | ⟨before, c, after, rfl, htext, hfirst, hmatch⟩
  · obtain ⟨q, hq⟩ := exec_ctFind_of_no_match hcl hp hmatch
    exact .inl ⟨q, hnone, hq⟩
  · obtain ⟨q, hq⟩ := exec_ctFind_of_match hcl hp hmatch
    exact .inr ⟨q, before, c, after, rfl, htext, hfirst, hq⟩

/-- The first entry of a list matches its own tag (R210). -/
theorem firstMatch_head (c : Chunk) (l : List Chunk) : firstMatch (.ofText c.tag.toList) (c :: l) = some 0 := by
  simp [firstMatch, List.findIdx?_cons, latchMatches_ofText, tagMatches]

/-- Settles O42: the first match is the head of the list (`firstMatch_head`), so nothing stands before it. -/
theorem findAndRemoveOnABA : Obligations.FindAndRemoveOnABA := by
  intro s a1 b a2 rest hcl _ _ hp
  have hmatch := firstMatch_head a1 [b, a2]
  exact ⟨exec_ctFind_of_match (before := []) hcl hp hmatch, exec_ctRemove_of_match (before := []) hcl hp hmatch⟩

/-! ## `CT.SER` -/

/-- `CT.SER` while `CL` holds a container (R208). -/
theorem exec_ctSer_of_list {s : State} {l : List Chunk} (hcl : s.cl = some l) :
    ∃ q, exec .ctSer s = .next (s.taken.replying q .ok 0 (some (ctSer s.cfg l))) := by
  obtain ⟨q, -, hq⟩ := ctSer_replying l (cmdTaken s)
  exact ⟨q, by rw [exec, execCtSer, needList_some hcl, hq, cmdTaken_eq_taken, State.taken_cfg]⟩

/-- Settles O34: the multiplexer owes `ct_ser` of the list (`exec_ctSer_of_list`), which is the header and the records. -/
theorem ctSerEmitsTheStream : Obligations.CtSerEmitsTheStream := by
  refine ⟨hasOpcode_of_no_operand (i := .ctSer) rfl, fun s l hcl => ?_⟩
  rw [← List.flatMap_def]
  exact exec_ctSer_of_list hcl

/-! ## `CT.DES` -/

/-- `CT.DES` answers what the registers say (R209, R212). -/
theorem ctDesDone_eq (s : State) :
    ctDesDone s =
      match ctDesResult s.seq with
      | .error e => s.replying s.seq e 0 none
      | .ok l => State.replying { s with cl := some l } s.seq .ok 0 none := by
  rw [ctDesDone]
  cases ctDesResult s.seq <;> rfl

/-- The whole packet of `CT.DES`, no capacity passed: what the registers say at its end is what `ct_des` gives (R214). -/
theorem byteRun_ctDes {cfg : Config} {p : List Byte} (q : Seq) (hwithin : containerOver cfg p = false) :
    ∃ q', byteRun (ctDesByte cfg) p (ctDesStart q) = .ok q' ∧ ctDesResult q' = ctDes cfg p := by
  obtain ⟨q', hrun, hends | ⟨hhdr, hshort⟩⟩ := (byteRun_container cfg p (ctDesStart q) rfl rfl rfl).2 hwithin
  · exact ⟨q', hrun, ctDesResult_endsAs hends⟩
  · exact ⟨q', hrun, by rw [ctDesResult, if_pos hhdr, hshort]⟩

/-- Settles O35: at the end of the packet the registers say what `ct_des` gives (`byteRun_ctDes`), and the command answers it
(`ctDesDone_eq`). -/
theorem ctDesParsesTheStream : Obligations.CtDesParsesTheStream := by
  refine ⟨hasOpcode_of_no_operand (i := .ctDes) rfl, fun s p rest hp hwithin => ?_⟩
  obtain ⟨q, hrun, hresult⟩ := byteRun_ctDes s.seq hwithin
  have hend : exec .ctDes s = .next (ctDesDone { s.taken with din := rest, seq := q }) :=
    congrArg _ (runPacket_ended (s := { cmdTaken s with seq := ctDesStart s.seq }) hp hrun)
  refine ⟨q, ?_⟩
  rw [hend, ctDesDone_eq, hresult]
  cases ctDes s.cfg p <;> rfl

/-- `CT.DES` faults exactly when a capacity is passed (R212, 42_chunk.md R165). -/
theorem byteRun_ctDes_error_iff (cfg : Config) (x : List Byte) (q : Seq) :
    byteRun (ctDesByte cfg) x (ctDesStart q) = .error .capacity ↔ containerOver cfg x = true := by
  refine ⟨fun herror => ?_, (byteRun_container cfg x (ctDesStart q) rfl rfl rfl).1⟩
  by_contra hwithin
  obtain ⟨q', hok, -⟩ := byteRun_ctDes q (Bool.eq_false_iff.mpr hwithin)
  cases hok.symm.trans herror

/-- Settles O36: any first bytes of the packet fault exactly when a capacity is passed on them (`byteRun_ctDes_error_iff`), so the
packet is taken up to there (`runPacket_faults_at`). -/
theorem ctDesFaultsPastTheCapacity : Obligations.CtDesFaultsPastTheCapacity := by
  intro s hover
  obtain ⟨q, before, b, last, rest, hdin, hbefore, hwith, hq⟩ :=
    runPacket_faults_at (c := .ctDes) (finish := ctDesDone) (s := { cmdTaken s with seq := ctDesStart s.seq })
      (fun x _ => byteRun_ctDes_error_iff s.cfg x s.seq) hover
  exact ⟨q, before, b, last, rest, hdin, Bool.eq_false_iff.mpr hbefore, hwith, congrArg _ hq⟩

/-! ## The header gate (R216) -/

/-- A bad header comes before any capacity (60_exceptions.md R246). -/
theorem containerOver_of_bad_header {cfg : Config} {p : List Byte} (h : p.take 8 ≠ cfg.magic.toList) :
    containerOver cfg p = false := by
  rw [containerOver, decide_eq_false fun hheader => h hheader.2, Bool.false_and]

theorem ctDes_of_bad_header {cfg : Config} {p : List Byte} (h : p.take 8 ≠ cfg.magic.toList) :
    ctDes cfg p = .error .malformedHeader := by
  rw [ctDes, if_pos (.inr h)]

/-- Settles O41: `CT.DES` gives what `ct_des` gives (`ctDesParsesTheStream`), whose first test is the header
(`ctDes_of_bad_header`). -/
theorem headerGate : Obligations.HeaderGate := by
  intro s p rest hp hheader
  obtain ⟨q, hq⟩ := ctDesParsesTheStream.2 s p rest hp (containerOver_of_bad_header hheader)
  rw [ctDes_of_bad_header hheader] at hq
  exact ⟨q, hq⟩

/-! ## `CT.SER`, `CT.DES` (R215) -/

/-- Every record has bytes, so the bytes of a list bound the passes over it (R84). -/
theorem length_le_length_serChunks (l : List Chunk) : l.length ≤ (l.flatMap serChunk).length := by
  induction l with
  | nil => exact Nat.le_refl 0
  | cons c l ih =>
    rw [List.flatMap_cons, List.length_append, length_serChunk, List.length_cons]
    omega

/-- `ct_des` gives back the list whose stream it reads, and no capacity is passed (R201, R202). -/
theorem ctDes_ctSer {cfg : Config} {l : List Chunk} (hvalid : ListValid cfg l)
    (htext : ∀ c ∈ l, utf8Ok c.tag.toList = true) :
    ctDes cfg (ctSer cfg l) = .ok l ∧ containerOver cfg (ctSer cfg l) = false := by
  obtain ⟨hcount, hchunks⟩ := hvalid
  have hmagic : cfg.magic.toList.length = 8 := cfg.magic.length_toList
  have hlen : (ctSer cfg l).length = 8 + (l.flatMap serChunk).length := by rw [ctSer, List.length_append, hmagic]
  have hheader : slice (ctSer cfg l) 0 8 = cfg.magic.toList := List.take_left' hmagic
  obtain ⟨hloop, hwithin⟩ := ctDesLoop_serChunks cfg cfg.magic.toList l [] hchunks htext (by simpa using hcount)
    (ctSer cfg l).length (by have := length_le_length_serChunks l; omega)
  rw [hmagic] at hloop hwithin
  refine ⟨?_, ?_⟩
  · rw [ctDes, if_neg (by simp [hheader, hlen])]
    exact hloop
  · rw [containerOver, Bool.and_eq_false_iff]
    exact .inr hwithin

/-- `CT.DES` of the stream of a valid list of text tags (R209, R201). -/
theorem exec_ctDes_of_stream {s : State} {l : List Chunk} {rest : List Beat} (hvalid : ListValid s.cfg l)
    (htext : ∀ c ∈ l, utf8Ok c.tag.toList = true) (hdin : s.din = packetBeats (ctSer s.cfg l) ++ rest) :
    ∃ q, exec .ctDes s = .next (State.replying { s.taken with din := rest, cl := some l } q .ok 0 none) := by
  obtain ⟨hparse, hwithin⟩ := ctDes_ctSer hvalid htext
  obtain ⟨q, hq⟩ := ctDesParsesTheStream.2 s _ rest (by rw [hdin, firstPacket_packetBeats]) hwithin
  rw [hparse] at hq
  exact ⟨q, hq⟩

/-- Settles O40: `CT.SER` owes `ct_ser` of the list (`exec_ctSer_of_list`), and `CT.DES` of that stream gives the list back
(`exec_ctDes_of_stream`). -/
theorem containerRoundTrip : Obligations.ContainerRoundTrip := by
  intro s l rest hcl hvalid htext
  obtain ⟨q', hser⟩ := exec_ctSer_of_list hcl
  refine ⟨ctSer s.cfg l, _, hser, rfl, rfl, fun q x => ?_⟩
  obtain ⟨q'', hdes⟩ := exec_ctDes_of_stream
    (s := { (s.taken.replying q' .ok 0 (some (ctSer s.cfg l))).delivered q ⟨.ok, 0⟩ with
      cl := x, din := packetBeats (ctSer s.cfg l) ++ rest }) hvalid htext rfl
  exact ⟨_, hdes, rfl, rfl, rfl⟩

end Sys2Proof.Machine

/-! PROOFS. The statements of 60_exceptions.md: an error or a fault changes no object register (R248), which commands raise no error
(R243), what taking a fault does (R250), and that only reset ends it (R280). -/

namespace Sys2Proof.Machine

/-! ## Errors -/

/-- The 19 commands that raise no error, as the statement lists them (R243). -/
theorem mayRaise_eq_false_iff (i : Instr) :
    mayRaise i = false ↔
      i ∈ [Instr.crcGen, .ttParse, .ttBytes, .ttValid, .ttCrit, .ttPub, .ttRsvd, .ttSafe, .ttDisp, .chNew, .chLen,
        .chType, .chData, .chCrc, .chSer, .ctFrom, .ctAppend, .ctFind, .ctSer] := by
  cases i <;> simp [mayRaise]

/-- Settles O44: a fault keeps every object register, and so does a response with another code than `OK` (`EndedBy`). -/
theorem failedCommandsChangeNoObjectRegister : Obligations.FailedCommandsChangeNoObjectRegister := by
  intro i s t y h hcur hrsp herr
  rcases exec_ends i s t h with ⟨c, q, rfl, -, -⟩ | ⟨q, c, before, rest, -, -, rfl⟩ |
    ⟨q, e, r, p, tt, ck, cl, rest, hend⟩
  · cases hcur
  · exact ⟨rfl, rfl, rfl⟩
  · rw [hend.state_eq] at hrsp ⊢
    cases hrsp
    exact ⟨hend.tt_eq (.inr herr), hend.ck_eq (.inr herr), hend.cl_eq (.inr herr)⟩

/-- Settles O45: a command that has ended has faulted or owes a response, and these 19 respond with `OK`
(`mayRaise_eq_false_iff`). -/
theorem commandsThatRaiseNoError : Obligations.CommandsThatRaiseNoError := by
  intro i s t hi h hcur
  rcases exec_ends i s t h with ⟨c, q, rfl, -, -⟩ | ⟨q, c, before, rest, -, -, rfl⟩ |
    ⟨q, e, r, p, tt, ck, cl, rest, hend⟩
  · cases hcur
  · exact .inr ⟨_, rfl, rfl⟩
  · rw [hend.state_eq]
    exact .inl ⟨⟨e, r⟩, rfl, hend.no_error ((mayRaise_eq_false_iff i).mpr hi)⟩

/-! ## The halted block -/

/-- A block that is busy with no command in progress and owes no output has no move (R250, U22). -/
theorem step_halted {s : State} (hdout : s.dout = []) (hrsp : s.rsp = none) (hcur : s.cur = none) (hbusy : s.busy = true) :
    step s = .fault .halted := by
  simp [step_input hdout hrsp, inputStep, hcur, hbusy]

/-- Once the response of a fault has been delivered, the block has halted (R250). -/
theorem step_delivered_of_fault {s : State} (hcur : s.cur = none) (hfault : s.fault ≠ none) (q : Seq) (y : Response) :
    step (s.delivered q y) = .fault .halted :=
  step_halted rfl rfl hcur (Option.isSome_iff_ne_none.mpr hfault)

/-! ## Taking a fault -/

/-- The fault code fits the 32 bits of `RES`. -/
theorem toNat_faultRes (c : FaultCode) : (BitVec.ofNat 32 c.code.toNat).toNat = c.code.toNat := by
  cases c <;> rfl

/-- A command leaves a fault that was not there before only by taking it. -/
theorem exec_eq_haltedBy_of_fault {i : Instr} {s t : State} (hs : s.fault = none) (h : exec i s = .next t)
    (ht : t.fault ≠ none) : ∃ q c rest, t = State.haltedBy { s.taken with din := rest } q c := by
  rcases exec_ends i s t h with ⟨c, q, rfl, -, -⟩ | ⟨q, c, before, rest, -, -, ht'⟩ |
    ⟨q, e, r, p, tt, ck, cl, rest, hend⟩
  · exact absurd hs ht
  · exact ⟨q, c, rest, ht'⟩
  · rw [hend.state_eq] at ht
    exact absurd hs ht

/-- Settles O46: the command took the fault (`exec_eq_haltedBy_of_fault`); with no `DOUT` beat owed a step delivers the response
(`step_eq_delivered`), and then the block has halted (`step_delivered_of_fault`). -/
theorem faultEntry : Obligations.FaultEntry := by
  intro i s t hs h ht
  obtain ⟨q, c, rest, rfl⟩ := exec_eq_haltedBy_of_fault hs h ht
  have hfault : (State.haltedBy { s.taken with din := rest } q c).fault = some c := by simp [hs]
  refine ⟨c, _, hfault, rfl, rfl, rfl, rfl, rfl, toNat_faultRes c, rfl, rfl, rfl, rfl, rfl, fun hdout hroom => ?_⟩
  refine ⟨_, step_eq_delivered hdout rfl hroom, hfault, rfl, ?_, rfl, rfl, ?_, rfl, rfl, rfl,
    step_delivered_of_fault rfl ht _ _⟩
  · simp
  · simp [hdout]

/-! ## Until reset -/

/-- A faulted block has no command in progress. -/
theorem State.Inv.cur_of_fault {s : State} (hinv : s.Inv) (hfault : s.fault ≠ none) : s.cur = none :=
  by_contra fun hcur => hfault (hinv.one_end hcur).2

/-- A faulted block owes no `DOUT` beat: a packet comes only before the response `OK`. -/
theorem State.Inv.dout_of_fault {s : State} (hinv : s.Inv) (hfault : s.fault ≠ none) : s.dout = [] :=
  by_contra fun hdout => by
    obtain ⟨y, hy, hok⟩ := hinv.dout_ok hdout
    have hfaulted : y.err = .faulted := (hinv.fault_rsp y hy).mpr hfault
    exact nomatch hok.symm.trans hfaulted

/-- A faulted block is busy. -/
theorem State.Inv.busy_of_fault {s : State} (hinv : s.Inv) (hfault : s.fault ≠ none) : s.busy = true := by
  rw [hinv.busy_eq, Option.isSome_iff_ne_none.mpr hfault, Bool.or_true]

/-- The only step of a faulted block delivers the response it owes. -/
theorem State.Inv.step_of_fault {s t : State} (hinv : s.Inv) (hfault : s.fault ≠ none) (h : step s = .next t) :
    ∃ q y, s.rsp = some y ∧ t = s.delivered q y := by
  have hdout := hinv.dout_of_fault hfault
  rcases step_cases h with ⟨b, bs, hd, -, -⟩ | ⟨y, -, hy, -, rfl⟩ | ⟨c, -, -, hcur, -, -⟩ | ⟨w, rest, hidle, -, -⟩
  · exact nomatch hdout.symm.trans hd
  · exact ⟨_, y, hy, moveRsp_eq_delivered y hdout⟩
  · exact nomatch (hinv.cur_of_fault hfault).symm.trans hcur
  · exact nomatch (hinv.busy_of_fault hfault).symm.trans hidle.busy_eq

/-- Settles O6: by the invariant a faulted block is busy with no command and no `DOUT` beat, so its one step delivers the response
(`State.Inv.step_of_fault`), and with none owed it has halted (`step_halted`). -/
theorem faultedBlockHaltsUntilReset : Obligations.FaultedBlockHaltsUntilReset := by
  intro s hinv hfault
  have hcur := hinv.cur_of_fault hfault
  refine ⟨fun hrsp => step_halted (hinv.dout_of_fault hfault) hrsp hcur (hinv.busy_of_fault hfault), fun t h => ?_,
    rfl, ⟨rfl, rfl, rfl, rfl⟩, rfl⟩
  obtain ⟨q, y, hy, rfl⟩ := hinv.step_of_fault hfault h
  exact ⟨by simp [hy], rfl, rfl, rfl, Option.isSome_iff_ne_none.mpr hfault, rfl, rfl, rfl,
    step_delivered_of_fault hcur hfault q y⟩

end Sys2Proof.Machine

/-! PROOFS. The statements of 70_reset_and_hazards.md: which steps are stuck, and on what (R285), and what a reset in the middle of
a command's output leaves (R281). -/

namespace Sys2Proof.Machine

/-! ## Stuck states -/

/-- Every command has a meaning in every state (30_encoding.md R92): no arm of `exec` is a stuck state or a refusal. -/
theorem exec_eq_next (i : Instr) (s : State) : ∃ t, exec i s = .next t := by
  cases i <;> exact ⟨_, rfl⟩

/-- What `s` waits for when its step is stuck for the reason `why` (R285, 60_exceptions.md R250; log 11). -/
def State.StuckIn (s : State) : Fault → Prop
  | .waitingForDout => s.dout ≠ [] ∧ s.doutRoom = 0
  | .waitingForRsp => s.dout = [] ∧ s.rsp ≠ none ∧ s.rspRoom = 0
  | .waitingForDin => s.dout = [] ∧ s.rsp = none ∧ s.cur ≠ none ∧ s.din = []
  | .waitingForCmd => s.dout = [] ∧ s.rsp = none ∧ s.cur = none ∧ s.busy = false ∧ s.cmd = []
  | .halted => s.dout = [] ∧ s.rsp = none ∧ s.cur = none ∧ s.busy = true

/-- Each of the five conditions stops the step. -/
theorem State.StuckIn.step_eq {s : State} {why : Fault} (h : s.StuckIn why) : step s = .fault why := by
  cases why with
  | waitingForDout =>
    obtain ⟨hdout, hroom⟩ := h
    obtain ⟨b, bs, hd⟩ := List.exists_cons_of_ne_nil hdout
    rw [step_dout hd, if_pos hroom]
  | waitingForRsp =>
    obtain ⟨hdout, hrsp, hroom⟩ := h
    obtain ⟨y, hy⟩ := Option.ne_none_iff_exists'.mp hrsp
    rw [step_rsp hdout hy, if_pos hroom]
  | waitingForDin =>
    obtain ⟨hdout, hrsp, hcur, hdin⟩ := h
    obtain ⟨c, hc⟩ := Option.ne_none_iff_exists'.mp hcur
    simp [step_input hdout hrsp, inputStep, hc, hdin]
  | waitingForCmd =>
    obtain ⟨hdout, hrsp, hcur, hbusy, hcmd⟩ := h
    simp [step_input hdout hrsp, inputStep, hcur, hbusy, hcmd]
  | halted =>
    obtain ⟨hdout, hrsp, hcur, hbusy⟩ := h
    exact step_halted hdout hrsp hcur hbusy

/-- A PCC that can take a command word has a next state, whatever the word (30_encoding.md R92, R93). -/
theorem step_next_of_idle {s : State} {w : CmdWord} {rest : List CmdWord} (hidle : s.Idle) (hcmd : s.cmd = w :: rest) :
    ∃ t, step s = .next t := by
  rw [step_idle hidle hcmd]
  cases decode w with
  | ok i => exact exec_eq_next i _
  | error why => exact ⟨_, rfl⟩

/-- In every state one of the five conditions holds or the step has a next state: the case split of `codecStep`. -/
theorem stuckIn_or_step_next (s : State) : (∃ why, s.StuckIn why) ∨ ∃ t, step s = .next t := by
  cases hdout : s.dout with
  | cons b bs =>
    rcases Nat.eq_zero_or_pos s.doutRoom with hroom | hroom
    · exact .inl ⟨.waitingForDout, by simp [hdout], hroom⟩
    · exact .inr ⟨_, step_eq_moveDout hdout hroom⟩
  | nil =>
    cases hrsp : s.rsp with
    | some y =>
      rcases Nat.eq_zero_or_pos s.rspRoom with hroom | hroom
      · exact .inl ⟨.waitingForRsp, hdout, by simp [hrsp], hroom⟩
      · exact .inr ⟨_, step_eq_delivered hdout hrsp hroom⟩
    | none =>
      cases hcur : s.cur with
      | some c =>
        rcases eq_or_ne s.din [] with hdin | hdin
        · exact .inl ⟨.waitingForDin, hdout, hrsp, by simp [hcur], hdin⟩
        · exact .inr ⟨_, step_resume hdout hrsp hcur hdin⟩
      | none =>
        cases hbusy : s.busy with
        | true => exact .inl ⟨.halted, hdout, hrsp, hcur, hbusy⟩
        | false =>
          cases hcmd : s.cmd with
          | nil => exact .inl ⟨.waitingForCmd, hdout, hrsp, hcur, hbusy, hcmd⟩
          | cons w rest => exact .inr (step_next_of_idle ⟨hcur, hdout, hrsp, hbusy⟩ hcmd)

/-- A step is stuck for a reason exactly when the condition of that reason holds. -/
theorem step_eq_fault_iff (s : State) (why : Fault) : step s = .fault why ↔ s.StuckIn why := by
  refine ⟨fun h => ?_, State.StuckIn.step_eq⟩
  rcases stuckIn_or_step_next s with ⟨why', hstuck⟩ | ⟨t, hnext⟩
  · cases h.symm.trans hstuck.step_eq
    exact hstuck
  · cases h.symm.trans hnext

/-- Settles O7: the five equivalences are `step_eq_fault_iff`, and a step that is not stuck has a next state
(`stuckIn_or_step_next`). -/
theorem whichStuckStateAStepIsIn : Obligations.WhichStuckStateAStepIsIn := fun s =>
  ⟨step_eq_fault_iff s .waitingForDout, step_eq_fault_iff s .waitingForRsp, step_eq_fault_iff s .waitingForDin,
    step_eq_fault_iff s .waitingForCmd, step_eq_fault_iff s .halted,
    fun hnot => (stuckIn_or_step_next s).resolve_left fun ⟨why, hstuck⟩ => hnot ⟨why, hstuck.step_eq⟩⟩

/-! ## Output cut short -/

/-- As many steps as there are owed `DOUT` beats, or fewer, move that many of them, in order (00_scope.md R6; log 8). -/
theorem reaches_moves_dout {k : Nat} {t u : State} (hk : k ≤ t.dout.length) (hreach : Reaches k t u) :
    u.out = t.out ++ (t.dout.take k).map .dout ∧ u.dout = t.dout.drop k := by
  induction k generalizing t with
  | zero => rw [show t = u from hreach]; simp
  | succ k ih =>
    obtain ⟨v, hstep, hreach⟩ := hreach
    obtain ⟨b, bs, hd⟩ := List.exists_cons_of_ne_nil (List.ne_nil_of_length_pos (Nat.zero_lt_of_lt hk))
    rw [step_dout hd] at hstep
    split at hstep
    · cases hstep
    · cases hstep
      obtain ⟨hout, hdout⟩ := ih (t := moveDout b bs t) (by simpa [hd] using hk) hreach
      simp [hout, hdout, hd]

/-- Only the final beat of an emitted packet has `last` (00_scope.md R6). -/
theorem last_eq_false_of_mem_dropLast {p : List Byte} {b : Beat} (h : b ∈ (packetBeats p).dropLast) : b.last = false := by
  rcases eq_or_ne p [] with rfl | hp
  · cases h
  · rw [packetBeats_eq_byteBeats hp, byteBeats_ne_nil hp, List.dropLast_concat, List.mem_map] at h
    obtain ⟨x, -, rfl⟩ := h
    rfl

/-- The beats of a packet before a beat that is still to come are not last. -/
theorem last_eq_false_of_mem_take {p : List Byte} {k : Nat} (hmore : (packetBeats p).drop k ≠ []) {b : Beat}
    (h : b ∈ (packetBeats p).take k) : b.last = false := by
  have hk : k ≤ (packetBeats p).length - 1 := Nat.le_sub_one_of_lt (by simpa using hmore)
  refine last_eq_false_of_mem_dropLast (p := p) ?_
  rw [List.dropLast_eq_take]
  exact List.take_subset_take_left _ hk h

/-- A command of a PCC that owes no `DOUT` beat owes none afterwards, or exactly one packet (R7). -/
theorem exec_dout {i : Instr} {s t : State} (h : exec i s = .next t) (hdout : s.dout = []) :
    t.dout = [] ∨ ∃ p, t.dout = packetBeats p := by
  rcases exec_waits_or_owes_response h with ⟨-, hsame, -⟩ | ⟨-, y, -, hsame | ⟨-, p, hpacket⟩⟩
  · exact .inl (hsame.trans hdout)
  · exact .inl (hsame.trans hdout)
  · exact .inr ⟨p, by rw [hpacket, hdout, List.nil_append]⟩

/-- Settles O59: the command itself moves nothing (`exec_moves_nothing`), the steps move a part of its one packet
(`reaches_moves_dout`, `exec_dout`), and `rst` drops the rest; the `last` beat is in the rest (`last_eq_false_of_mem_take`). -/
theorem resetAbandonsTheCommand : Obligations.ResetAbandonsTheCommand := by
  intro i s t u moved h hdout hmoved hreach
  obtain ⟨htout, -⟩ := exec_moves_nothing h
  obtain ⟨huout, hudout⟩ := reaches_moves_dout hmoved hreach
  refine ⟨rfl, rfl, rfl, rfl, rfl, rfl, t.dout.take moved, ?_, List.length_take_of_le hmoved, fun hmore b hb => ?_⟩
  · rw [State.rst_out, huout, htout]
  · rw [hudout] at hmore
    rcases exec_dout h hdout with hnone | ⟨p, hpacket⟩
    · simp [hnone] at hmore
    · rw [hpacket] at hmore hb
      exact last_eq_false_of_mem_take hmore hb

end Sys2Proof.Machine

/-! PROOFS. How a command runs: one that takes a packet, as its start, its effect per byte and its end; and how any command ends,
whatever the sequencer held before it. Then the statements that follow from it: a command waits for the beats that have not come,
late beats have the effect they would have had at once (70_reset_and_hazards.md R284, R285), and the sequencer is dead between
commands (10_state.md R20, R29). -/

namespace Sys2Proof.Machine

/-! ## Start, byte, end -/

/-- What one byte of its packet does in a command that takes one (40_crc.md R113, 41_typetag.md R135, 42_chunk.md R165, R170,
43_container.md R211). -/
def Consumer.byteStep (cfg : Config) : Consumer → ByteStep
  | .crcGen | .crcVfy _ => crcFeed cfg
  | .ttParse | .ctRemove | .ctFind => textFeed
  | .chNew _ => chNewByte cfg
  | .chDes => recordByte cfg chDesAccept
  | .ctDes => ctDesByte cfg

/-- What the command does when its packet has ended. -/
def Consumer.finish : Consumer → State → State
  | .crcGen => crcGenDone
  | .crcVfy expected => crcVfyDone expected
  | .ttParse => ttParseDone
  | .chNew t => chNewDone t
  | .chDes => chDesDone
  | .ctRemove => ctRemoveDone
  | .ctFind => ctFindDone
  | .ctDes => ctDesDone

/-- The sequencer registers when the command starts: those it uses are written (10_state.md R29). -/
def Consumer.start (cfg : Config) (q : Seq) : Consumer → Seq
  | .crcGen | .crcVfy _ => { q with pos := 0, crcR := cfg.crcInit }
  | .ttParse | .ctRemove | .ctFind => { q with pos := 0, txt := .len0 }
  | .chNew t => { q with pos := 0, stage := [], crcR := crcFold cfg cfg.crcInit t.toList }
  | .chDes => chDesStart q
  | .ctDes => ctDesStart q

/-- The command can read the object registers it needs before it takes a beat (42_chunk.md R169, 43_container.md R219). -/
def Consumer.Reads (s : State) : Consumer → Prop
  | .chNew t => s.tt = some (.len4 t)
  | .ctRemove | .ctFind => s.cl ≠ none
  | .crcGen | .crcVfy _ | .ttParse | .chDes | .ctDes => True

theorem resume_eq_runPacket (c : Consumer) (s : State) : resume c s = runPacket c (c.byteStep s.cfg) c.finish s := by
  cases c <;> rfl

/-- `s` once the command has started: its word is taken, and the sequencer is ready for the packet. -/
def Consumer.started (s : State) (c : Consumer) : State := { cmdTaken s with seq := c.start s.cfg s.seq }

/-- A command that can read what it needs starts, and takes the beats that are there. -/
theorem exec_eq_resume {c : Consumer} {s : State} (h : c.Reads s) : exec c.instr s = .next (resume c (c.started s)) := by
  cases c with
  | chNew t => exact congrArg _ (needFour_some h _)
  | ctRemove | ctFind =>
    obtain ⟨l, hl⟩ := Option.ne_none_iff_exists'.mp h
    exact congrArg _ (needList_some hl _)
  | crcGen | crcVfy | ttParse | chDes | ctDes => rfl

/-! ## Valid lists (10_state.md R23, R24) -/

/-- An entry of a valid list is a valid chunk value. -/
theorem ListValid.getElem? {cfg : Config} {l : List Chunk} (h : ListValid cfg l) (k : Nat) :
    ∀ c, l[k]? = some c → c.Valid cfg :=
  fun c hc => h.2 c (List.mem_of_getElem? hc)

/-- A list cut down holds valid chunk values, and no more of them. -/
theorem ListValid.of_sublist {cfg : Config} {l l' : List Chunk} (h : ListValid cfg l) (hsub : l'.Sublist l) :
    ListValid cfg l' :=
  ⟨hsub.length_le.trans h.1, fun c hc => h.2 c (hsub.subset hc)⟩

/-- A list with room takes one more valid chunk value. -/
theorem ListValid.append {cfg : Config} {l : List Chunk} {c : Chunk} (h : ListValid cfg l) (hc : c.Valid cfg)
    (hroom : l.length ≠ cfg.chunksMax.toNat) : ListValid cfg (l ++ [c]) := by
  obtain ⟨hlen, hall⟩ := h
  refine ⟨by rw [List.length_append, List.length_singleton]; omega, fun d hd => ?_⟩
  obtain hd | hd := List.mem_append.mp hd
  · exact hall d hd
  · exact List.mem_singleton.mp hd ▸ hc

/-! ## How a command ends -/

/-- What a command answers when it does not fault: its response, the packet it emits, and what the object registers hold then. -/
structure Reply where
  err : ErrCode
  res : Word
  packet : Option (List Byte)
  tt : Option TypeTag
  ck : Option Chunk
  cl : Option (List Chunk)

/-- `s` after the command in progress has ended, in a fault or in a response, with the sequencer at `q`. -/
def State.ended (s : State) (q : Seq) : Except FaultCode Reply → State
  | .error code => s.haltedBy q code
  | .ok y => State.replying { s with tt := y.tt, ck := y.ck, cl := y.cl } q y.err y.res y.packet

theorem ended_cur (s : State) (q : Seq) (a : Except FaultCode Reply) : (s.ended q a).cur = none := by
  cases a <;> rfl

/-- Every chunk value in `CK` and `CL` is valid, and the list is within `CHUNKS_MAX` (10_state.md R23, R24). -/
def ObjectsValid (cfg : Config) (ck : Option Chunk) (cl : Option (List Chunk)) : Prop :=
  (∀ c, ck = some c → c.Valid cfg) ∧ ∀ l, cl = some l → ListValid cfg l

/-- What an answer keeps: the chunk values stay valid, and an error changes no object register and emits nothing (60_exceptions.md
R248). -/
structure Reply.Sound (s : State) (y : Reply) : Prop where
  not_faulted : y.err ≠ .faulted
  valid : ObjectsValid s.cfg s.ck s.cl → ObjectsValid s.cfg y.ck y.cl
  kept : y.err ≠ .ok → y.packet = none ∧ y.tt = s.tt ∧ y.ck = s.ck ∧ y.cl = s.cl

/-- The answer `(e, r)` with the packet `p`, no object register changed. -/
def State.reply (s : State) (e : ErrCode) (r : Word) (p : Option (List Byte)) : Reply := ⟨e, r, p, s.tt, s.ck, s.cl⟩

theorem sound_ok (s : State) (r : Word) (p : Option (List Byte)) : (s.reply .ok r p).Sound s :=
  ⟨nofun, id, fun h => absurd rfl h⟩

theorem sound_error (s : State) {e : ErrCode} (r : Word) (he : e ≠ .faulted) : (s.reply e r none).Sound s :=
  ⟨he, id, fun _ => ⟨rfl, rfl, rfl, rfl⟩⟩

/-- An answer `OK` that writes object registers. -/
theorem sound_write {s : State} {r : Word} {tt : Option TypeTag} {ck : Option Chunk} {cl : Option (List Chunk)}
    (h : ObjectsValid s.cfg s.ck s.cl → ObjectsValid s.cfg ck cl) : Reply.Sound s ⟨.ok, r, none, tt, ck, cl⟩ :=
  ⟨nofun, h, fun h => absurd rfl h⟩

/-! ## Commands that end at once -/

/-- A run, as a function of what the sequencer registers hold at its start: whatever that is, it ends from `s` with one answer,
which is sound, and keeps the shadow list. -/
def AnswersAlike (s : State) (run : Seq → State) : Prop :=
  ∃ a : Except FaultCode Reply, (∀ y, a = .ok y → y.Sound s) ∧ ∀ q, ∃ q', q'.sl = q.sl ∧ run q = s.ended q' a

theorem answersAlike_fault {s : State} {run : Seq → State} {code : FaultCode} (h : ∀ q, run q = s.haltedBy q code) :
    AnswersAlike s run :=
  ⟨.error code, nofun, fun q => ⟨q, rfl, h q⟩⟩

theorem answersAlike_reply {s : State} {run : Seq → State} {y : Reply} (hy : y.Sound s)
    (h : ∀ q, ∃ q', q'.sl = q.sl ∧ run q = s.ended q' (.ok y)) : AnswersAlike s run :=
  ⟨.ok y, fun _ heq => Except.ok.inj heq ▸ hy, h⟩

theorem AnswersAlike.of_eq {s : State} {run run' : Seq → State} (h : AnswersAlike s run) (heq : ∀ q, run' q = run q) :
    AnswersAlike s run' :=
  (funext heq : run' = run) ▸ h

section
variable {s : State}

/-- A command that reads `TT` and goes on. -/
theorem answersAlike_needTag {k : Seq → TypeTag → State} (h : ∀ x, AnswersAlike s.taken fun q => k q x) :
    AnswersAlike s.taken fun q => needTag (cmdTaken { s with seq := q }) (k q) := by
  obtain htt | ⟨x, htt⟩ := Option.eq_none_or_eq_some s.tt
  · exact answersAlike_fault fun q => needTag_none (s := { s with seq := q }) htt _
  · exact (h x).of_eq fun q => needTag_some (s := { s with seq := q }) htt _

/-- A command that reads the four tag bytes and goes on. -/
theorem answersAlike_needFour {k : Seq → Tag → State} (h : ∀ t, AnswersAlike s.taken fun q => k q t) :
    AnswersAlike s.taken fun q => needFour (cmdTaken { s with seq := q }) (k q) :=
  answersAlike_needTag fun x => by
    cases hfour : x.four with
    | none => exact answersAlike_fault fun q => takeFault_cmdTaken .tagLen { s with seq := q }
    | some t => exact h t

/-- A command that reads `CK` and goes on. -/
theorem answersAlike_needChunk {k : Seq → Chunk → State} (h : ∀ c, s.ck = some c → AnswersAlike s.taken fun q => k q c) :
    AnswersAlike s.taken fun q => needChunk (cmdTaken { s with seq := q }) (k q) := by
  obtain hck | ⟨c, hck⟩ := Option.eq_none_or_eq_some s.ck
  · exact answersAlike_fault fun q => needChunk_none (s := { s with seq := q }) hck _
  · exact (h c hck).of_eq fun q => needChunk_some (s := { s with seq := q }) hck _

/-- A command that reads `CL` and goes on. -/
theorem answersAlike_needList {k : Seq → List Chunk → State}
    (h : ∀ l, s.cl = some l → AnswersAlike s.taken fun q => k q l) :
    AnswersAlike s.taken fun q => needList (cmdTaken { s with seq := q }) (k q) := by
  obtain hcl | ⟨l, hcl⟩ := Option.eq_none_or_eq_some s.cl
  · exact answersAlike_fault fun q => needList_none (s := { s with seq := q }) hcl _
  · exact (h l hcl).of_eq fun q => needList_some (s := { s with seq := q }) hcl _

/-- A command that answers `OK` without a packet and changes nothing else. -/
theorem answersAlike_respond (r : Word) : AnswersAlike s.taken fun q => respond .ok r (cmdTaken { s with seq := q }) :=
  answersAlike_reply (sound_ok _ r none) fun q => ⟨q, rfl, rfl⟩

/-- A command that answers an error. -/
theorem answersAlike_error {e : ErrCode} (r : Word) (he : e ≠ .faulted) :
    AnswersAlike s.taken fun q => respond e r (cmdTaken { s with seq := q }) :=
  answersAlike_reply (sound_error _ r he) fun q => ⟨q, rfl, rfl⟩

/-- A command that emits the packet `p`. -/
theorem answersAlike_emitPacket (p : List Byte) :
    AnswersAlike s.taken fun q => respond .ok 0 (emitPacket p (cmdTaken { s with seq := q })) :=
  answersAlike_reply (sound_ok _ 0 (some p)) fun q => ⟨{ q with plan := [] }, rfl, rfl⟩

/-- A command that writes object registers. -/
theorem answersAlike_write {r : Word} {tt : Option TypeTag} {ck : Option Chunk} {cl : Option (List Chunk)}
    (h : ObjectsValid s.cfg s.ck s.cl → ObjectsValid s.cfg ck cl) :
    AnswersAlike s.taken fun q =>
      respond .ok r { cmdTaken { s with seq := q } with tt := tt, ck := ck, cl := cl } :=
  answersAlike_reply (sound_write h) fun q => ⟨q, rfl, rfl⟩

/-- A command can read what it needs and takes a packet, or it ends at once with an answer that no sequencer register decides. -/
theorem reads_or_answersAlike (i : Instr) (s : State) :
    (∃ c : Consumer, c.instr = i ∧ c.Reads s) ∨
      ∃ run, (∀ q, exec i { s with seq := q } = .next (run q)) ∧ AnswersAlike s.taken run := by
  cases i with
  | crcGen => exact .inl ⟨.crcGen, rfl, trivial⟩
  | crcVfy expected => exact .inl ⟨.crcVfy expected, rfl, trivial⟩
  | ttParse => exact .inl ⟨.ttParse, rfl, trivial⟩
  | chDes => exact .inl ⟨.chDes, rfl, trivial⟩
  | ctDes => exact .inl ⟨.ctDes, rfl, trivial⟩
  | chNew =>
    obtain htt | ⟨x, htt⟩ := Option.eq_none_or_eq_some s.tt
    · exact .inr ⟨_, fun q => tagReadersFault.1 { s with seq := q } .chNew (by simp) htt, answersAlike_fault fun _ => rfl⟩
    · cases hfour : x.four with
      | none =>
        exact .inr ⟨_, fun q => tagReadersFault.2 { s with seq := q } x .chNew (by simp) htt ((four_eq_none_iff x).mp hfour),
          answersAlike_fault fun _ => rfl⟩
      | some t => exact .inl ⟨.chNew t, rfl, htt.trans (congrArg some ((four_eq_some_iff x t).mp hfour))⟩
  | ctRemove =>
    obtain hcl | ⟨l, hcl⟩ := Option.eq_none_or_eq_some s.cl
    · exact .inr ⟨_, fun q => listReadersFault { s with seq := q } .ctRemove (.inl (by simp)) hcl,
        answersAlike_fault fun _ => rfl⟩
    · exact .inl ⟨.ctRemove, rfl, Option.ne_none_iff_exists'.mpr ⟨l, hcl⟩⟩
  | ctFind =>
    obtain hcl | ⟨l, hcl⟩ := Option.eq_none_or_eq_some s.cl
    · exact .inr ⟨_, fun q => listReadersFault { s with seq := q } .ctFind (.inl (by simp)) hcl,
        answersAlike_fault fun _ => rfl⟩
    · exact .inl ⟨.ctFind, rfl, Option.ne_none_iff_exists'.mpr ⟨l, hcl⟩⟩
  | ttParseb tag =>
    refine .inr ⟨_, fun q => rfl, ?_⟩
    by_cases htext : utf8Ok tag.toList = true
    · simp only [htext, if_true]
      exact answersAlike_write id
    · simp only [htext]
      exact answersAlike_error 0 nofun
  | ttBytes | ttCrit | ttPub | ttSafe =>
    exact .inr ⟨_, fun q => rfl, answersAlike_needFour fun _ => answersAlike_respond _⟩
  | ttRsvd =>
    exact .inr ⟨_, fun q => rfl, answersAlike_needFour fun t =>
      answersAlike_respond (truth (reservedOk s.cfg.rsvdExpect t))⟩
  | ttValid => exact .inr ⟨_, fun q => rfl, answersAlike_needTag fun _ => answersAlike_respond _⟩
  | ttDisp => exact .inr ⟨_, fun q => rfl, answersAlike_needFour fun t => answersAlike_emitPacket t.toList⟩
  | chLen => exact .inr ⟨_, fun q => rfl, answersAlike_needChunk fun c _ => answersAlike_respond _⟩
  | chType => exact .inr ⟨_, fun q => rfl, answersAlike_needChunk fun c _ => answersAlike_write id⟩
  | chData => exact .inr ⟨_, fun q => rfl, answersAlike_needChunk fun c _ => answersAlike_emitPacket c.data⟩
  | chCrc =>
    exact .inr ⟨_, fun q => rfl, answersAlike_needChunk fun c _ =>
      answersAlike_reply (sound_ok _ (crc32 s.cfg (c.tag.toList ++ c.data)) none) fun q =>
        ⟨{ q with crcR := crcFold s.cfg s.cfg.crcInit (c.tag.toList ++ c.data) }, rfl, rfl⟩⟩
  | chStr =>
    refine .inr ⟨_, fun q => rfl, answersAlike_needChunk fun c _ => ?_⟩
    by_cases htext : utf8Ok c.data = true
    · simp only [htext, if_true]
      exact answersAlike_emitPacket c.data
    · simp only [htext]
      exact answersAlike_error 0 nofun
  | chSer =>
    exact .inr ⟨_, fun q => rfl, answersAlike_needChunk fun c _ =>
      answersAlike_reply (sound_ok _ 0 (some (serChunk c))) fun q => chSer_replying c (cmdTaken { s with seq := q })⟩
  | ctFrom =>
    exact .inr ⟨_, fun q => rfl, answersAlike_write fun h => ⟨h.1, fun l hl => Option.some.inj hl ▸ ⟨Nat.zero_le _, nofun⟩⟩⟩
  | ctAppend =>
    refine .inr ⟨_, fun q => rfl, answersAlike_needList fun l hl => answersAlike_needChunk fun c hc => ?_⟩
    by_cases hfull : l.length = s.cfg.chunksMax.toNat
    · simp only [hfull, if_true]
      exact answersAlike_fault fun q => takeFault_cmdTaken .capacity { s with seq := q }
    · simp only [hfull, if_false]
      exact answersAlike_write fun h => ⟨nofun, fun l' hl' => by
        cases hl'
        exact (h.2 l hl).append (h.1 c hc) hfull⟩
  | ctChunks k =>
    refine .inr ⟨_, fun q => rfl, answersAlike_needList fun l hl => ?_⟩
    by_cases hk : k < l.length
    · simp only [hk, if_true]
      exact answersAlike_write fun h => ⟨(h.2 l hl).getElem? k, h.2⟩
    · simp only [hk, if_false]
      exact answersAlike_error _ nofun
  | ctSer =>
    exact .inr ⟨_, fun q => rfl, answersAlike_needList fun l _ =>
      answersAlike_reply (sound_ok _ 0 (some (ctSer s.cfg l))) fun q => ctSer_replying l (cmdTaken { s with seq := q })⟩

end

/-! ## The end of a packet -/

/-- The sequencer registers that the end of the command looks at are the same. -/
def Consumer.EndsAlike (q q' : Seq) : Consumer → Prop
  | .crcGen | .crcVfy _ => q.crcR = q'.crcR
  | .ttParse | .ctRemove | .ctFind => q.txt = q'.txt
  | .chNew _ => q.stage = q'.stage ∧ q.crcR = q'.crcR
  | .chDes => chDesResult q = chDesResult q'
  | .ctDes => ctDesResult q = ctDesResult q'

theorem endsAlike_refl (c : Consumer) (q : Seq) : c.EndsAlike q q := by
  cases c with
  | chNew => exact ⟨rfl, rfl⟩
  | _ => rfl

/-- The sequencer at `q` is as the command `c` needs it to go on with its packet, and the shadow list is valid. -/
def Consumer.InPacket (s : State) (q : Seq) (c : Consumer) : Prop := ListValid s.cfg q.sl ∧ c.Waiting { s with seq := q }

theorem not_inRecord_drain {cfg : Config} {q : Seq} (h : q.ph = .drain) : ¬ q.InRecord cfg := by
  simp [Seq.InRecord, h]

/-- An error that `CH.DES` ends in is no fault (R166). -/
theorem chDesResult_error {s : State} {e : ErrCode} (h : Consumer.chDes.Waiting s) (he : chDesResult s.seq = .error e) :
    e ≠ .faulted := by
  unfold chDesResult at he
  split at he
  · split at he
    · cases he
    · cases he; exact h.1
  · cases he; nofun

/-- A chunk value that `CH.DES` ends in is valid (R23, R166). -/
theorem chDesResult_ok {s : State} {c : Chunk} (h : Consumer.chDes.Waiting s) (hc : chDesResult s.seq = .ok c) :
    c.Valid s.cfg := by
  unfold chDesResult at hc
  split at hc
  · next hdrain =>
    split at hc
    · next hok =>
      cases hc
      exact (h.2.resolve_left (not_inRecord_drain hdrain)).2 hok
    · cases hc
  · cases hc

/-- An error that `CT.DES` ends in is no fault (43_container.md R212). -/
theorem ctDesResult_error {s : State} {e : ErrCode} (h : Consumer.ctDes.Waiting s) (he : ctDesResult s.seq = .error e) :
    e ≠ .faulted := by
  unfold ctDesResult at he
  split at he
  · cases he; nofun
  · next hhdr =>
    split at he
    · next hdrain =>
      cases he
      rcases h with ⟨hph, -⟩ | hrec | ⟨-, -, hperr⟩
      · exact absurd hph hhdr
      · exact absurd hrec (not_inRecord_drain hdrain)
      · exact hperr
    · split at he
      · cases he
      · cases he; nofun

/-- The list that `CT.DES` ends in is the shadow list (43_container.md R212). -/
theorem ctDesResult_ok {q : Seq} {l : List Chunk} (h : ctDesResult q = .ok l) : l = q.sl := by
  unfold ctDesResult at h
  split at h
  · cases h
  · split at h
    · cases h
    · split at h
      · cases h; rfl
      · cases h

/-- The chunk value that `CH.NEW` makes is valid (R170). -/
theorem chNew_valid {s : State} {t : Tag} (h : (Consumer.chNew t).Waiting s) :
    Chunk.Valid s.cfg ⟨BitVec.ofNat 32 s.seq.stage.length, t, s.seq.stage, crcFin s.cfg s.seq.crcR⟩ := by
  obtain ⟨-, hlen, hcrc⟩ := h
  obtain ⟨hnum, -, hmax⟩ := newChunk_valid (t := t) hlen
  exact ⟨hnum, by rw [hcrc]; rfl, hmax⟩

/-- Without a container the search faults (43_container.md R219). -/
theorem ctRemoveDone_unwritten {s : State} (hcl : s.cl = none) : ctRemoveDone s = s.haltedBy s.seq .unwritten := by
  simp only [ctRemoveDone, needList, hcl, takeFault_eq_haltedBy]

theorem ctFindDone_unwritten {s : State} (hcl : s.cl = none) : ctFindDone s = s.haltedBy s.seq .unwritten := by
  simp only [ctFindDone, needList, hcl, takeFault_eq_haltedBy]

/-- `CT.REMOVE` takes the entry with the index of the first match out of the list (R205). -/
theorem ctRemoveDone_match {s : State} {l : List Chunk} {k : Nat} (hcl : s.cl = some l)
    (hmatch : firstMatch s.seq.txt l = some k) :
    ctRemoveDone s = State.replying { s with ck := l[k]?, cl := some (l.eraseIdx k) } s.seq .ok 0 none := by
  simp only [ctRemoveDone, needList, hcl, hmatch, List.eraseIdx_eq_take_drop_succ]
  rfl

/-- `CT.FIND` copies it (R206). -/
theorem ctFindDone_match {s : State} {l : List Chunk} {k : Nat} (hcl : s.cl = some l)
    (hmatch : firstMatch s.seq.txt l = some k) :
    ctFindDone s = State.replying { s with ck := l[k]? } s.seq .ok 1 none := by
  simp only [ctFindDone, needList, hcl, hmatch]
  rfl

/-- The end of the packet of `c` answers in one way, whatever the registers hold that it does not look at and whichever command
was waiting; the answer is sound when the sequencer is consistent, and the shadow list stays. -/
def Consumer.FinishesAlike (s : State) (c : Consumer) : Prop :=
  ∃ a : Except FaultCode Reply, (c.InPacket s s.seq → ∀ y, a = .ok y → y.Sound s) ∧
    ∀ q, c.EndsAlike q s.seq → ∃ q', q'.sl = q.sl ∧ ∀ x, c.finish { s with seq := q, cur := x } = s.ended q' a

theorem finishesAlike_reply {c : Consumer} {s : State} (y : Reply) (hy : c.InPacket s s.seq → y.Sound s)
    (h : ∀ q, c.EndsAlike q s.seq → ∃ q', q'.sl = q.sl ∧ ∀ x, c.finish { s with seq := q, cur := x } = s.ended q' (.ok y)) :
    c.FinishesAlike s :=
  ⟨.ok y, fun hin _ heq => Except.ok.inj heq ▸ hy hin, h⟩

theorem chDes_finishesAlike (s : State) : Consumer.chDes.FinishesAlike s := by
  cases hres : chDesResult s.seq with
  | error e =>
    refine finishesAlike_reply (s.reply e 0 none) (fun hin => sound_error s 0 (chDesResult_error hin.2 hres))
      fun q h => ⟨q, rfl, fun x => ?_⟩
    simp only [Consumer.finish, chDesDone_eq, show chDesResult q = .error e from h.trans hres]
    rfl
  | ok c =>
    refine finishesAlike_reply ⟨.ok, 0, none, s.tt, some c, s.cl⟩ (fun hin => sound_write fun hobj => ⟨fun c' hc' => ?_, hobj.2⟩)
      fun q h => ⟨q, rfl, fun x => ?_⟩
    · exact Option.some.inj hc' ▸ chDesResult_ok hin.2 hres
    · simp only [Consumer.finish, chDesDone_eq, show chDesResult q = .ok c from h.trans hres]
      rfl

theorem ctDes_finishesAlike (s : State) : Consumer.ctDes.FinishesAlike s := by
  cases hres : ctDesResult s.seq with
  | error e =>
    refine finishesAlike_reply (s.reply e 0 none) (fun hin => sound_error s 0 (ctDesResult_error hin.2 hres))
      fun q h => ⟨q, rfl, fun x => ?_⟩
    simp only [Consumer.finish, ctDesDone_eq, show ctDesResult q = .error e from h.trans hres]
    rfl
  | ok l =>
    refine finishesAlike_reply ⟨.ok, 0, none, s.tt, s.ck, some l⟩ (fun hin => sound_write fun hobj => ⟨hobj.1, fun l' hl' => ?_⟩)
      fun q h => ⟨q, rfl, fun x => ?_⟩
    · exact Option.some.inj hl' ▸ ctDesResult_ok hres ▸ hin.1
    · simp only [Consumer.finish, ctDesDone_eq, show ctDesResult q = .ok l from h.trans hres]
      rfl

theorem ctRemove_finishesAlike (s : State) : Consumer.ctRemove.FinishesAlike s := by
  obtain hcl | ⟨l, hcl⟩ := Option.eq_none_or_eq_some s.cl
  · exact ⟨.error .unwritten, fun _ => nofun, fun q _ => ⟨q, rfl, fun _ => ctRemoveDone_unwritten hcl⟩⟩
  obtain hmatch | ⟨k, hmatch⟩ := Option.eq_none_or_eq_some (firstMatch s.seq.txt l)
  · exact finishesAlike_reply (s.reply .notFound 0 none) (fun _ => sound_error s 0 nofun)
      fun q h => ⟨q, rfl, fun _ => ctRemoveDone_none _ l hcl ((show q.txt = s.seq.txt from h) ▸ hmatch)⟩
  · refine finishesAlike_reply ⟨.ok, 0, none, s.tt, l[k]?, some (l.eraseIdx k)⟩ (fun _ => sound_write fun hobj => ?_)
      fun q h => ⟨q, rfl, fun _ => ctRemoveDone_match hcl ((show q.txt = s.seq.txt from h) ▸ hmatch)⟩
    exact ⟨(hobj.2 l hcl).getElem? k, fun l' hl' => Option.some.inj hl' ▸ (hobj.2 l hcl).of_sublist (l.eraseIdx_sublist k)⟩

theorem ctFind_finishesAlike (s : State) : Consumer.ctFind.FinishesAlike s := by
  obtain hcl | ⟨l, hcl⟩ := Option.eq_none_or_eq_some s.cl
  · exact ⟨.error .unwritten, fun _ => nofun, fun q _ => ⟨q, rfl, fun _ => ctFindDone_unwritten hcl⟩⟩
  obtain hmatch | ⟨k, hmatch⟩ := Option.eq_none_or_eq_some (firstMatch s.seq.txt l)
  · exact finishesAlike_reply (s.reply .ok 0 none) (fun _ => sound_ok s 0 none)
      fun q h => ⟨q, rfl, fun _ => ctFindDone_none _ l hcl ((show q.txt = s.seq.txt from h) ▸ hmatch)⟩
  · exact finishesAlike_reply ⟨.ok, 1, none, s.tt, l[k]?, s.cl⟩
      (fun _ => sound_write fun hobj => ⟨(hobj.2 l hcl).getElem? k, hobj.2⟩)
      fun q h => ⟨q, rfl, fun _ => ctFindDone_match hcl ((show q.txt = s.seq.txt from h) ▸ hmatch)⟩

/-- Every packet ends so (40_crc.md R117, R118, 41_typetag.md R135, 42_chunk.md R166, R170, 43_container.md R205, R206, R212). -/
theorem finishesAlike (c : Consumer) (s : State) : c.FinishesAlike s := by
  cases c with
  | crcGen =>
    refine finishesAlike_reply (s.reply .ok (crcFin s.cfg s.seq.crcR) none) (fun _ => sound_ok s _ none)
      fun q h => ⟨q, rfl, fun x => ?_⟩
    rw [← show q.crcR = s.seq.crcR from h]
    rfl
  | crcVfy expected =>
    refine finishesAlike_reply (s.reply (if crcMatch s.cfg s.seq.crcR expected then .ok else .checksumMismatch)
      (crcFin s.cfg s.seq.crcR) none) (fun _ => ?_) fun q h => ⟨{ q with crcX := expected }, rfl, fun x => ?_⟩
    · split
      · exact sound_ok s _ none
      · exact sound_error s _ nofun
    · rw [← show q.crcR = s.seq.crcR from h]
      rfl
  | ttParse =>
    refine finishesAlike_reply ⟨.ok, 0, none, some s.seq.txt, s.ck, s.cl⟩ (fun _ => sound_write id)
      fun q h => ⟨q, rfl, fun x => ?_⟩
    rw [← show q.txt = s.seq.txt from h]
    rfl
  | chNew t =>
    refine finishesAlike_reply ⟨.ok, 0, none, s.tt,
        some ⟨BitVec.ofNat 32 s.seq.stage.length, t, s.seq.stage, crcFin s.cfg s.seq.crcR⟩, s.cl⟩
      (fun hin => sound_write fun hobj => ⟨fun c hc => Option.some.inj hc ▸ chNew_valid hin.2, hobj.2⟩)
      fun q h => ⟨q, rfl, fun x => ?_⟩
    obtain ⟨hstage, hcrc⟩ := h
    rw [← hstage, ← hcrc]
    rfl
  | chDes => exact chDes_finishesAlike s
  | ctRemove => exact ctRemove_finishesAlike s
  | ctFind => exact ctFind_finishesAlike s
  | ctDes => exact ctDes_finishesAlike s

/-! ## Waiting -/

/-- A command that can read what it needs, and finds no fault in the beats there, waits when the last one is not among them. -/
theorem exec_waits {c : Consumer} {s : State} {q : Seq} (hreads : c.Reads s) (hp : firstPacket s.din = none)
    (hrun : byteRun (c.byteStep s.cfg) (availBytes s.din) (c.start s.cfg s.seq) = .ok q) :
    exec c.instr s = .next (s.taken.awaiting q c) := by
  rw [exec_eq_resume hreads, resume_eq_runPacket]
  exact congrArg _ (runPacket_waiting (s := c.started s) hp hrun)

/-- Settles O8: a run over the bytes there raises no fault, so the command waits (`exec_waits`): the CRC unit and the text latch
take any byte, and the others fault only past a capacity (`byteRun_chNewByte`, `byteRun_chunk`, `byteRun_ctDes`). -/
theorem consumingCommandsWaitForTheirPacket : Obligations.ConsumingCommandsWaitForTheirPacket := by
  intro s hp
  refine ⟨⟨_, exec_waits (c := .crcGen) trivial hp (byteRun_crcFeed _ _ _)⟩,
    fun e => ⟨_, exec_waits (c := .crcVfy e) trivial hp (byteRun_crcFeed _ _ _)⟩,
    ⟨_, exec_waits (c := .ttParse) trivial hp (byteRun_textFeed _ _)⟩,
    fun t htt hmax => ⟨_, exec_waits (c := .chNew t) htt hp (byteRun_chNewByte _ _ _ ?_)⟩,
    fun hover => ?_,
    fun hcl => ⟨_, exec_waits (c := .ctRemove) hcl hp (byteRun_textFeed _ _)⟩,
    fun hcl => ⟨_, exec_waits (c := .ctFind) hcl hp (byteRun_textFeed _ _)⟩,
    fun hover => ?_⟩
  · simpa [Consumer.start] using hmax
  · obtain ⟨q, hrun, -⟩ := byteRun_chunk s.cfg _ s.seq hover
    exact ⟨q, exec_waits (c := .chDes) trivial hp hrun⟩
  · obtain ⟨q, hrun, -⟩ := byteRun_ctDes s.seq hover
    exact ⟨q, exec_waits (c := .ctDes) trivial hp hrun⟩

/-! ## Late beats -/

/-- The end of a packet does not look at which command was waiting. -/
theorem finish_cur (c : Consumer) (s : State) (x : Option Consumer) : c.finish { s with cur := x } = c.finish s := by
  obtain ⟨a, -, hends⟩ := finishesAlike c s
  obtain ⟨q, -, hfin⟩ := hends s.seq (endsAlike_refl c s.seq)
  exact (hfin x).trans (hfin s.cur).symm

theorem finish_cur_none (c : Consumer) (s : State) : (c.finish s).cur = none := by
  obtain ⟨a, -, hends⟩ := finishesAlike c s
  obtain ⟨q, -, hfin⟩ := hends s.seq (endsAlike_refl c s.seq)
  exact hfin s.cur ▸ ended_cur s q a

/-- A command that waits has taken all the beats there. -/
theorem resume_of_cur {c : Consumer} {s : State} (h : (resume c s).cur ≠ none) :
    ∃ q, takeBeats (c.byteStep s.cfg) s.din s.seq = .waiting q ∧ resume c s = s.awaiting q c := by
  rw [resume_eq_runPacket] at h ⊢
  rcases runPacket_cases c (c.byteStep s.cfg) c.finish s with
    ⟨q, htaken, hrun⟩ | ⟨q, rest, -, hrun⟩ | ⟨code, q, rest, -, hrun⟩
  · exact ⟨q, htaken, hrun⟩
  · exact absurd (hrun ▸ finish_cur_none c _) h
  · exact absurd (hrun ▸ rfl) h

/-- It goes on with late beats as if they had been there. -/
theorem resume_awaiting {c : Consumer} {s : State} {q : Seq} (late : List Beat)
    (h : takeBeats (c.byteStep s.cfg) s.din s.seq = .waiting q) :
    resume c { s.awaiting q c with din := late } = resume c { s with din := s.din ++ late } := by
  have htaken := takeBeats_append late h
  simp only [resume_eq_runPacket, runPacket, State.awaiting, htaken]
  cases takeBeats (c.byteStep s.cfg) late q with
  | waiting q' => rfl
  | ended q' rest => exact finish_cur c { s with din := rest, seq := q' } (some c)
  | faulted code q' rest => rfl

/-- A command that waits could read what it needs. -/
theorem reads_of_cur {i : Instr} {s t : State} (h : exec i s = .next t) (hcur : t.cur ≠ none) :
    ∃ c : Consumer, c.instr = i ∧ c.Reads s := by
  obtain hreads | ⟨run, hexec, a, -, hends⟩ := reads_or_answersAlike i s
  · exact hreads
  · obtain ⟨q, -, hq⟩ := hends s.seq
    cases h.symm.trans (hexec s.seq)
    exact absurd (hq ▸ ended_cur _ q a) hcur

/-- Settles O9: the command that waits (`reads_of_cur`, `resume_of_cur`) goes on with the late beats in the next step
(`step_resume`) as if they had been there (`resume_awaiting`). -/
theorem lateBeatsGiveTheSameResult : Obligations.LateBeatsGiveTheSameResult := by
  intro i s t early late h hcur hlate hdout hrsp
  obtain ⟨c, rfl, hreads⟩ := reads_of_cur h hcur
  have hreads' : c.Reads { s with din := early ++ late } := by cases c <;> exact hreads
  obtain rfl := Host.Outcome.next.inj ((exec_eq_resume hreads).symm.trans h)
  obtain ⟨q, htaken, hwait⟩ := resume_of_cur hcur
  rw [hwait, exec_eq_resume hreads']
  calc step { (c.started { s with din := early }).awaiting q c with din := late }
      = .next (resume c { (c.started { s with din := early }).awaiting q c with din := late }) :=
        step_resume hdout hrsp rfl hlate
    _ = .next (resume c (c.started { s with din := early ++ late })) := congrArg _ (resume_awaiting late htaken)

/-! ## Runs that the sequencer does not decide (10_state.md R29) -/

/-- Runs over the same bytes from `q` and `q'` fault alike, or end in registers that are related by `R`. -/
def RunsAlike (f : ByteStep) (R : Seq → Seq → Prop) (q q' : Seq) : Prop :=
  ∀ x, (∃ code, byteRun f x q = .error code ∧ byteRun f x q' = .error code) ∨
    ∃ q1 q1', byteRun f x q = .ok q1 ∧ byteRun f x q' = .ok q1' ∧ R q1 q1'

/-- Every register that the end of a packet looks at is written before it is read. -/
theorem start_runsAlike (c : Consumer) (cfg : Config) (q q' : Seq) :
    RunsAlike (c.byteStep cfg) (fun q1 q1' => c.EndsAlike q1 q1') (c.start cfg q) (c.start cfg q') := by
  intro x
  cases c with
  | crcGen | crcVfy => exact .inr ⟨_, _, byteRun_crcFeed _ _ _, byteRun_crcFeed _ _ _, rfl⟩
  | ttParse | ctRemove | ctFind => exact .inr ⟨_, _, byteRun_textFeed _ _, byteRun_textFeed _ _, rfl⟩
  | chNew t =>
    by_cases hmax : x.length ≤ cfg.payloadMax.toNat
    · exact .inr ⟨_, _, byteRun_chNewByte _ _ _ (by simpa [Consumer.start] using hmax),
        byteRun_chNewByte _ _ _ (by simpa [Consumer.start] using hmax), rfl, rfl⟩
    · have hover := Nat.lt_of_not_le hmax
      exact .inl ⟨.capacity, (byteRun_chNewByte_error_iff cfg x rfl).mpr hover,
        (byteRun_chNewByte_error_iff cfg x rfl).mpr hover⟩
  | chDes =>
    cases hover : recordOver cfg x 0 with
    | true =>
      exact .inl ⟨.capacity, (byteRun_chDes_error_iff cfg x q).mpr hover, (byteRun_chDes_error_iff cfg x q').mpr hover⟩
    | false =>
      obtain ⟨q1, hrun, hres⟩ := byteRun_chunk cfg x q hover
      obtain ⟨q1', hrun', hres'⟩ := byteRun_chunk cfg x q' hover
      exact .inr ⟨q1, q1', hrun, hrun', hres.trans hres'.symm⟩
  | ctDes =>
    cases hover : containerOver cfg x with
    | true =>
      exact .inl ⟨.capacity, (byteRun_ctDes_error_iff cfg x q).mpr hover, (byteRun_ctDes_error_iff cfg x q').mpr hover⟩
    | false =>
      obtain ⟨q1, hrun, hres⟩ := byteRun_ctDes q hover
      obtain ⟨q1', hrun', hres'⟩ := byteRun_ctDes q' hover
      exact .inr ⟨q1, q1', hrun, hrun', hres.trans hres'.symm⟩

/-- Runs over the same beats stop at the same beat, for the same reason. -/
theorem takeBeats_alike {f : ByteStep} {R : Seq → Seq → Prop} {q q' : Seq} (h : RunsAlike f R q q') (bs : List Beat) :
    (∃ q1 q1', takeBeats f bs q = .waiting q1 ∧ takeBeats f bs q' = .waiting q1') ∨
    (∃ q1 q1' rest, takeBeats f bs q = .ended q1 rest ∧ takeBeats f bs q' = .ended q1' rest ∧ R q1 q1') ∨
    ∃ code q1 q1' rest, takeBeats f bs q = .faulted code q1 rest ∧ takeBeats f bs q' = .faulted code q1' rest := by
  induction bs generalizing q q' with
  | nil => exact .inl ⟨q, q', rfl, rfl⟩
  | cons b bs ih =>
    simp only [takeBeats, beatStep_eq_byteRun]
    obtain ⟨code, hq, hq'⟩ | ⟨q1, q1', hq, hq', hR⟩ := h b.bytes
    · simp only [hq, hq']
      exact .inr (.inr ⟨code, _, _, bs, rfl, rfl⟩)
    · simp only [hq, hq']
      cases b.last with
      | true => exact .inr (.inl ⟨q1, q1', bs, rfl, rfl, hR⟩)
      | false =>
        refine ih fun x => ?_
        have hx := h (b.bytes ++ x)
        simpa only [byteRun_append, hq, hq'] using hx

/-- The end of the same answer, with the sequencer elsewhere. -/
theorem ended_seq (s : State) (q q' : Seq) (a : Except FaultCode Reply) : { s.ended q a with seq := q' } = s.ended q' a := by
  cases a <;> rfl

/-- What the sequencer held before a command started decides nothing but the sequencer after it. -/
theorem resume_started_alike (c : Consumer) (s : State) (q : Seq) :
    ∃ q', resume c (c.started { s with seq := q }) = { resume c (c.started s) with seq := q' } := by
  simp only [resume_eq_runPacket, runPacket, Consumer.started, cmdTaken_cfg, cmdTaken_din]
  rcases takeBeats_alike (start_runsAlike c s.cfg s.seq q) s.din with
    ⟨q1, q1', hq, hq'⟩ | ⟨q1, q1', rest, hq, hq', halike⟩ | ⟨code, q1, q1', rest, hq, hq'⟩ <;> simp only [hq, hq']
  · exact ⟨q1', rfl⟩
  · obtain ⟨a, -, hends⟩ := finishesAlike c { cmdTaken s with din := rest, seq := q1' }
    obtain ⟨q2, -, hfin⟩ := hends q1 halike
    obtain ⟨q2', -, hfin'⟩ := hends q1' (endsAlike_refl c q1')
    refine ⟨q2', (hfin' s.cur).trans ?_⟩
    rw [← ended_seq _ q2 q2' a, ← hfin s.cur]
    rfl
  · exact ⟨q1', rfl⟩

/-- Settles O52: a command that takes a packet writes each register before it looks at it (`resume_started_alike`), and any other
looks at none (`reads_or_answersAlike`). -/
theorem sequencerIsDeadBetweenCommands : Obligations.SequencerIsDeadBetweenCommands := by
  intro i s t q h
  obtain ⟨c, rfl, hreads⟩ | ⟨run, hexec, a, -, hends⟩ := reads_or_answersAlike i s
  · have hreads' : c.Reads { s with seq := q } := by cases c <;> exact hreads
    obtain rfl := Host.Outcome.next.inj ((exec_eq_resume hreads).symm.trans h)
    obtain ⟨q', hq'⟩ := resume_started_alike c s q
    exact ⟨q', (exec_eq_resume hreads').trans (congrArg _ hq')⟩
  · obtain rfl := Host.Outcome.next.inj ((hexec s.seq).symm.trans h)
    obtain ⟨q1, -, hs⟩ := hends s.seq
    obtain ⟨q2, -, hq⟩ := hends q
    refine ⟨q2, (hexec q).trans ?_⟩
    rw [hs, hq, ended_seq]

end Sys2Proof.Machine

/-! PROOFS. The frame statements: what each group of commands leaves as it was (10_state.md section 2, 20_memory.md R50
to R52). -/

namespace Sys2Proof.Machine

/-! ## What a command keeps -/

/-- What running `i` leaves as it was. -/
structure ExecKeeps (i : Instr) (s t : State) : Prop where
  cfg_eq : t.cfg = s.cfg
  cmd_eq : t.cmd = s.cmd
  fault_eq : t.cur ≠ none ∨ ¬ t.Answers .faulted → t.fault = s.fault ∧ t.flt = s.flt
  din_eq : takesPacket i = false → t.din = s.din
  tt_eq : mayWriteTT i = false → t.tt = s.tt
  ck_eq : mayWriteCK i = false ∨ t.cur ≠ none ∨ ¬ t.Answers .ok → t.ck = s.ck
  cl_eq : mayWriteCL i = false → t.cl = s.cl

/-- A command that waits has written no object register, and one that faults has written `FAULT` alone; one that ends in a
response has written those of its group, and none in an error (60_exceptions.md R248, R250). -/
theorem exec_keeps {i : Instr} {s t : State} (h : exec i s = .next t) : ExecKeeps i s t := by
  rcases exec_ends i s t h with ⟨c, q, rfl, -, htakes⟩ | ⟨q, c, before, rest, -, hrest, rfl⟩ |
    ⟨q, e, r, p, tt, ck, cl, rest, hend⟩
  · exact ⟨rfl, rfl, fun _ => ⟨rfl, rfl⟩, fun hi => (nomatch hi.symm.trans htakes), fun _ => rfl, fun _ => rfl,
      fun _ => rfl⟩
  · exact ⟨rfl, rfl, fun hno => hno.elim (absurd rfl) (absurd ⟨_, rfl, rfl⟩), hrest, fun _ => rfl, fun _ => rfl, fun _ => rfl⟩
  · rw [hend.state_eq]
    exact ⟨rfl, rfl, fun _ => ⟨rfl, rfl⟩, hend.din_eq, fun hi => hend.tt_eq (.inl hi),
      fun hno => hend.ck_eq (hno.imp_right fun hbad he => hbad.elim (absurd rfl) (absurd ⟨_, rfl, he⟩)),
      fun hi => hend.cl_eq (.inl hi)⟩

/-- What a byte of `ROM` and `PB` reads as is decided by the parameters and `CK` (20_memory.md R51, R52). -/
theorem memRead_congr {s t : State} (hcfg : t.cfg = s.cfg) (hck : t.ck = s.ck) (space : Space) (addr : Nat) :
    memRead space addr t = memRead space addr s := by
  cases space <;> simp only [memRead, hcfg, hck]

/-! ## The groups of commands -/

/-- The fifteen commands that write no object register, as the statement lists them. -/
theorem writesNothing_of_reader {i : Instr}
    (h : i ∈ [Instr.crcGen, .ttBytes, .ttValid, .ttCrit, .ttPub, .ttRsvd, .ttSafe, .ttDisp, .chLen, .chData, .chCrc,
      .chStr, .chSer, .ctSer] ∨ ∃ e, i = .crcVfy e) :
    mayWriteTT i = false ∧ mayWriteCK i = false ∧ mayWriteCL i = false := by
  cases i <;> simp_all [mayWriteTT, mayWriteCK, mayWriteCL]

/-- Settles O48: they write none of the three registers (`writesNothing_of_reader`), so each is kept (`exec_keeps`), and with it
what `ROM` and `PB` read as (`memRead_congr`). -/
theorem frameOfReaders : Obligations.FrameOfReaders := by
  intro i s t hi h
  obtain ⟨htt, hck, hcl⟩ := writesNothing_of_reader hi
  have hkeeps := exec_keeps h
  have hck' := hkeeps.ck_eq (.inl hck)
  exact ⟨hkeeps.tt_eq htt, hck', hkeeps.cl_eq hcl, hkeeps.cfg_eq, hkeeps.cmd_eq, hkeeps.fault_eq,
    memRead_congr hkeeps.cfg_eq hck'⟩

/-- The three commands that write `TT`, as the statement lists them. -/
theorem writesOnlyTT {i : Instr} (h : i ∈ [Instr.ttParse, .chType] ∨ ∃ x, i = .ttParseb x) :
    mayWriteCK i = false ∧ mayWriteCL i = false ∧ (i ≠ .ttParse → takesPacket i = false) := by
  cases i <;> simp_all [mayWriteCK, mayWriteCL, takesPacket]

/-- Settles O49: they write `TT` alone, and all but `TT.PARSE` take no packet (`writesOnlyTT`). -/
theorem frameOfTagWriters : Obligations.FrameOfTagWriters := by
  intro i s t hi h
  obtain ⟨hck, hcl, hdin⟩ := writesOnlyTT hi
  have hkeeps := exec_keeps h
  have hck' := hkeeps.ck_eq (.inl hck)
  exact ⟨hck', hkeeps.cl_eq hcl, hkeeps.cfg_eq, hkeeps.cmd_eq, fun hne => hkeeps.din_eq (hdin hne), hkeeps.fault_eq,
    memRead_congr hkeeps.cfg_eq hck'⟩

/-- The six commands that write or empty `CK`, as the statement lists them. -/
theorem writesNoTT {i : Instr}
    (h : i ∈ [Instr.chNew, .chDes, .ctAppend, .ctRemove, .ctFind] ∨ ∃ k, i = .ctChunks k) :
    mayWriteTT i = false ∧ (i ≠ .ctAppend → i ≠ .ctRemove → mayWriteCL i = false) := by
  cases i <;> simp_all [mayWriteTT, mayWriteCL]

/-- Settles O50: they keep `TT`, and all but two keep `CL` (`writesNoTT`); without the answer `OK` they keep `CK` too
(`exec_keeps`), which is what `PB` reads as. -/
theorem frameOfChunkWriters : Obligations.FrameOfChunkWriters := by
  intro i s t hi h
  obtain ⟨htt, hcl⟩ := writesNoTT hi
  have hkeeps := exec_keeps h
  refine ⟨hkeeps.tt_eq htt, hkeeps.cfg_eq, hkeeps.cmd_eq, fun hne hne' => hkeeps.cl_eq (hcl hne hne'), hkeeps.fault_eq,
    fun addr => ?_, fun addr hno => memRead_congr hkeeps.cfg_eq (hkeeps.ck_eq (.inr hno)) .pb addr, fun c hc addr => ?_⟩
  · simp only [memRead, hkeeps.cfg_eq]
  · simp only [memRead, hc]

/-- The two commands that write `CL` and not `CK`. -/
theorem writesOnlyCL {i : Instr} (h : i ∈ [Instr.ctFrom, .ctDes]) :
    mayWriteTT i = false ∧ mayWriteCK i = false ∧ (i = .ctFrom → takesPacket i = false) := by
  cases i <;> simp_all [mayWriteTT, mayWriteCK, takesPacket]

/-- Settles O51: they write `CL` alone, and `CT.FROM` takes no packet (`writesOnlyCL`). -/
theorem frameOfListWriters : Obligations.FrameOfListWriters := by
  intro i s t hi h
  obtain ⟨htt, hck, hdin⟩ := writesOnlyCL hi
  have hkeeps := exec_keeps h
  have hck' := hkeeps.ck_eq (.inl hck)
  exact ⟨hkeeps.tt_eq htt, hck', hkeeps.cfg_eq, hkeeps.cmd_eq, fun heq => hkeeps.din_eq (hdin heq), hkeeps.fault_eq,
    memRead_congr hkeeps.cfg_eq hck'⟩

end Sys2Proof.Machine

/-! PROOFS. The invariant of the machine (10_state.md R23, R24, R26, R34; 60_exceptions.md R248, R250): it holds after reset,
whenever that is (70_reset_and_hazards.md R280), and every step keeps it. -/

namespace Sys2Proof.Machine

/-! ## Reset -/

/-- Right after reset nothing is held, nothing is owed, and the shadow list is empty (R33; the last is log 1). -/
theorem State.rst_inv (s : State) : s.rst.Inv where
  ck_valid := nofun
  cl_valid := nofun
  sl_valid := ⟨Nat.zero_le _, nofun⟩
  flt_eq := rfl
  busy_eq := rfl
  one_end := fun h => absurd rfl h
  dout_ok := fun h => absurd rfl h
  fault_rsp := nofun
  idle_between := fun _ _ => rfl
  waiting := nofun
  held_eq := fun _ => rfl

/-- Settles O54: the state after reset is its own reset (`State.rst_inv`). -/
theorem resetMeetsTheInvariant : Obligations.ResetMeetsTheInvariant := fun cfg => (State.resetWith cfg).rst_inv

/-- A step of an idle PCC takes the first word on `CMD`, whatever it is (00_scope.md R7, 30_encoding.md R93). -/
theorem step_takes_word {s : State} {w : CmdWord} {rest : List CmdWord} (hidle : s.Idle) (hcmd : s.cmd = w :: rest) :
    ∃ t, step s = .next t ∧ t.cmd = rest := by
  rw [step_idle hidle hcmd]
  cases decode w with
  | ok i =>
    obtain ⟨t, ht⟩ := exec_eq_next i { s with cmd := rest }
    exact ⟨t, ht, (exec_keeps ht).cmd_eq⟩
  | error why => exact ⟨_, rfl, rfl⟩

/-- `STATUS` reads 0 right after reset (R33). -/
theorem statusByte_rst (s : State) : statusByte s.rst = 0#8 := by
  obtain ⟨-, -, -, hzero, -⟩ := resetValues
  exact hzero

/-- Settles O58: the registers are those of `State.resetWith`; the invariant holds (`State.rst_inv`), and an idle PCC takes the
next word (`step_takes_word`). -/
theorem resetEmptiesEveryRegister : Obligations.ResetEmptiesEveryRegister := fun s =>
  ⟨rfl, rfl, rfl, statusByte_rst s, rfl, rfl, rfl, rfl, rfl, rfl, rfl, rfl, s.rst_inv,
    fun _ _ hcmd => step_takes_word (s := s.rst) ⟨rfl, rfl, rfl, rfl⟩ hcmd⟩

/-! ## Bytes keep the sequencer consistent (R165, R211) -/

section
variable {cfg : Config} {q : Seq}

theorem inRecord_len (h : q.ph = .len) : q.InRecord cfg ↔ q.idx < 4 := by
  simp only [Seq.InRecord, h]

theorem inRecord_tag (h : q.ph = .tag) :
    q.InRecord cfg ↔ q.idx < 4 ∧ q.crcR = crcFold cfg cfg.crcInit (q.tagr.toList.take q.idx) := by
  simp only [Seq.InRecord, h]

theorem inRecord_pay (h : q.ph = .pay) :
    q.InRecord cfg ↔ q.stage.length + q.rem = q.lenr.toNat ∧ 0 < q.rem ∧ q.stage.length ≤ cfg.payloadMax.toNat ∧
      q.crcR = crcFold cfg cfg.crcInit (q.tagr.toList ++ q.stage) := by
  simp only [Seq.InRecord, h]

theorem inRecord_crc (h : q.ph = .crc) :
    q.InRecord cfg ↔ q.idx < 4 ∧ q.stage.length = q.lenr.toNat ∧ q.stage.length ≤ cfg.payloadMax.toNat ∧
      q.crcR = crcFold cfg cfg.crcInit (q.tagr.toList ++ q.stage) := by
  simp only [Seq.InRecord, h]

/-- Inside a record the phase is one of four. -/
theorem Seq.InRecord.phase (h : q.InRecord cfg) : q.ph = .len ∨ q.ph = .tag ∨ q.ph = .pay ∨ q.ph = .crc := by
  cases hph : q.ph <;> simp_all [Seq.InRecord]

/-- Tag byte `idx` stands after the ones before it. -/
theorem take_set_toList (t : Tag) {idx : Nat} (h : idx < 4) (b : Byte) :
    (t.set idx b).toList.take (idx + 1) = t.toList.take idx ++ [b] := by
  obtain rfl | rfl | rfl | rfl : idx = 0 ∨ idx = 1 ∨ idx = 2 ∨ idx = 3 := by omega
  all_goals rfl

/-- The parser is still inside the record, and nothing has been found or accepted since `q`. -/
structure Seq.StaysInRecord (cfg : Config) (q q' : Seq) : Prop where
  inRecord : q'.InRecord cfg
  sl_eq : q'.sl = q.sl
  perr_eq : q'.perr = q.perr

theorem lenByte_stays (hph : q.ph = .len) (h : q.InRecord cfg) (b : Byte) : q.StaysInRecord cfg (lenByte cfg b q) := by
  have hidx := (inRecord_len hph).mp h
  unfold lenByte
  by_cases hlast : q.idx + 1 = 4
  · simp only [hlast, if_true]
    exact ⟨(inRecord_tag rfl).mpr ⟨Nat.zero_lt_succ 3, rfl⟩, rfl, rfl⟩
  · simp only [hlast, if_false]
    refine ⟨(inRecord_len (by exact hph)).mpr ?_, rfl, rfl⟩
    simp only
    omega

theorem tagByte_stays (hph : q.ph = .tag) (h : q.InRecord cfg) (b : Byte) : q.StaysInRecord cfg (tagByte cfg b q) := by
  obtain ⟨hidx, hcrc⟩ := (inRecord_tag hph).mp h
  have hcrc' : crcByte cfg q.crcR b = crcFold cfg cfg.crcInit ((q.tagr.set q.idx b).toList.take (q.idx + 1)) := by
    rw [take_set_toList q.tagr hidx b, crcFold_snoc, ← hcrc]
  unfold tagByte
  by_cases hlast : q.idx + 1 = 4
  · rw [hlast, List.take_of_length_le (Nat.le_of_eq (Tag.length_toList _))] at hcrc'
    simp only [hlast, if_true]
    refine ⟨?_, rfl, rfl⟩
    by_cases hzero : q.lenr = 0
    · refine (inRecord_crc (if_pos hzero)).mpr ⟨Nat.zero_lt_succ 3, ?_, Nat.zero_le _, ?_⟩
      · simp [hzero]
      · simpa using hcrc'
    · refine (inRecord_pay (if_neg hzero)).mpr ⟨Nat.zero_add _, ?_, Nat.zero_le _, ?_⟩
      · exact Nat.pos_of_ne_zero fun hn => hzero (BitVec.eq_of_toNat_eq hn)
      · simpa using hcrc'
  · simp only [hlast, if_false]
    refine ⟨(inRecord_tag (by exact hph)).mpr ⟨?_, hcrc'⟩, rfl, rfl⟩
    simp only
    omega

theorem payByte_stays {q' : Seq} {b : Byte} (hph : q.ph = .pay) (h : q.InRecord cfg) (hq : payByte cfg b q = .ok q') :
    q.StaysInRecord cfg q' := by
  obtain ⟨hlen, hrem, hmax, hcrc⟩ := (inRecord_pay hph).mp h
  have hcrc' : crcByte cfg q.crcR b = crcFold cfg cfg.crcInit (q.tagr.toList ++ (q.stage ++ [b])) := by
    rw [← List.append_assoc, crcFold_snoc, ← hcrc]
  unfold payByte at hq
  split at hq
  · cases hq
  · next hfull =>
    cases hq
    have hlen' : (q.stage ++ [b]).length = q.stage.length + 1 := List.length_append
    by_cases hlast : q.rem - 1 = 0
    · simp only [hlast, if_true]
      refine ⟨(inRecord_crc rfl).mpr ⟨Nat.zero_lt_succ 3, ?_, ?_, hcrc'⟩, rfl, rfl⟩ <;> simp only [hlen'] <;> omega
    · simp only [hlast, if_false]
      refine ⟨(inRecord_pay (by exact hph)).mpr ⟨?_, ?_, ?_, hcrc'⟩, rfl, rfl⟩ <;> simp only [hlen'] <;> omega

/-- The record has been read and its checksum matches: its value is valid (R23, R165). -/
theorem chunk_valid_of_match (hph : q.ph = .crc) (h : q.InRecord cfg) {x : Word}
    (hmatch : crcMatch cfg q.crcR x = true) : Chunk.Valid cfg ⟨q.lenr, q.tagr, q.stage, x⟩ := by
  obtain ⟨-, hlen, hmax, hcrc⟩ := (inRecord_crc hph).mp h
  rw [hcrc, crcMatch_iff, beq_iff_eq] at hmatch
  exact ⟨hlen.symm, hmatch.symm, hmax⟩

/-- A complete record that is not rejected has a checksum that matches (R163). -/
theorem recordError_none {order : ErrOrder} {matched badTag : Bool} (h : recordError order (!matched) badTag = none) :
    matched = true := by
  cases order <;> cases matched <;> cases badTag <;> simp_all [recordError]

/-- What a byte inside a record can do (R165): the parser stays inside it; or the record is complete, and rejected or handed to
`accept` with a valid value. -/
theorem recordByte_cases {accept : Chunk → Seq → Except FaultCode Seq} {q' : Seq} {b : Byte} (h : q.InRecord cfg)
    (hq : recordByte cfg accept b q = .ok q') :
    q.StaysInRecord cfg q' ∨
    (∃ e, (e = .checksumMismatch ∨ e = .invalidTypeTagEncoding) ∧ q'.ph = .drain ∧ q'.perr = e ∧ q'.sl = q.sl) ∨
    ∃ q1 : Seq, q1.sl = q.sl ∧ q1.perr = q.perr ∧ Chunk.Valid cfg ⟨q1.lenr, q1.tagr, q1.stage, q1.crcX⟩ ∧
      accept ⟨q1.lenr, q1.tagr, q1.stage, q1.crcX⟩ q1 = .ok q' := by
  rcases h.phase with hph | hph | hph | hph <;> simp only [recordByte, hph] at hq
  · exact .inl (Except.ok.inj hq ▸ lenByte_stays hph h b)
  · exact .inl (Except.ok.inj hq ▸ tagByte_stays hph h b)
  · exact .inl (payByte_stays hph h hq)
  · obtain ⟨hidx, hread⟩ := (inRecord_crc hph).mp h
    unfold crcFieldByte at hq
    by_cases hlast : q.idx + 1 = 4
    · simp only [hlast, if_true, recordComplete] at hq
      refine .inr ?_
      split at hq
      · next e he =>
        cases hq
        exact .inl ⟨e, recordError_some he, rfl, rfl, rfl⟩
      · next hnone =>
        exact .inr ⟨{ q with crcX := _, idx := 4 }, rfl, rfl,
          chunk_valid_of_match hph h (recordError_none hnone), hq⟩
    · simp only [hlast, if_false, Except.ok.injEq] at hq
      subst hq
      refine .inl ⟨(inRecord_crc (by exact hph)).mpr ⟨?_, hread⟩, rfl, rfl⟩
      simp only
      omega

end

/-- `CH.DES` goes on (R165, R166). -/
theorem chDesByte_waiting {s : State} {q q' : Seq} {b : Byte} (h : Consumer.chDes.Waiting { s with seq := q })
    (hq : recordByte s.cfg chDesAccept b q = .ok q') : Consumer.chDes.Waiting { s with seq := q' } ∧ q'.sl = q.sl := by
  obtain ⟨hperr, hrec | ⟨hdrain, hvalid⟩⟩ := h
  · rcases recordByte_cases hrec hq with hstay | ⟨e, he, hph, hpe, hsl⟩ | ⟨q1, hsl, hpe, hvalid, haccept⟩
    · exact ⟨⟨hstay.perr_eq ▸ hperr, .inl hstay.inRecord⟩, hstay.sl_eq⟩
    · refine ⟨⟨?_, .inr ⟨hph, fun hok => ?_⟩⟩, hsl⟩
      · rcases he with rfl | rfl <;> simp [hpe]
      · rcases he with rfl | rfl <;> simp [hpe] at hok
    · cases haccept
      exact ⟨⟨hpe ▸ hperr, .inr ⟨rfl, fun _ => hvalid⟩⟩, hsl⟩
  · simp only [recordByte, show q.ph = .drain from hdrain, Except.ok.injEq] at hq
    exact hq ▸ ⟨⟨hperr, .inr ⟨hdrain, hvalid⟩⟩, rfl⟩

/-- A byte of the header leaves `CT.DES` in the header, at the first record, or with a bad header (R211). -/
theorem headerByte_waiting {s : State} {q : Seq} (hhdr : q.ph = .hdr) (hidx : q.idx < 8) (b : Byte) :
    Consumer.ctDes.Waiting { s with seq := headerByte s.cfg b q } ∧ (headerByte s.cfg b q).sl = q.sl := by
  unfold headerByte
  split
  · split
    · exact ⟨.inr (.inl ((inRecord_len rfl).mpr (Nat.zero_lt_succ 3))), rfl⟩
    · exact ⟨.inl ⟨hhdr, by simp only; omega⟩, rfl⟩
  · exact ⟨.inr (.inr ⟨rfl, nofun, nofun⟩), rfl⟩

/-- `CT.DES` goes on, and its shadow list stays valid (R211, R212). -/
theorem ctDesByte_inPacket {s : State} {q q' : Seq} {b : Byte} (h : Consumer.ctDes.InPacket s q)
    (hq : ctDesByte s.cfg b q = .ok q') : Consumer.ctDes.InPacket s q' := by
  obtain ⟨hlist, ⟨hhdr, hidx⟩ | hrec | ⟨hdrain, hperr⟩⟩ := h
  · simp only [ctDesByte, show q.ph = .hdr from hhdr, if_true, Except.ok.injEq] at hq
    obtain ⟨hwait, hsl⟩ := headerByte_waiting (s := s) hhdr hidx b
    exact hq ▸ ⟨hsl ▸ hlist, hwait⟩
  · have hph : q.ph ≠ .hdr := by
      rcases Seq.InRecord.phase hrec with hph | hph | hph | hph <;> exact hph ▸ nofun
    simp only [ctDesByte, hph, if_false] at hq
    rcases recordByte_cases hrec hq with hstay | ⟨e, he, hph', hpe, hsl⟩ | ⟨q1, hsl, -, hvalid, haccept⟩
    · exact ⟨hstay.sl_eq ▸ hlist, .inr (.inl hstay.inRecord)⟩
    · refine ⟨hsl ▸ hlist, .inr (.inr ⟨hph', ?_⟩)⟩
      rcases he with rfl | rfl <;> simp [hpe]
    · unfold ctDesAccept at haccept
      split at haccept
      · cases haccept
      · next hroom =>
        cases haccept
        exact ⟨ListValid.append (hsl ▸ hlist) hvalid hroom, .inr (.inl ((inRecord_len rfl).mpr (Nat.zero_lt_succ 3)))⟩
  · have hph : q.ph = .drain := hdrain
    rw [ctDesByte, if_neg (hph ▸ nofun), recordByte, hph] at hq
    exact Except.ok.inj hq ▸ ⟨hlist, .inr (.inr ⟨hdrain, hperr⟩)⟩

/-- `CH.NEW` goes on (42_chunk.md R170). -/
theorem chNewByte_waiting {s : State} {t : Tag} {q q' : Seq} {b : Byte} (h : (Consumer.chNew t).Waiting { s with seq := q })
    (hq : chNewByte s.cfg b q = .ok q') : (Consumer.chNew t).Waiting { s with seq := q' } ∧ q'.sl = q.sl := by
  obtain ⟨hph, hmax, hcrc⟩ := h
  unfold chNewByte at hq
  split at hq
  · cases hq
  · next hfull =>
    cases hq
    refine ⟨⟨hph, ?_, ?_⟩, rfl⟩
    · simp only [List.length_append, List.length_singleton]
      simp only at hmax
      omega
    · simp only at hcrc ⊢
      rw [← List.append_assoc, crcFold_snoc, ← hcrc]

/-- The command goes on with its packet after any byte. -/
theorem byteStep_inPacket {c : Consumer} {s : State} {q q' : Seq} {b : Byte} (h : c.InPacket s q)
    (hq : c.byteStep s.cfg b q = .ok q') : c.InPacket s q' := by
  cases c with
  | crcGen | crcVfy | ttParse | ctRemove | ctFind => cases hq; exact h
  | chNew t =>
    obtain ⟨hwait, hsl⟩ := chNewByte_waiting h.2 hq
    exact ⟨hsl ▸ h.1, hwait⟩
  | chDes =>
    obtain ⟨hwait, hsl⟩ := chDesByte_waiting h.2 hq
    exact ⟨hsl ▸ h.1, hwait⟩
  | ctDes => exact ctDesByte_inPacket h hq

/-- Counting a beat changes the cursor alone, which plays no part (10_state.md R27). -/
theorem inPacket_countBeat {c : Consumer} {s : State} {q : Seq} (h : c.InPacket s q) (b : Beat) :
    c.InPacket s (countBeat b q) := by
  unfold countBeat
  split
  · exact h
  · cases c <;> exact h

/-- Where a run over beats has left the sequencer. -/
def Taken.seq : Taken → Seq
  | .waiting q | .ended q _ | .faulted _ q _ => q

/-- The sequencer stays consistent over any beats, up to one at which the command faults. -/
theorem takeBeats_inPacket {c : Consumer} {s : State} {q : Seq} (h : c.InPacket s q) (bs : List Beat) :
    c.InPacket s (takeBeats (c.byteStep s.cfg) bs q).seq := by
  induction bs generalizing q with
  | nil => exact h
  | cons b bs ih =>
    have hcount := inPacket_countBeat h b
    unfold takeBeats
    cases hstep : beatStep (c.byteStep s.cfg) b q with
    | error code => exact hcount
    | ok q' =>
      have hq' : c.InPacket s q' := by
        unfold beatStep at hstep
        split at hstep
        · cases hstep; exact h
        · exact byteStep_inPacket hcount hstep
      by_cases hlast : b.last = true
      · simp only [hlast, if_true]; exact hq'
      · simp only [hlast]; exact ih hq'

/-! ## The invariant -/

/-- The sequencer is ready for the packet when the command starts. -/
theorem start_inPacket {c : Consumer} {s : State} (hlist : ListValid s.cfg s.seq.sl) (hph : s.seq.ph = .idle)
    (hreads : c.Reads s) : c.InPacket s (c.start s.cfg s.seq) := by
  cases c with
  | crcGen | crcVfy | ttParse => exact ⟨hlist, hph⟩
  | ctRemove | ctFind => exact ⟨hlist, hph, hreads⟩
  | chNew t => exact ⟨hlist, hph, Nat.zero_le _, by simp [Consumer.start]⟩
  | chDes => exact ⟨hlist, nofun, .inl ((inRecord_len rfl).mpr (Nat.zero_lt_succ 3))⟩
  | ctDes => exact ⟨⟨Nat.zero_le _, nofun⟩, .inl ⟨rfl, Nat.zero_lt_succ 7⟩⟩

/-- A command is in progress in a block without a fault that owes no output, and it has changed no object register. -/
structure State.Running (s : State) : Prop where
  valid : ObjectsValid s.cfg s.ck s.cl
  fault_eq : s.fault = none
  flt_eq : s.flt = false
  busy_eq : s.busy = true
  dout_eq : s.dout = []
  rsp_eq : s.rsp = none
  was_eq : s.was = s.held

/-- A command that ends with a sound answer leaves the invariant. -/
theorem State.Running.ended_inv {s : State} (hs : s.Running) {q : Seq} (hlist : ListValid s.cfg q.sl)
    {a : Except FaultCode Reply} (ha : ∀ y, a = .ok y → y.Sound s) : (s.ended q a).Inv := by
  obtain ⟨⟨hck, hcl⟩, hfault, hflt, hbusy, hdout, hrsp, hwas⟩ := hs
  cases a with
  | error code =>
    exact {
      ck_valid := hck
      cl_valid := hcl
      sl_valid := hlist
      flt_eq := by simp [State.ended]
      busy_eq := by simp [State.ended, hbusy]
      one_end := fun h => absurd rfl h
      dout_ok := fun h => absurd hdout h
      fault_rsp := fun y hy => by cases hy; simp [State.ended]
      idle_between := fun _ h => nomatch h
      waiting := nofun
      held_eq := fun _ => hwas }
  | ok y =>
    obtain ⟨herr, hvalid, hkept⟩ := ha y rfl
    obtain ⟨hyck, hycl⟩ := hvalid ⟨hck, hcl⟩
    exact {
      ck_valid := hyck
      cl_valid := hycl
      sl_valid := hlist
      flt_eq := by simp [State.ended, hfault, hflt]
      busy_eq := by simp [State.ended, hbusy]
      one_end := fun h => absurd rfl h
      dout_ok := fun h => ⟨_, rfl, by_contra fun hne => h (by simp [State.ended, (hkept hne).1, hdout])⟩
      fault_rsp := fun z hz => by cases hz; simp [State.ended, herr, hfault]
      idle_between := fun _ h => nomatch h
      waiting := nofun
      held_eq := fun h => by
        obtain h | ⟨z, hz, hne⟩ := h
        · exact absurd rfl h
        · cases hz
          obtain ⟨-, htt, hckk, hclk⟩ := hkept hne
          simp [State.ended, hwas, State.held, htt, hckk, hclk] }

/-- A command that waits leaves the invariant. -/
theorem State.Running.awaiting_inv {s : State} (hs : s.Running) {c : Consumer} {q : Seq} (h : c.InPacket s q) :
    (s.awaiting q c).Inv := by
  obtain ⟨⟨hck, hcl⟩, hfault, hflt, hbusy, hdout, hrsp, hwas⟩ := hs
  exact {
    ck_valid := hck
    cl_valid := hcl
    sl_valid := h.1
    flt_eq := by simp [hfault, hflt]
    busy_eq := by simp [hbusy]
    one_end := fun _ => ⟨hrsp, hfault⟩
    dout_ok := fun h => absurd hdout h
    fault_rsp := fun y hy => nomatch hrsp.symm.trans hy
    idle_between := nofun
    waiting := fun c' hc' => by cases hc'; cases c <;> exact h.2
    held_eq := fun _ => hwas }

/-- Going on with a packet leaves the invariant. -/
theorem State.Running.resume_inv {s : State} (hs : s.Running) {c : Consumer} (h : c.InPacket s s.seq) : (resume c s).Inv := by
  have hin := takeBeats_inPacket h s.din
  rw [resume_eq_runPacket]
  have hs' : ∀ rest q, State.Running { s with din := rest, seq := q } := fun _ _ => { hs with }
  rcases runPacket_cases c (c.byteStep s.cfg) c.finish s with ⟨q, htaken, hrun⟩ | ⟨q, rest, htaken, hrun⟩ |
    ⟨code, q, rest, htaken, hrun⟩ <;> rw [hrun] <;> rw [htaken] at hin
  · exact hs.awaiting_inv hin
  · obtain ⟨a, hsound, hends⟩ := finishesAlike c { s with din := rest, seq := q }
    obtain ⟨q', hsl, hfin⟩ := hends q (endsAlike_refl c q)
    rw [hfin s.cur]
    exact (hs' rest q).ended_inv (hsl ▸ hin.1) (hsound ⟨hin.1, by cases c <;> exact hin.2⟩)
  · rw [takeFault_eq_haltedBy]
    exact (hs' rest q).ended_inv (a := .error code) hin.1 nofun

/-- A command of an idle PCC is in progress once its word is taken. -/
theorem State.Inv.running_taken {s : State} (hinv : s.Inv) (hidle : s.Idle) : s.taken.Running := by
  have hfault : s.fault = none := by
    simpa [hidle.busy_eq, hidle.cur_eq, hidle.rsp_eq] using hinv.busy_eq.symm
  exact ⟨⟨hinv.ck_valid, hinv.cl_valid⟩, hfault, by simp [hinv.flt_eq, hfault], rfl, hidle.dout_eq, hidle.rsp_eq, rfl⟩

/-- A command that waits is in progress. -/
theorem State.Inv.running_of_cur {s : State} {c : Consumer} (hinv : s.Inv) (hcur : s.cur = some c) (hdout : s.dout = []) :
    s.Running := by
  have hne : s.cur ≠ none := by simp [hcur]
  obtain ⟨hrsp, hfault⟩ := hinv.one_end hne
  exact ⟨⟨hinv.ck_valid, hinv.cl_valid⟩, hfault, by simp [hinv.flt_eq, hfault], by simp [hinv.busy_eq, hcur], hdout, hrsp,
    hinv.held_eq (.inl hne)⟩

/-- Running a command of an idle PCC keeps the invariant. -/
theorem State.Inv.exec_inv {i : Instr} {s t : State} (hinv : s.Inv) (hidle : s.Idle) (h : exec i s = .next t) : t.Inv := by
  have hrun := hinv.running_taken hidle
  obtain ⟨c, rfl, hreads⟩ | ⟨run, hexec, a, hsound, hends⟩ := reads_or_answersAlike i s
  · have hstart := start_inPacket hinv.sl_valid (hinv.idle_between hidle.cur_eq hidle.rsp_eq) hreads
    have hs' : (c.started s).Running := { hrun with }
    rw [exec_eq_resume hreads] at h
    cases h
    exact hs'.resume_inv ⟨hstart.1, by cases c <;> exact hstart.2⟩
  · obtain ⟨q', hsl, hq⟩ := hends s.seq
    cases h.symm.trans (hexec s.seq)
    rw [hq]
    exact hrun.ended_inv (hsl ▸ hinv.sl_valid) hsound

/-- A `DOUT` beat moves. -/
theorem State.Inv.moveDout_inv {s : State} {b : Beat} {bs : List Beat} (hinv : s.Inv) (hdout : s.dout = b :: bs) :
    (moveDout b bs s).Inv := by
  have hanswers : s.Answers .ok := hinv.dout_ok (by simp [hdout])
  obtain ⟨y, hy, hok⟩ := hanswers
  have hcur : s.cur = none := by_contra fun hne => nomatch (hinv.one_end hne).1.symm.trans hy
  exact {
    ck_valid := hinv.ck_valid
    cl_valid := hinv.cl_valid
    sl_valid := by simpa [moveDout] using hinv.sl_valid
    flt_eq := hinv.flt_eq
    busy_eq := hinv.busy_eq
    one_end := hinv.one_end
    dout_ok := fun _ => ⟨y, hy, hok⟩
    fault_rsp := hinv.fault_rsp
    idle_between := fun _ hrsp => nomatch hrsp.symm.trans hy
    waiting := fun c hc => nomatch hcur.symm.trans hc
    held_eq := hinv.held_eq }

/-- The `RSP` beat moves. -/
theorem State.Inv.moveRsp_inv {s : State} {y : Response} (hinv : s.Inv) (hdout : s.dout = []) (hy : s.rsp = some y) :
    (moveRsp y s).Inv := by
  have hcur : s.cur = none := by_contra fun hne => nomatch (hinv.one_end hne).1.symm.trans hy
  exact {
    ck_valid := hinv.ck_valid
    cl_valid := hinv.cl_valid
    sl_valid := hinv.sl_valid
    flt_eq := hinv.flt_eq
    busy_eq := by simp [hcur]
    one_end := fun h => absurd hcur h
    dout_ok := fun h => absurd hdout h
    fault_rsp := nofun
    idle_between := fun _ _ => rfl
    waiting := fun c hc => nomatch hcur.symm.trans hc
    held_eq := fun h => by
      obtain h | ⟨z, hz, -⟩ := h
      · exact absurd hcur h
      · cases hz }

/-- Settles O55: by the kind of step (`step_cases`). A beat that moves changes nothing the invariant speaks of but what is owed
(`State.Inv.moveDout_inv`, `State.Inv.moveRsp_inv`); a command in progress has its sequencer consistent after any beats and ends
with a sound answer (`State.Running.resume_inv`); a new command starts with a consistent sequencer or ends at once with a sound answer
(`State.Inv.exec_inv`). -/
theorem stepKeepsTheInvariant : Obligations.StepKeepsTheInvariant := by
  intro s t hinv h
  rcases step_cases h with ⟨b, bs, hdout, -, rfl⟩ | ⟨y, hdout, hy, -, rfl⟩ | ⟨c, hdout, -, hcur, -, rfl⟩ |
    ⟨w, rest, hidle, -, ⟨i, -, hexec⟩ | ⟨why, -, rfl⟩⟩
  · exact hinv.moveDout_inv hdout
  · exact hinv.moveRsp_inv hdout hy
  · exact (hinv.running_of_cur hcur hdout).resume_inv ⟨hinv.sl_valid, hinv.waiting c hcur⟩
  · exact State.Inv.exec_inv (s := { s with cmd := rest }) { hinv with } { hidle with } hexec
  · have hinv' : State.Inv { s with cmd := rest } := { hinv with }
    rw [illegalWord, takeFault_cmdTaken]
    exact (hinv'.running_taken { hidle with }).ended_inv (a := .error .illegal) hinv.sl_valid nofun

end Sys2Proof.Machine

/-! PROOFS. The property of the verifier that 40_crc.md R116 states. -/

namespace Sys2Proof.Machine

/-- Settles O12: the polynomial of R111 has bit 31, so no step of the register loses a difference (`detectsSingleBit_of_poly`). -/
theorem singleBitChangesTheChecksum : Obligations.SingleBitChangesTheChecksum := fun cfg hpoly =>
  detectsSingleBit_of_poly (by rw [hpoly]; rfl)

end Sys2Proof.Machine
